-- ==== Sys2Proof/Word.lean ====
section
/-! DEFINITION. The word types of the block: command words, registers and samples are whole 32-bit words
(spec/20_memory.md R73), the bridge record is a sequence of bytes (spec/41_state_codec.md R140). -/

namespace Sys2Proof

/-- A command word, a register as a read port shows it, or an entry of the sample memory (R27, R70, R90). -/
abbrev Word := BitVec 32

/-- A byte of the bridge record (R140). -/
abbrev Byte := BitVec 8

/-- A binary32 value, held as its 32-bit pattern `b32(v)` (R10). -/
abbrev F32 := BitVec 32

/-- `+0.0`, the value of silence (R10, R190). -/
def silence : F32 := 0x00000000#32

end Sys2Proof
end

