-- ==== Sys2Proof/Syntax.lean ====
section
/-! DEFINITION. The commands of the block, one constructor per row of the opcode table
(spec/30_encoding.md R93, R94), and the two ports they arrive on (spec/10_state.md R25, R26). -/

namespace Sys2Proof

/-- The two command ports, one per clock domain (R25, R26). -/
inductive Port where
  | producer
  | consumer
deriving DecidableEq, Repr, Inhabited

/-- The mnemonics of the opcode table (R93, R94, R100). -/
inductive Mnemonic where
  | STEP | STEPFRAME | STEPSEC | RESET | SETBTN
  | CONFIG | DISABLE | ATTACH | DETACH | SNAPSHOT | RESTORE
  | FRAME | FLUSH | SETCH
deriving DecidableEq, Repr, Inhabited

/-- A controller selected by bit `p` of SETBTN: 0 is controller 1, 1 is controller 2 (R92). -/
inductive Player where
  | one
  | two
deriving DecidableEq, Repr, Inhabited

/-- A decoded command, its operands assembled as R92 says: unsigned, never sign-extended or scaled. -/
inductive Instr where
  /-- One processor step with its clock-ratio ticks (R112). -/
  | step
  /-- Steps until the picture unit's frame counter changes (R120). -/
  | stepframe
  /-- Steps until a budget of `us` microseconds of ticks is used up (R122). -/
  | stepsec (us : BitVec 24)
  /-- The warm reset (R125). -/
  | reset
  /-- Replace one controller's button latch (R126). -/
  | setbtn (p : Player) (b : BitVec 8)
  /-- Set the output sample rate in Hz and start the sample path (R160). -/
  | config (rate : BitVec 24)
  /-- Stop the sample path (R161). -/
  | disable
  /-- Let filtered samples enter the FIFO (R162). -/
  | attach
  /-- Discard filtered samples (R163). -/
  | detach
  /-- Write the bridge record to the state sink (R141). -/
  | snapshot
  /-- Read a bridge record from the state source (R142). -/
  | restore
  /-- Produce one output frame, popping one sample if the consumer sees one (R190). -/
  | frame
  /-- Discard every sample the consumer sees (R191). -/
  | flush
  /-- Set the output channel count (R192). -/
  | setch (n : BitVec 8)
deriving DecidableEq, Repr, Inhabited

/-- The row of the opcode table a command belongs to. -/
def Instr.mnemonic : Instr → Mnemonic
  | .step => .STEP
  | .stepframe => .STEPFRAME
  | .stepsec _ => .STEPSEC
  | .reset => .RESET
  | .setbtn _ _ => .SETBTN
  | .config _ => .CONFIG
  | .disable => .DISABLE
  | .attach => .ATTACH
  | .detach => .DETACH
  | .snapshot => .SNAPSHOT
  | .restore => .RESTORE
  | .frame => .FRAME
  | .flush => .FLUSH
  | .setch _ => .SETCH

/-- The port whose table lists a mnemonic (R93, R94). -/
def Mnemonic.port : Mnemonic → Port
  | .STEP | .STEPFRAME | .STEPSEC | .RESET | .SETBTN => .producer
  | .CONFIG | .DISABLE | .ATTACH | .DETACH | .SNAPSHOT | .RESTORE => .producer
  | .FRAME | .FLUSH | .SETCH => .consumer

end Sys2Proof
end

