-- ==== Sys2Proof/WellFormed.lean ====
section
/-! DEFINITION. When a command is well formed: the port it is offered on lists it (spec/30_encoding.md R95), and
the numbers an assembler is given fit its operand fields (R99). Operand widths of a decoded command are in the
types of `Instr`. -/

namespace Sys2Proof

/-- A command is well formed on a port when that port's table lists it: each port decodes only its own table
(R95). -/
def Instr.wellFormed (p : Port) (i : Instr) : Bool :=
  decide (i.mnemonic.port = p)

/-- Whether the operands written after a mnemonic are as many as its format has and each fits its field
(R91, R99: an assembler refuses one that does not fit). -/
def Mnemonic.operandsFit : Mnemonic → List Nat → Bool
  | .STEPSEC, [us] => decide (us < 2 ^ 24)
  | .CONFIG, [rate] => decide (rate < 2 ^ 24)
  | .SETBTN, [p, b] => decide (p < 2) && decide (b < 2 ^ 8)
  | .SETCH, [n] => decide (n < 2 ^ 8)
  | .STEPSEC, _ => false
  | .CONFIG, _ => false
  | .SETBTN, _ => false
  | .SETCH, _ => false
  | _, ops => ops.isEmpty

end Sys2Proof
end

