-- ==== Sys2Proof/Decode.lean ====
section
/-! DEFINITION. The opcode tables of the two ports (spec/30_encoding.md R93, R94), the decoder that reads a word by
`(word AND mask) = match`, the encoder, and the assembler of R99. -/

namespace Sys2Proof

/-- One row of an opcode table: a word is a command of the row when `(word AND mask) = bits` (R93). -/
structure OpRow where
  mnemonic : Mnemonic
  bits : Word
  mask : Word
deriving DecidableEq, Repr

/-- The row of a mnemonic, as R93 and R94 print it. -/
def Mnemonic.row : Mnemonic → OpRow
  | .STEP => ⟨.STEP, 0x01000000#32, 0xFFFFFFFF#32⟩
  | .STEPFRAME => ⟨.STEPFRAME, 0x02000000#32, 0xFFFFFFFF#32⟩
  | .STEPSEC => ⟨.STEPSEC, 0x03000000#32, 0xFF000000#32⟩
  | .RESET => ⟨.RESET, 0x04000000#32, 0xFFFFFFFF#32⟩
  | .SETBTN => ⟨.SETBTN, 0x05000000#32, 0xFFFFFE00#32⟩
  | .CONFIG => ⟨.CONFIG, 0x10000000#32, 0xFF000000#32⟩
  | .DISABLE => ⟨.DISABLE, 0x11000000#32, 0xFFFFFFFF#32⟩
  | .ATTACH => ⟨.ATTACH, 0x12000000#32, 0xFFFFFFFF#32⟩
  | .DETACH => ⟨.DETACH, 0x13000000#32, 0xFFFFFFFF#32⟩
  | .SNAPSHOT => ⟨.SNAPSHOT, 0x20000000#32, 0xFFFFFFFF#32⟩
  | .RESTORE => ⟨.RESTORE, 0x21000000#32, 0xFFFFFFFF#32⟩
  | .FRAME => ⟨.FRAME, 0x80000000#32, 0xFFFFFFFF#32⟩
  | .FLUSH => ⟨.FLUSH, 0x81000000#32, 0xFFFFFFFF#32⟩
  | .SETCH => ⟨.SETCH, 0x82000000#32, 0xFFFFFF00#32⟩

/-- The opcode table of each port, in the order R93 and R94 list it. -/
def Port.table : Port → List OpRow
  | .producer =>
    [Mnemonic.STEP.row, Mnemonic.STEPFRAME.row, Mnemonic.STEPSEC.row, Mnemonic.RESET.row,
      Mnemonic.SETBTN.row, Mnemonic.CONFIG.row, Mnemonic.DISABLE.row, Mnemonic.ATTACH.row,
      Mnemonic.DETACH.row, Mnemonic.SNAPSHOT.row, Mnemonic.RESTORE.row]
  | .consumer => [Mnemonic.FRAME.row, Mnemonic.FLUSH.row, Mnemonic.SETCH.row]

/-- The match rule of R93. -/
def OpRow.hits (r : OpRow) (w : Word) : Bool :=
  decide (w &&& r.mask = r.bits)

/-- `imm24 = word[23:0]` (R92). -/
def imm24 (w : Word) : BitVec 24 := w.extractLsb' 0 24

/-- `imm8 = word[7:0]`, and the button byte `b = word[7:0]` (R92). -/
def imm8 (w : Word) : BitVec 8 := w.extractLsb' 0 8

/-- `p = word[8]`: 0 selects controller 1, 1 controller 2 (R92). -/
def playerBit (w : Word) : Player :=
  if w.getLsbD 8 then .two else .one

/-- The command of a row, its operands assembled from the word (R91, R92). -/
def Mnemonic.assembleWord (m : Mnemonic) (w : Word) : Instr :=
  match m with
  | .STEP => .step
  | .STEPFRAME => .stepframe
  | .STEPSEC => .stepsec (imm24 w)
  | .RESET => .reset
  | .SETBTN => .setbtn (playerBit w) (imm8 w)
  | .CONFIG => .config (imm24 w)
  | .DISABLE => .disable
  | .ATTACH => .attach
  | .DETACH => .detach
  | .SNAPSHOT => .snapshot
  | .RESTORE => .restore
  | .FRAME => .frame
  | .FLUSH => .flush
  | .SETCH => .setch (imm8 w)

/-- Decode a word offered on a port by that port's own table (R93 to R95). `none` is an illegal word (R96). -/
def decode (p : Port) (w : Word) : Option Instr :=
  (p.table.find? (fun r => r.hits w)).map (fun r => r.mnemonic.assembleWord w)

/-- The controller bit of format B (R92). -/
def Player.bit : Player → BitVec 1
  | .one => 0#1
  | .two => 1#1

/-- The word of a command (R91): the opcode in bits 31:24 and the operand area of its format. -/
def encode : Instr → Word
  | .step => 0x01#8 ++ 0#24
  | .stepframe => 0x02#8 ++ 0#24
  | .stepsec us => 0x03#8 ++ us
  | .reset => 0x04#8 ++ 0#24
  | .setbtn p b => 0x05#8 ++ (0#15 ++ (p.bit ++ b))
  | .config rate => 0x10#8 ++ rate
  | .disable => 0x11#8 ++ 0#24
  | .attach => 0x12#8 ++ 0#24
  | .detach => 0x13#8 ++ 0#24
  | .snapshot => 0x20#8 ++ 0#24
  | .restore => 0x21#8 ++ 0#24
  | .frame => 0x80#8 ++ 0#24
  | .flush => 0x81#8 ++ 0#24
  | .setch n => 0x82#8 ++ (0#16 ++ n)

/-- The assembler of R99: a mnemonic and its operands as unsigned numbers, in the order the listing writes them.
An operand that does not fit its field is refused, never truncated. -/
def assemble (m : Mnemonic) (ops : List Nat) : Option Instr :=
  if m.operandsFit ops then
    match m, ops with
    | .STEPSEC, [us] => some (.stepsec (BitVec.ofNat 24 us))
    | .CONFIG, [rate] => some (.config (BitVec.ofNat 24 rate))
    | .SETBTN, [p, b] => some (.setbtn (if p = 0 then .one else .two) (BitVec.ofNat 8 b))
    | .SETCH, [n] => some (.setch (BitVec.ofNat 8 n))
    | m, _ => some (m.assembleWord m.row.bits)
  else none

/-- The instruction the decoder reads from a word of `nbits` bits numbered as the opcode table numbers them. A
command is one whole 32-bit word (R73, R90), and the two ports' tables are disjoint, so the word is given to the
producer port's decoder first and to the consumer port's where that one refuses it. A longer word is no command. -/
def decodeTableWord (nbits w : Nat) : Option Instr :=
  if 32 < nbits then none
  else
    let word : Word := BitVec.ofNat 32 (w % 2 ^ nbits)
    (decode .producer word).or (decode .consumer word)

end Sys2Proof
end

