-- ==== Sys2Proof/Config.lean ====
section
/-! DEFINITION. The parameters of an instance of the block (spec/00_scope.md R7), the replies its outside can give
(R12), and the free values: constants with no body, which stand for what the spec leaves open
(spec/93_implementation_defined.md U1 to U4, U12, U15). -/

namespace Sys2Proof

/-- Which `FilterDesign` an instance has (R7, R171): the default of R172, or another total function of the same
arguments, of which nothing is known. -/
inductive DesignChoice where
  | bilinear
  | other (n : Nat)
deriving DecidableEq, Repr, Inhabited

/-- Which `StageArith` an instance has (R7, R173): the default of R174, or another total function of the same
operands, of which nothing is known. -/
inductive ArithChoice where
  | unfused
  | other (n : Nat)
deriving DecidableEq, Repr, Inhabited

/-- The kind of a filter stage (R7). -/
inductive FilterKind where
  | hp
  | lp
deriving DecidableEq, Repr, Inhabited

/-- The parameters of R7. They are constant for an instance; `paramsValid` (Machine/Operands.lean) holds their
constraints. -/
structure Params where
  /-- `F_CPU`, the processor clock frequency in Hz. -/
  fcpu : Nat
  /-- `CAP`, the FIFO capacity in samples. -/
  cap : Nat
  /-- `FRAME_W`, the width of the picture unit's frame counter. -/
  frameW : Nat
  /-- `FC0`, the cutoff of stage 0. -/
  fc0 : F32
  /-- `FC1`, the cutoff of stage 1. -/
  fc1 : F32
  /-- `FC2`, the cutoff of stage 2. -/
  fc2 : F32
  design : DesignChoice
  arith : ArithChoice
deriving DecidableEq, Repr, Inhabited

/-- The values R7 suggests as defaults. PRESUMED: the spec marks them general knowledge, not in its source
(93_implementation_defined.md G1 to G5; notes/assumptions/2.md). Unsafe. -/
def Params.suggested : Params where
  fcpu := 1789773
  cap := 44100
  frameW := 64
  fc0 := 0x42B40000#32
  fc1 := 0x43DC0000#32
  fc2 := 0x465AC000#32
  design := .bilinear
  arith := .unfused

/-- The coefficients `(B0, B1, A1)` of one filter stage (R171). -/
structure Coef where
  b0 : F32
  b1 : F32
  a1 : F32
deriving DecidableEq, Repr, Inhabited

/-- What `ProcStep()` returns: the tick count `c` and the fault flag (R12, R24). -/
structure ProcReply where
  c : BitVec 8
  fault : Bool
deriving DecidableEq, Repr, Inhabited

/-- What the state source does when it is asked for a byte (R28, R142, R252): it gives one, it signals the end of the
stream, or it does neither yet. -/
inductive SourceItem where
  | byte (b : Byte)
  | eos
  | silent
deriving DecidableEq, Repr, Inhabited

/-- The four agents of R20. -/
inductive Agent where
  | prod
  | cons
  | syncW
  | syncR
deriving DecidableEq, Repr, Inhabited

namespace Config

/-- The agents that step before a synchroniser's next due step, where the state holds no schedule (R20, U4): any
finite number of them, in any order. -/
opaque agentsBefore : Nat → List Agent

/-- What the emulation driver offers at a turn, where the state holds no offer (R25, R256): any word, or nothing. -/
opaque offeredCmd : Nat → Option Word

/-- What the host audio device offers at a turn, where the state holds no offer (R26, R256): any word, or nothing. -/
opaque offeredCcmd : Nat → Option Word

/-- A reply of `ProcStep()` (R12, U15). -/
opaque procReply : Nat → ProcReply

/-- A reply of `PpuTick()` (R12, U15). -/
opaque ppuFault : Nat → Bool

/-- A reply of `MapperTick()` (R12, U15). -/
opaque mapperFault : Nat → Bool

/-- A reply of `ApuTick()` (R12, U15). -/
opaque apuFault : Nat → Bool

/-- A value of the picture unit's frame counter (R12, U15); its low `FRAME_W` bits are the reply of `PpuFrame()`. -/
opaque ppuFrame : Nat → BitVec 64

/-- A value of the audio unit's output (R12, U15): any binary32 pattern. -/
opaque apuOut : Nat → F32

/-- `st_out_ready`: whether the state sink is ready for the byte held out to it (R28, R252, R256). -/
opaque sinkReady : Nat → Bool

/-- What the state source does when asked (R142, R252, R256). -/
opaque sourceItem : Nat → SourceItem

/-- What an entry of the sample memory holds at power-on (R52, U1). -/
opaque powerOnSample : Nat → Word

/-- The sign and the low 22 bits of a NaN result of `StageArith`, `NaNOf` (R7, R175, U3): a quiet NaN with an
unspecified payload. -/
opaque nanBits : Nat → BitVec 23

/-- The sign and payload of a NaN coefficient `j` of the default `FilterDesign`, which depends on its arguments only
(R7, R171, R175). -/
opaque designNanBits : BitVec 24 → F32 → FilterKind → Nat → BitVec 23

/-- A `FilterDesign` other than the default (R7, R171). -/
opaque otherDesign : Nat → BitVec 24 → F32 → FilterKind → Coef

/-- A `StageArith` other than the default (R7, R173, R174). -/
opaque otherArith : Nat → F32 → F32 → F32 → F32 → F32 → F32 → F32

/-- CFG_VALID after a failed RESTORE (R145, U2). -/
opaque failedCfgValid : Nat → Bool

/-- RATE after a failed RESTORE (R145, U2). -/
opaque failedRate : Nat → BitVec 24

/-- ACC after a failed RESTORE (R145, U2). -/
opaque failedAcc : Nat → Word

/-- COEF register `j` of 0..8 and FSTATE register `j - 9` of 0..5 after a failed RESTORE (R145, U2). -/
opaque failedFloat : Nat → Nat → F32

end Config

end Sys2Proof
end

