-- ==== Sys2Proof/Machine/State.lean ====
section
/-! DEFINITION. Every piece of state the spec gives the block (spec/10_state.md R31 to R55), the parameters of the
instance (spec/00_scope.md R7), what the outside will answer next (R12) and what a run shows of the calls it made
(spec/70_reset_and_hazards.md R260); the power-on state (R240); and the reasons a step can stop. -/

namespace Sys2Proof.Machine

/-- PROD's phase (R55). -/
inductive Phase where
  | idle
  | cpu
  | vid
  | aud
  | stepEnd
  | halt
deriving DecidableEq, Repr, Inhabited

/-- What ends the stepping command in progress (R55). -/
inductive Mode where
  | single
  | frame
  | seconds
deriving DecidableEq, Repr, Inhabited

/-- The state-stream command in flight (R252, R261). -/
inductive InFlight where
  | none
  /-- SNAPSHOT: the bytes of its record that the sink has not taken yet, in order (R28, R141). -/
  | snapshot (left : List Byte)
  /-- RESTORE: the bytes it has from the source so far, in order (R28, R142). -/
  | restore (got : List Byte)
deriving DecidableEq, Repr, Inhabited

/-- A filter stage number, 0, 1 or 2 (R43, R44). -/
inductive Stage where
  | s0
  | s1
  | s2
deriving DecidableEq, Repr, Inhabited

/-- One value for each filter stage. -/
structure Bank (α : Type) where
  s0 : α
  s1 : α
  s2 : α
deriving DecidableEq, Repr, Inhabited

/-- `X1[s]` and `Y1[s]`, the previous input and output of a filter stage (R44). -/
structure StageState where
  x1 : F32
  y1 : F32
deriving DecidableEq, Repr, Inhabited

/-- The divider and filter state: exactly what the bridge record holds (R140, R146). -/
structure SamplePath where
  /-- CFG_VALID (R41). -/
  cfgValid : Bool
  /-- RATE, bits 23:0; bits 31:24 read 0 (R34). -/
  rate : BitVec 24
  /-- ACC, the tick accumulator (R35). -/
  acc : Word
  /-- COEF (R43). -/
  coef : Bank Coef
  /-- FSTATE (R44). -/
  fstate : Bank StageState
deriving DecidableEq, Repr, Inhabited

/-- The producer domain: R31 to R44 and R55. -/
structure Producer where
  phase : Phase
  mode : Mode
  /-- `cur_c`, the tick count of the step in progress (R55). -/
  curC : BitVec 8
  /-- `k`, the ticks left in the current phase (R55). -/
  k : BitVec 10
  /-- `frame0`, the frame counter STEPFRAME compares against: `FRAME_W` bits (R55). -/
  frame0 : BitVec 64
  /-- ERROR (R32). -/
  error : Word
  /-- LAST_C, bits 7:0; bits 31:8 read 0 (R36). -/
  lastC : BitVec 8
  /-- TOTAL (R37). -/
  total : BitVec 64
  /-- BUDGET, two's complement (R38). -/
  budget : BitVec 64
  /-- WR_PTR, an integer in `0 .. 2*CAP - 1` (R39). -/
  wrPtr : Nat
  /-- RD_SYNC (R40). -/
  rdSync : Nat
  /-- ATTACHED (R42). -/
  attached : Bool
  /-- CFG_VALID, RATE, ACC, COEF, FSTATE. -/
  path : SamplePath
  /-- The SNAPSHOT or RESTORE in progress, with what it has moved, if one waits for its host (R28, R252). -/
  stream : InFlight
deriving DecidableEq, Repr, Inhabited

/-- The consumer domain: R45 to R51. -/
structure Consumer where
  /-- CFAULT (R50). -/
  cfault : Bool
  /-- CERROR (R46). -/
  cerror : Word
  /-- CHANNELS, bits 7:0; bits 31:8 read 0 (R47). -/
  channels : BitVec 8
  /-- RD_PTR, an integer in `0 .. 2*CAP - 1` (R48). -/
  rdPtr : Nat
  /-- WR_SYNC (R49). -/
  wrSync : Nat
  /-- OUT_SAMPLE (R51). -/
  outSample : Word
deriving DecidableEq, Repr, Inhabited

/-- The sample memory `M` (R52, R70): the entries a push has written since power-on, by rising index. The entry is
the one unit of access the spec gives it (notes/assumptions/8.md). -/
abbrev Memory := List (Nat × Word)

/-- One call the block made to an external unit or to the state source, with its reply (R12, R24, R28). -/
inductive ExtCall where
  | procStep (reply : ProcReply)
  | procReset
  | ppuTick (fault : Bool)
  | mapperTick (fault : Bool)
  | apuTick (fault : Bool)
  | ppuFrame (value : BitVec 64)
  | apuOut (value : F32)
  | btnWrite (p : Player) (b : BitVec 8)
  /-- `SourceGet()`: the byte it returned, or `none` for `EOS`. -/
  | sourceGet (reply : Option Byte)
deriving DecidableEq, Repr, Inhabited

/-- One output frame: `value` in each of `channels` channels (R29). -/
structure Frame where
  value : F32
  channels : BitVec 8
deriving DecidableEq, Repr, Inhabited

/-- What a run shows beside its registers (R260), oldest first. The model's own field (notes/assumptions/12.md). -/
structure Trace where
  calls : List ExtCall
  /-- The bytes sent to the state sink (R28). -/
  sink : List Byte
  /-- The frames handed to the host audio device (R29). -/
  frames : List Frame
deriving DecidableEq, Repr, Inhabited

/-- What the outside will answer next, one list per port (R12, R259); where a list is used up, the answer is a free
value of `Config`. The model's own field (notes/assumptions/4.md). -/
structure World where
  /-- The agents that step next (R20). -/
  sched : List Agent
  /-- What the driver offers on the producer command port, turn by turn (R25). -/
  cmds : List (Option Word)
  /-- What the host audio device offers on the consumer command port, turn by turn (R26). -/
  ccmds : List (Option Word)
  proc : List ProcReply
  ppuFaults : List Bool
  mapperFaults : List Bool
  apuFaults : List Bool
  /-- The values of the frame counter, reading by reading. -/
  frames : List (BitVec 64)
  /-- The values of the audio unit's output, reading by reading. -/
  apuOuts : List F32
  /-- `st_out_ready`, byte by byte held out to the sink (R28). -/
  sinkReady : List Bool
  /-- What the source gives (R28). -/
  source : List SourceItem
  /-- How many free values have been drawn. -/
  fresh : Nat
deriving DecidableEq, Repr, Inhabited

/-- The machine. -/
structure State where
  /-- The parameters of the instance (R7); no step changes them (notes/assumptions/1.md). -/
  params : Params
  prod : Producer
  cons : Consumer
  mem : Memory
  out : Trace
  world : World
deriving DecidableEq, Repr, Inhabited

/-- Why the machine stops. The block's own faults (R210, R211) are none of these: they are next states. -/
inductive Fault where
  /-- A register would be given a value outside its range, which R9 calls an error in the spec and never a silent
  wrap. Raised by the phases VID, AUD and END and by the audio tick, only in states no run reaches
  (notes/assumptions/11.md). Safe. -/
  | registerRange
deriving DecidableEq, Repr, Inhabited

/-- Why the model has no meaning for a step. -/
inductive Refusal where
  /-- An instruction whose meaning is not written. No arm raises it. Safe. -/
  | notModelled (mnemonic : String)
  /-- The parameters break a constraint of R7, which says that a model refuses such an instance. Raised by every
  step of such an instance (notes/assumptions/1.md). Safe. -/
  | badInstance
deriving DecidableEq, Repr, Inhabited

/-- `+0.0` in every coefficient of a stage (R43). -/
def Coef.zero : Coef := ⟨silence, silence, silence⟩

/-- `+0.0` in both state registers of a stage (R44). -/
def StageState.zero : StageState := ⟨silence, silence⟩

/-- The same value for each filter stage. -/
def Bank.all {α : Type} (a : α) : Bank α := ⟨a, a, a⟩

/-- The sample path at power-on (R34, R35, R41, R43, R44, R240). -/
def SamplePath.powerOn : SamplePath where
  cfgValid := false
  rate := 0#24
  acc := 0#32
  coef := .all Coef.zero
  fstate := .all StageState.zero

/-- The producer domain at power-on (R240). -/
def Producer.powerOn : Producer where
  phase := .idle
  mode := .single
  curC := 0#8
  k := 0#10
  frame0 := 0#64
  error := 0#32
  lastC := 0#8
  total := 0#64
  budget := 0#64
  wrPtr := 0
  rdSync := 0
  attached := false
  path := .powerOn
  stream := .none

/-- The consumer domain at power-on (R240). -/
def Consumer.powerOn : Consumer where
  cfault := false
  cerror := 0#32
  channels := 0#8
  rdPtr := 0
  wrSync := 0
  outSample := 0#32

/-- Nothing has been shown yet. DESIGN CHOICE (notes/assumptions/19.md). -/
def Trace.empty : Trace := ⟨[], [], []⟩

/-- Nothing is fixed of what the outside will answer. DESIGN CHOICE (notes/assumptions/19.md). -/
def World.empty : World := ⟨[], [], [], [], [], [], [], [], [], [], [], 0⟩

/-- The block with parameters `p` right after power-on (R240), in a world of which `w` is fixed (R241: power-on
resets the block only). No entry of the sample memory has been written (R52, R72). -/
def State.powerOn (p : Params) (w : World) : State where
  params := p
  prod := .powerOn
  cons := .powerOn
  mem := []
  out := .empty
  world := w

/-- The machine right after reset: the power-on state of R240, with the parameters R7 suggests
(notes/assumptions/2.md, 19.md). -/
def State.reset : State := State.powerOn Params.suggested World.empty

end Sys2Proof.Machine
end

