-- ==== Sys2Proof/Machine/Binary32.lean ====
section
/-! DEFINITION. IEEE 754 binary32 arithmetic, rounded once to nearest, ties to even, never fused, subnormals kept
(spec/00_scope.md R10, spec/42_sample_path.md R174, R175). An operand is read as an exact integer times a power of
two, the result is computed exactly, and `roundF32` narrows it. -/

namespace Sys2Proof.Machine

/-- What a binary32 pattern stands for. `fin neg m e` is `(-1)^neg * m * 2^e`, so that both zeros keep their sign. -/
inductive F32View where
  | nan
  | inf (neg : Bool)
  | fin (neg : Bool) (m : Nat) (e : Int)
deriving DecidableEq, Repr

/-- Read a pattern: sign in bit 31, exponent field in bits 30:23, fraction in bits 22:0. -/
def viewF32 (w : F32) : F32View :=
  let neg := w.getLsbD 31
  let ex := (w.extractLsb' 23 8).toNat
  let fr := (w.extractLsb' 0 23).toNat
  if ex = 255 then (if fr = 0 then .inf neg else .nan)
  else if ex = 0 then .fin neg fr (-149)
  else .fin neg (2 ^ 23 + fr) ((ex : Int) - 150)

/-- Whether a pattern is a NaN. -/
def isNaN (w : F32) : Bool := decide (viewF32 w = .nan)

/-- A pattern from its sign and its low 31 bits. -/
def packF32 (neg : Bool) (low : Nat) : F32 :=
  BitVec.ofNat 32 ((if neg then 2 ^ 31 else 0) + low)

/-- An infinity. -/
def infF32 (neg : Bool) : F32 := packF32 neg 0x7F800000

/-- A zero. -/
def zeroF32 (neg : Bool) : F32 := packF32 neg 0

/-- The NaN an intermediate result is marked with. Its bits reach no register: `stageArith` and `bilinearDesign` replace
a NaN result by a free quiet NaN (R175). -/
def markNaN : F32 := 0x7FC00000#32

/-- A quiet NaN from a sign and 22 payload bits: exponent field all ones, top fraction bit one (R7, `NaNOf`). -/
def quietNaN (bits : BitVec 23) : F32 :=
  bits.extractLsb' 22 1 ++ (0x1FF#9 ++ bits.extractLsb' 0 22)

/-- `m * 2^e` rounded to the nearest binary32 value, ties to even. The exponent of the last place is the larger of
what leaves 24 bits and -149, the least there is; a value too large becomes an infinity. -/
def roundF32 (neg : Bool) (m : Nat) (e : Int) : F32 :=
  if m = 0 then zeroF32 neg
  else
    let ulp : Int := max (e + (Nat.log2 m : Int) - 23) (-149)
    let mant : Nat :=
      if ulp ≤ e then m * 2 ^ (e - ulp).toNat
      else
        let cut := 2 ^ (ulp - e).toNat
        let q := m / cut
        let r := m % cut
        if cut < 2 * r ∨ (cut = 2 * r ∧ q % 2 = 1) then q + 1 else q
    let low := (ulp + 149).toNat * 2 ^ 23 + mant
    if 0x7F800000 ≤ low then infF32 neg else packF32 neg low

/-- The exact signed integer `(-1)^neg * m`. -/
def signedNat (neg : Bool) (m : Nat) : Int := if neg then -(m : Int) else (m : Int)

/-- Negation: the sign bit is flipped (R172: exact). -/
def negF32 (a : F32) : F32 := a ^^^ 0x80000000#32

/-- Binary32 addition. -/
def addF32 (a b : F32) : F32 :=
  match viewF32 a, viewF32 b with
  | .nan, _ => markNaN
  | _, .nan => markNaN
  | .inf x, .inf y => if x = y then infF32 x else markNaN
  | .inf x, .fin _ _ _ => infF32 x
  | .fin _ _ _, .inf y => infF32 y
  | .fin x m e, .fin y n f =>
    let g := min e f
    let sum := signedNat x (m * 2 ^ (e - g).toNat) + signedNat y (n * 2 ^ (f - g).toNat)
    if sum = 0 then zeroF32 (x && y) else roundF32 (decide (sum < 0)) sum.natAbs g

/-- Binary32 subtraction. -/
def subF32 (a b : F32) : F32 := addF32 a (negF32 b)

/-- Binary32 multiplication. -/
def mulF32 (a b : F32) : F32 :=
  match viewF32 a, viewF32 b with
  | .nan, _ => markNaN
  | _, .nan => markNaN
  | .inf x, .inf y => infF32 (x != y)
  | .inf x, .fin y n _ => if n = 0 then markNaN else infF32 (x != y)
  | .fin x m _, .inf y => if m = 0 then markNaN else infF32 (x != y)
  | .fin x m e, .fin y n f => roundF32 (x != y) (m * n) (e + f)

/-- Binary32 division. The dividend is scaled by `2^64`, so that a nonzero quotient keeps at least 40 bits, and one
more bit says whether a remainder is left: rounding the result rounds the exact quotient. -/
def divF32 (a b : F32) : F32 :=
  match viewF32 a, viewF32 b with
  | .nan, _ => markNaN
  | _, .nan => markNaN
  | .inf _, .inf _ => markNaN
  | .inf x, .fin y _ _ => infF32 (x != y)
  | .fin x _ _, .inf y => zeroF32 (x != y)
  | .fin x m e, .fin y n f =>
    if n = 0 then (if m = 0 then markNaN else infF32 (x != y))
    else
      let num := m * 2 ^ 64
      let q := 2 * (num / n) + (if num % n = 0 then 0 else 1)
      roundF32 (x != y) q (e - f - 65)

/-- `f32(n)`, exact for `n < 2^24` (R10). -/
def natF32 (n : Nat) : F32 := roundF32 false n 0

end Sys2Proof.Machine
end

