-- ==== Sys2Proof/Machine/Ops.lean ====
section
/-! DEFINITION. The named operations over the state: its parts, the sample memory (spec/20_memory.md R70, R71), the
FIFO pointers (R78), the calls to the outside (spec/00_scope.md R12), raising a fault on either side
(spec/60_exceptions.md R214, R219), and the synchronisers (spec/43_consumer.md R196, R197). There is no return from a
fault (R220), so no operation for one. -/

namespace Sys2Proof.Machine

/-! The parts of the state. -/

def State.setProd (s : State) (p : Producer) : State := { s with prod := p }
def State.setCons (s : State) (c : Consumer) : State := { s with cons := c }
def State.setMem (s : State) (m : Memory) : State := { s with mem := m }
def State.setWorld (s : State) (w : World) : State := { s with world := w }
def State.setOut (s : State) (t : Trace) : State := { s with out := t }

/-- PROD takes phase `p` (R55). -/
def State.setPhase (s : State) (p : Phase) : State := s.setProd { s.prod with phase := p }

/-- The sample path's registers take the values `x` (R34, R35, R41, R43, R44). -/
def State.setPath (s : State) (x : SamplePath) : State := s.setProd { s.prod with path := x }

/-- The stream command in flight becomes `f` (R252). -/
def State.setStream (s : State) (f : InFlight) : State := s.setProd { s.prod with stream := f }

/-! Banks: one value per filter stage (R43, R44). -/

def Bank.get {α : Type} (b : Bank α) : Stage → α
  | .s0 => b.s0
  | .s1 => b.s1
  | .s2 => b.s2

def Bank.set {α : Type} (b : Bank α) (i : Stage) (a : α) : Bank α :=
  match i with
  | .s0 => { b with s0 := a }
  | .s1 => { b with s1 := a }
  | .s2 => { b with s2 := a }

/-! The sample memory. -/

/-- What has been written to an entry since power-on; `none` where nothing has. This is what an unlisted entry reads
as (R52, R72; notes/assumptions/8.md). -/
def Memory.cell : Memory → Nat → Option Word
  | [], _ => none
  | (j, v) :: rest, i => if j = i then some v else Memory.cell rest i

/-- `M` with entry `i` holding `v`; the list stays in rising order with one element per entry. -/
def Memory.write : Memory → Nat → Word → Memory
  | [], i, v => [(i, v)]
  | (j, u) :: rest, i, v =>
    if i < j then (i, v) :: (j, u) :: rest
    else if i = j then (i, v) :: rest
    else (j, u) :: Memory.write rest i v

/-- Every index of the list is at least `lo`, and they rise strictly. -/
def Memory.risesFrom : Nat → Memory → Bool
  | _, [] => true
  | lo, (j, _) :: rest => decide (lo ≤ j) && Memory.risesFrom (j + 1) rest

/-- The canonical form: indices strictly rising. No element says what an unlisted entry reads as, because an unlisted
entry reads as nothing written. -/
def Memory.wf (m : Memory) : Bool := Memory.risesFrom 0 m

/-- `MemRead(i, 4)` (R70). An entry that no push has written since power-on holds an unspecified value (R52): a free
value. R72 says no run reads one. -/
def memRead (m : Memory) (i : Nat) : Word := (m.cell i).getD (Config.powerOnSample i)

/-! The FIFO pointers, all modulo `2*CAP` (R39, R48, R78). -/

/-- `(a - b) mod (2*CAP)`. -/
def ptrDist (cap a b : Nat) : Nat := (((a : Int) - (b : Int)) % ((2 * cap : Nat) : Int)).toNat

/-- `(p + 1) mod (2*CAP)`. -/
def ptrNext (cap p : Nat) : Nat := (p + 1) % (2 * cap)

/-- `count`, the samples actually in the FIFO (R78). -/
def State.count (s : State) : Nat := ptrDist s.params.cap s.prod.wrPtr s.cons.rdPtr

/-- `count_p`, the occupancy as the producer sees it (R78). -/
def State.countP (s : State) : Nat := ptrDist s.params.cap s.prod.wrPtr s.prod.rdSync

/-- `count_c`, the occupancy as the consumer sees it (R78). -/
def State.countC (s : State) : Nat := ptrDist s.params.cap s.cons.wrSync s.cons.rdPtr

/-- The FIFO contents from entry `RD_PTR mod CAP`, for `n` entries in FIFO order (R260). -/
def queueFrom (m : Memory) (cap rd : Nat) : Nat → List Word
  | 0 => []
  | n + 1 => memRead m (rd % cap) :: queueFrom m cap (ptrNext cap rd) n

/-- The samples in the FIFO, oldest first (R80, R260). -/
def State.queue (s : State) : List Word := queueFrom s.mem s.params.cap s.cons.rdPtr s.count

/-! The outside's answers. -/

/-- The next answer of a port: the next of its list, or a free value where the list is used up. -/
def nextReply {α : Type} (free : Nat → α) (items : List α) (n : Nat) : α × List α × Nat :=
  match items with
  | [] => (free n, [], n + 1)
  | a :: rest => (a, rest, n)

/-- The call `c` is added to the run's record (R260). -/
def State.logCall (s : State) (c : ExtCall) : State :=
  s.setOut { s.out with calls := s.out.calls ++ [c] }

/-- A stretch of a fair schedule (R20, R23, U4): any agents, then SYNC_W, then any agents, then SYNC_R. Every order of
the agents in which both synchronisers keep stepping is such stretches one after another, and nothing else is
(notes/assumptions/5.md). -/
def fairStretch (fresh : Nat) : List Agent :=
  Config.agentsBefore fresh ++ .syncW :: (Config.agentsBefore (fresh + 1) ++ [.syncR])

/-- The agent that steps next, the schedule after it, and the counter: where the schedule is used up, it goes on with
another fair stretch, of which the first agent steps. -/
def nextAgent : List Agent → Nat → Agent × List Agent × Nat
  | a :: rest, fresh => (a, rest, fresh)
  | [], fresh => ((fairStretch fresh).headD .syncW, (fairStretch fresh).tail, fresh + 2)

/-- Which agent steps next (R20). -/
def takeAgent (s : State) : Agent × State :=
  let r := nextAgent s.world.sched s.world.fresh
  (r.1, s.setWorld { s.world with sched := r.2.1, fresh := r.2.2 })

/-- What stands on the producer command port at this turn of PROD (R25). -/
def takeCmd (s : State) : Option Word × State :=
  let r := nextReply Config.offeredCmd s.world.cmds s.world.fresh
  (r.1, s.setWorld { s.world with cmds := r.2.1, fresh := r.2.2 })

/-- What stands on the consumer command port at this turn of CONS (R26). -/
def takeCcmd (s : State) : Option Word × State :=
  let r := nextReply Config.offeredCcmd s.world.ccmds s.world.fresh
  (r.1, s.setWorld { s.world with ccmds := r.2.1, fresh := r.2.2 })

/-- `ProcStep()` (R12). -/
def procStep (s : State) : ProcReply × State :=
  let r := nextReply Config.procReply s.world.proc s.world.fresh
  (r.1, (s.setWorld { s.world with proc := r.2.1, fresh := r.2.2 }).logCall (.procStep r.1))

/-- `ProcReset()` (R12). -/
def procReset (s : State) : State := s.logCall .procReset

/-- `PpuTick()` (R12). -/
def ppuTick (s : State) : Bool × State :=
  let r := nextReply Config.ppuFault s.world.ppuFaults s.world.fresh
  (r.1, (s.setWorld { s.world with ppuFaults := r.2.1, fresh := r.2.2 }).logCall (.ppuTick r.1))

/-- `MapperTick()` (R12). -/
def mapperTick (s : State) : Bool × State :=
  let r := nextReply Config.mapperFault s.world.mapperFaults s.world.fresh
  (r.1, (s.setWorld { s.world with mapperFaults := r.2.1, fresh := r.2.2 }).logCall (.mapperTick r.1))

/-- `ApuTick()` (R12). -/
def apuTick (s : State) : Bool × State :=
  let r := nextReply Config.apuFault s.world.apuFaults s.world.fresh
  (r.1, (s.setWorld { s.world with apuFaults := r.2.1, fresh := r.2.2 }).logCall (.apuTick r.1))

/-- The low `n` bits of the frame counter: `ppu_frame[FRAME_W-1:0]` (R24). -/
def lowBits (n : Nat) (v : BitVec 64) : BitVec 64 := BitVec.ofNat 64 (v.toNat % 2 ^ n)

/-- `PpuFrame()` (R12): a `FRAME_W`-bit value. -/
def ppuFrame (s : State) : BitVec 64 × State :=
  let r := nextReply Config.ppuFrame s.world.frames s.world.fresh
  let v := lowBits s.params.frameW r.1
  (v, (s.setWorld { s.world with frames := r.2.1, fresh := r.2.2 }).logCall (.ppuFrame v))

/-- `ApuOut()` (R12). -/
def apuOut (s : State) : F32 × State :=
  let r := nextReply Config.apuOut s.world.apuOuts s.world.fresh
  (r.1, (s.setWorld { s.world with apuOuts := r.2.1, fresh := r.2.2 }).logCall (.apuOut r.1))

/-- `BtnWrite(p, b)` (R12). -/
def btnWrite (s : State) (p : Player) (b : BitVec 8) : State := s.logCall (.btnWrite p b)

/-- `st_out_ready`: whether the sink is ready for the byte held out to it (R28). -/
def sinkReady (s : State) : Bool × State :=
  let r := nextReply Config.sinkReady s.world.sinkReady s.world.fresh
  (r.1, s.setWorld { s.world with sinkReady := r.2.1, fresh := r.2.2 })

/-- `SinkPut(byte)` (R12, R28): the byte has moved to the sink. -/
def sinkPut (s : State) (b : Byte) : State := s.setOut { s.out with sink := s.out.sink ++ [b] }

/-- `EmitFrame(v, n)` (R12, R29). -/
def emitFrame (s : State) (v : F32) (n : BitVec 8) : State :=
  s.setOut { s.out with frames := s.out.frames ++ [⟨v, n⟩] }

/-- `SourceGet()` (R12, R28): what the source gives when it is asked once. A byte moves and is gone from the source,
`EOS` is a level and stays, and silence is no reply yet (R252; notes/assumptions/7.md). -/
def sourceGet (s : State) : SourceItem × State :=
  let r := nextReply Config.sourceItem s.world.source s.world.fresh
  match r.1 with
  | .byte b =>
    (.byte b, (s.setWorld { s.world with source := r.2.1, fresh := r.2.2 }).logCall (.sourceGet (some b)))
  | .eos =>
    (.eos, (s.setWorld { s.world with source := .eos :: r.2.1, fresh := r.2.2 }).logCall (.sourceGet none))
  | .silent => (.silent, s.setWorld { s.world with source := r.2.1, fresh := r.2.2 })

/-! Faults. -/

/-- The producer fault codes (R210). -/
inductive FaultCode where
  | illegalCmd
  | badConfig
  | zeroTick
  | subsystemFault
  | restoreTruncated
  | restoreMalformed
deriving DecidableEq, Repr

/-- ERROR.CODE of a producer fault (R210). -/
def FaultCode.code : FaultCode → BitVec 8
  | .illegalCmd => 0x01#8
  | .badConfig => 0x02#8
  | .zeroTick => 0x03#8
  | .subsystemFault => 0x04#8
  | .restoreTruncated => 0x05#8
  | .restoreMalformed => 0x06#8

/-- The consumer fault codes (R211). -/
inductive CFaultCode where
  | illegalCmd
  | badConfig
  | unconfigured
deriving DecidableEq, Repr

/-- CERROR of a consumer fault (R211). -/
def CFaultCode.code : CFaultCode → BitVec 8
  | .illegalCmd => 0x01#8
  | .badConfig => 0x02#8
  | .unconfigured => 0x03#8

/-- ERROR as R214 lays it out: `{zext_21(0), unit[2:0], code[7:0]}`. -/
def errorWord (c : FaultCode) (unit : BitVec 3) : Word := 0#21 ++ (unit ++ c.code)

/-- `raise Fault(code, unit)`, a producer fault (R214): ERROR is written and PROD halts. Nothing else changes: what the
command did before stays done, and no control goes anywhere (R218). -/
def raiseFault (s : State) (c : FaultCode) (unit : BitVec 3) : State :=
  s.setProd { s.prod with error := errorWord c unit, phase := .halt }

/-- `raise CFault(code)`, a consumer fault (R219): the first code is kept, the flag is set, CONS goes on. -/
def raiseCFault (s : State) (c : CFaultCode) : State :=
  s.setCons { s.cons with
    cerror := if s.cons.cerror = 0#32 then c.code.setWidth 32 else s.cons.cerror
    cfault := true }

/-! The synchronisers. -/

/-- The one step of SYNC_W: `WR_SYNC <- WR_PTR` (R196). -/
def syncW (s : State) : State := s.setCons { s.cons with wrSync := s.prod.wrPtr }

/-- The one step of SYNC_R: `RD_SYNC <- RD_PTR` (R197). -/
def syncR (s : State) : State := s.setProd { s.prod with rdSync := s.cons.rdPtr }

/-- One thing after another: the second where the first answers a next state. -/
def andThen (o : Host.Outcome State Fault Refusal) (f : State → Host.Outcome State Fault Refusal) :
    Host.Outcome State Fault Refusal :=
  match o with
  | .next s => f s
  | .fault r => .fault r
  | .refused r => .refused r

end Sys2Proof.Machine
end

