-- ==== Sys2Proof/Machine/Filter.lean ====
section
/-! DEFINITION. The filter chain of the sample path (spec/42_sample_path.md R168, R171 to R175): the design of a
stage's coefficients, the arithmetic of one stage, and the three stages in order. -/

namespace Sys2Proof.Machine

/-- A computed value, or the quiet NaN of the given free bits where the computation gives a NaN (R175). -/
def orQuietNaN (v : F32) (bits : BitVec 23) : F32 := if isNaN v then quietNaN bits else v

/-- The binary32 value nearest pi (R172). -/
def piF32 : F32 := 0x40490FDB#32

/-- `1.0`. -/
def oneF32 : F32 := 0x3F800000#32

/-- The default `FilterDesign` (R172): the first-order bilinear design, each operation rounded to nearest even.
PRESUMED: general knowledge, as the spec says (93_implementation_defined.md G5; notes/assumptions/2.md). -/
def bilinearDesign (rate : BitVec 24) (fc : F32) (kind : FilterKind) : Coef :=
  let r := natF32 rate.toNat
  let c := divF32 (divF32 r piF32) fc
  let a := divF32 oneF32 (addF32 oneF32 c)
  let a1 := mulF32 (subF32 oneF32 c) a
  let nan := Config.designNanBits rate fc kind
  let ca := mulF32 c a
  match kind with
  | .hp => ⟨orQuietNaN ca (nan 0), orQuietNaN (negF32 ca) (nan 1), orQuietNaN a1 (nan 2)⟩
  | .lp => ⟨orQuietNaN a (nan 0), orQuietNaN a (nan 0), orQuietNaN a1 (nan 2)⟩

/-- `FilterDesign(R, fc, kind)` of an instance (R7, R171). -/
def filterDesign (d : DesignChoice) (rate : BitVec 24) (fc : F32) (kind : FilterKind) : Coef :=
  match d with
  | .bilinear => bilinearDesign rate fc kind
  | .other n => Config.otherDesign n rate fc kind

/-- The nine coefficients CONFIG loads (R160): stages 0 and 1 high-pass, stage 2 low-pass. -/
def designAll (p : Params) (rate : BitVec 24) : Bank Coef where
  s0 := filterDesign p.design rate p.fc0 .hp
  s1 := filterDesign p.design rate p.fc1 .hp
  s2 := filterDesign p.design rate p.fc2 .lp

/-- The default `StageArith` (R174): left to right, each operation rounded once, unfused. -/
def unfusedArith (b0 b1 a1 x x1 y1 : F32) : F32 :=
  let t1 := mulF32 b0 x
  let t2 := mulF32 b1 x1
  let t3 := addF32 t1 t2
  let t4 := mulF32 a1 y1
  subF32 t3 t4

/-- The value `StageArith` of an instance computes, its NaN results not yet drawn (R7, R173). -/
def stageValue (a : ArithChoice) (c : Coef) (st : StageState) (x : F32) : F32 :=
  match a with
  | .unfused => unfusedArith c.b0 c.b1 c.a1 x st.x1 st.y1
  | .other n => Config.otherArith n c.b0 c.b1 c.a1 x st.x1 st.y1

/-- Whether a stage's value is a NaN that `NaNOf` draws: a NaN result of the default arithmetic (R175). Another
`StageArith` is a function of its operands alone (R7), whatever bits it answers. -/
def drawsNaN (a : ArithChoice) (v : F32) : Bool := decide (a = .unfused) && isNaN v

/-- `StageArith` (R173, R175): a NaN result is a fresh draw of `NaNOf`, a quiet NaN whose sign and payload are free. -/
def stageArith (s : State) (c : Coef) (st : StageState) (x : F32) : F32 × State :=
  if drawsNaN s.params.arith (stageValue s.params.arith c st x) then
    (quietNaN (Config.nanBits s.world.fresh), s.setWorld { s.world with fresh := s.world.fresh + 1 })
  else (stageValue s.params.arith c st x, s)

/-- `Stage(s, x)`, one step of filter stage `i` (R173): compute `y`, then record `x` and `y`. -/
def stageStep (i : Stage) (x : F32) (s : State) : F32 × State :=
  let r := stageArith s (s.prod.path.coef.get i) (s.prod.path.fstate.get i) x
  (r.1, r.2.setPath { r.2.prod.path with fstate := r.2.prod.path.fstate.set i ⟨x, r.1⟩ })

/-- `Chain(x)`: stages 0, 1 and 2 in that order, each stage's output the next one's input (R168). -/
def chain (x : F32) (s : State) : F32 × State :=
  let v0 := stageStep .s0 x s
  let v1 := stageStep .s1 v0.1 v0.2
  stageStep .s2 v1.1 v1.2

end Sys2Proof.Machine
end

