-- ==== Sys2Proof/Machine/Operands.lean ====
section
/-! DEFINITION. What the operands of the commands stand for and which values an operation admits
(spec/30_encoding.md R92, R98), and the constraints on an instance's parameters (spec/00_scope.md R7). -/

namespace Sys2Proof.Machine

/-- A cutoff is a binary32 pattern that is finite and above zero (R7). -/
def cutoffLegal (fc : F32) : Bool :=
  decide (0 < fc.toNat) && decide (fc.toNat < 0x7F800000)

/-- The constraints of R7. A model refuses an instance that does not meet them. DESIGN CHOICE: the words "low cutoff"
and "high cutoff" of R7 are read as names and as no order among `FC0`, `FC1` and `FC2` (notes/assumptions/25.md). -/
def paramsValid (p : Params) : Bool :=
  decide (1 ≤ p.fcpu) && decide (p.fcpu < 2 ^ 31) &&
  decide (1 ≤ p.cap) && decide (p.cap ≤ 2 ^ 30) &&
  decide (1 ≤ p.frameW) && decide (p.frameW ≤ 64) &&
  cutoffLegal p.fc0 && cutoffLegal p.fc1 && cutoffLegal p.fc2

/-- CONFIG admits `1 <= R <= F_CPU` (R98, R160). -/
def rateLegal (fcpu : Nat) (rate : BitVec 24) : Bool :=
  decide (1 ≤ rate.toNat) && decide (rate.toNat ≤ fcpu)

/-- SETCH admits `1 .. 255` (R98, R192). -/
def channelsLegal (n : BitVec 8) : Bool := decide (n ≠ 0#8)

/-- The tick budget of STEPSEC: `floor(F_CPU * us / 1000000)`, exact integer arithmetic (R122). -/
def tickBudget (fcpu : Nat) (us : BitVec 24) : Nat := fcpu * us.toNat / 1000000

/-- `PTR_W`, the width of a FIFO pointer: the least `w` with `2*CAP <= 2^w` (R7). -/
def ptrWidth (cap : Nat) : Nat :=
  ((List.range 33).find? (fun w => decide (2 * cap ≤ 2 ^ w))).getD 32

end Sys2Proof.Machine
end

