-- ==== Sys2Proof/Machine/Flags.lean ====
section
/-! DEFINITION. The flags and status views (spec/10_state.md R31, R45, R58: there are no others), the handshake
signals (R25, R26, R28), and the two register read maps (R27, R53, R54). All are functions of the state: a read
changes nothing. -/

namespace Sys2Proof.Machine

/-- BUSY: phase is one of CPU, VID, AUD, END (R31). -/
def busy (s : State) : Bool :=
  match s.prod.phase with
  | .cpu | .vid | .aud | .stepEnd => true
  | .idle | .halt => false

/-- FAULT: phase is HALT (R31). -/
def halted (s : State) : Bool := decide (s.prod.phase = .halt)

/-- VEMPTY: the consumer's view of the FIFO is empty, `RD_PTR = WR_SYNC` (R45). -/
def vempty (s : State) : Bool := decide (s.cons.rdPtr = s.cons.wrSync)

/-- One flag in bit 0 of a word. -/
def flagWord (b : Bool) : Word := if b then 1#32 else 0#32

/-- STATUS: BUSY, FAULT, CFG_VALID, ATTACHED in bits 0 to 3 (R31). -/
def statusWord (s : State) : Word :=
  flagWord (busy s) ||| (flagWord (halted s) <<< 1) ||| (flagWord s.prod.path.cfgValid <<< 2) |||
    (flagWord s.prod.attached <<< 3)

/-- CSTATUS: CFAULT, VEMPTY in bits 0 and 1 (R45). -/
def cstatusWord (s : State) : Word := flagWord s.cons.cfault ||| (flagWord (vempty s) <<< 1)

/-- PROD can take and run a command: it is IDLE and no stream command is in flight (R110, R252). -/
def accepting (s : State) : Bool :=
  decide (s.prod.phase = .idle) && decide (s.prod.stream = .none)

/-- `cmd_ready`: PROD's phase is IDLE or HALT (R25), and no SNAPSHOT or RESTORE waits for its host (R252). -/
def cmdReady (s : State) : Bool :=
  accepting s || (halted s && decide (s.prod.stream = .none))

/-- `ccmd_ready` is always 1 (R26). -/
def ccmdReady (_ : State) : Bool := true

/-- `st_out_byte` (R28): the byte a SNAPSHOT holds out to the sink, the next one of its record (R141); `none` where it
holds none out and the spec gives the signal no value. -/
def stOutByte (s : State) : Option Byte :=
  match s.prod.stream with
  | .snapshot left => left.head?
  | .none | .restore _ => none

/-- `st_out_valid`: a SNAPSHOT holds a byte out to the sink (R28, R252). -/
def stOutValid (s : State) : Bool := (stOutByte s).isSome

/-- `st_in_ready`: a RESTORE asks the source for a byte (R28, R252). -/
def stInReady (s : State) : Bool :=
  match s.prod.stream with
  | .restore _ => true
  | .none | .snapshot _ => false

/-- A FIFO pointer on a read port: `PTR_W` bits, zero-extended (R39, R40, R48, R49). -/
def ptrWord (s : State) (p : Nat) : Word := BitVec.ofNat 32 (p % 2 ^ ptrWidth s.params.cap)

/-- The coefficient register of stage `i`, `j` = 0 (`B0`), 1 (`B1`), 2 (`A1`) (R43). -/
def coefReg (s : State) (i : Stage) (j : Nat) : Word :=
  let c := s.prod.path.coef.get i
  match j with
  | 0 => c.b0
  | 1 => c.b1
  | _ => c.a1

/-- A read of the producer read map (R53). Every address it does not list reads zero. -/
def prodRead (s : State) (addr : BitVec 8) : Word :=
  match addr.toNat with
  | 0x00 => statusWord s
  | 0x01 => s.prod.error
  | 0x02 => BitVec.ofNat 32 s.params.fcpu
  | 0x03 => BitVec.ofNat 32 s.params.cap
  | 0x04 => s.prod.path.rate.setWidth 32
  | 0x05 => s.prod.path.acc
  | 0x06 => s.prod.lastC.setWidth 32
  | 0x07 => s.prod.total.extractLsb' 0 32
  | 0x08 => s.prod.total.extractLsb' 32 32
  | 0x09 => s.prod.budget.extractLsb' 0 32
  | 0x0A => s.prod.budget.extractLsb' 32 32
  | 0x0B => ptrWord s s.prod.wrPtr
  | 0x0C => ptrWord s s.prod.rdSync
  | 0x10 => coefReg s .s0 0
  | 0x11 => coefReg s .s0 1
  | 0x12 => coefReg s .s0 2
  | 0x13 => coefReg s .s1 0
  | 0x14 => coefReg s .s1 1
  | 0x15 => coefReg s .s1 2
  | 0x16 => coefReg s .s2 0
  | 0x17 => coefReg s .s2 1
  | 0x18 => coefReg s .s2 2
  | 0x20 => s.prod.path.fstate.s0.x1
  | 0x21 => s.prod.path.fstate.s0.y1
  | 0x22 => s.prod.path.fstate.s1.x1
  | 0x23 => s.prod.path.fstate.s1.y1
  | 0x24 => s.prod.path.fstate.s2.x1
  | 0x25 => s.prod.path.fstate.s2.y1
  | _ => 0#32

/-- A read of the consumer read map (R54). Every address it does not list reads zero. -/
def consRead (s : State) (addr : BitVec 8) : Word :=
  match addr.toNat with
  | 0x00 => cstatusWord s
  | 0x01 => s.cons.cerror
  | 0x02 => s.cons.channels.setWidth 32
  | 0x03 => ptrWord s s.cons.rdPtr
  | 0x04 => ptrWord s s.cons.wrSync
  | 0x05 => s.cons.outSample
  | _ => 0#32

end Sys2Proof.Machine
end

