-- ==== Sys2Proof/Machine/Audio.lean ====
section
/-! DEFINITION. The sample path (spec/42_sample_path.md): CONFIG, DISABLE, ATTACH, DETACH (R160 to R163), the audio
tick with its divider (R165, R166), and the push into the FIFO (R169). -/

namespace Sys2Proof.Machine

/-- Run a producer command. PROD takes a command only in IDLE with no stream command in flight (R110, R252); in HALT
the word is accepted and nothing happens (R111), and while PROD is busy the port is not ready, so the word is held
and nothing happens (R25). -/
def onAccept (s : State) (f : State → State) : Host.Outcome State Fault Refusal :=
  if accepting s then .next (f s) else .next s

/-- X1 and Y1 of every stage cleared to `+0.0` (R160, R161). -/
def clearedFilters : Bank StageState := .all StageState.zero

/-- CONFIG's own rule (R160): an illegal rate raises BAD_CONFIG and nothing else happens; a legal one is loaded with
its coefficients, and the divider and the filters start afresh. -/
def configure (rate : BitVec 24) (s : State) : State :=
  if rateLegal s.params.fcpu rate then
    s.setPath
      { cfgValid := true, rate := rate, acc := 0#32, coef := designAll s.params rate, fstate := clearedFilters }
  else raiseFault s .badConfig 0#3

/-- CONFIG `R` (R160). -/
def execConfig (rate : BitVec 24) (s : State) : Host.Outcome State Fault Refusal :=
  onAccept s (configure rate)

/-- DISABLE (R161): RATE and COEF keep their values. -/
def execDisable (s : State) : Host.Outcome State Fault Refusal :=
  onAccept s fun s =>
    s.setPath { s.prod.path with cfgValid := false, acc := 0#32, fstate := clearedFilters }

/-- ATTACH (R162). -/
def execAttach (s : State) : Host.Outcome State Fault Refusal :=
  onAccept s fun s => s.setProd { s.prod with attached := true }

/-- DETACH (R163). -/
def execDetach (s : State) : Host.Outcome State Fault Refusal :=
  onAccept s fun s => s.setProd { s.prod with attached := false }

/-- `Push(y)` (R169): dropped without a trace where the producer's view is full, else written to entry
`WR_PTR mod CAP`, and WR_PTR moves on. -/
def push (s : State) (y : F32) : State :=
  if s.countP = s.params.cap then s
  else
    (s.setMem (s.mem.write (s.prod.wrPtr % s.params.cap) y)).setProd
      { s.prod with wrPtr := ptrNext s.params.cap s.prod.wrPtr }

/-- What happens when the divider fires (R165): the audio unit's output passes the chain and, if attached, enters the
FIFO. -/
def emitSample (s : State) : State :=
  let x := apuOut s
  let y := chain x.1 x.2
  if y.2.prod.attached then push y.2 y.1 else y.2

/-- ACC takes the value `a`. -/
def setAcc (s : State) (a : Nat) : State :=
  s.setPath { s.prod.path with acc := BitVec.ofNat 32 a }

/-- `SamplePath()`, the block's part of one audio tick (R165). -/
def samplePath (s : State) : Host.Outcome State Fault Refusal :=
  if s.prod.path.cfgValid then
    let a := s.prod.path.acc.toNat + s.prod.path.rate.toNat
    if 2 ^ 32 ≤ a then .fault .registerRange
    else if s.params.fcpu ≤ a then .next (emitSample (setAcc s (a - s.params.fcpu)))
    else .next (setAcc s a)
  else .next s

end Sys2Proof.Machine
end

