-- ==== Sys2Proof/Machine/Codec.lean ====
section
/-! DEFINITION. The bridge record and the commands that write and read it (spec/41_state_codec.md): SNAPSHOT (R141),
RESTORE (R142 to R145), and what PROD does while one of them waits for its host
(spec/70_reset_and_hazards.md R252). -/

namespace Sys2Proof.Machine

/-- A 32-bit field, least significant byte first (R140). -/
def le32 (w : Word) : List Byte :=
  [w.extractLsb' 0 8, w.extractLsb' 8 8, w.extractLsb' 16 8, w.extractLsb' 24 8]

/-- Byte `i` of a record. -/
def byteAt (rec : List Byte) (i : Nat) : Byte := rec.getD i 0#8

/-- The 32-bit field at offset `i`, least significant byte first (R140). -/
def fieldAt (rec : List Byte) (i : Nat) : Word :=
  byteAt rec (i + 3) ++ (byteAt rec (i + 2) ++ (byteAt rec (i + 1) ++ byteAt rec i))

/-- The bytes of one stage's coefficients (R140). -/
def coefBytes (c : Coef) : List Byte := le32 c.b0 ++ le32 c.b1 ++ le32 c.a1

/-- The bytes of one stage's state, X1 then Y1 (R140). -/
def fstateBytes (st : StageState) : List Byte := le32 st.x1 ++ le32 st.y1

/-- The bridge record of R140: 71 bytes. -/
def bridgeRecord (x : SamplePath) : List Byte :=
  [0x01#8, if x.cfgValid then 0x01#8 else 0x00#8] ++ le32 (x.rate.setWidth 32) ++ le32 x.acc ++
    coefBytes x.coef.s0 ++ coefBytes x.coef.s1 ++ coefBytes x.coef.s2 ++
    fstateBytes x.fstate.s0 ++ fstateBytes x.fstate.s1 ++ fstateBytes x.fstate.s2 ++ [0x01#8]

/-- The coefficients of stage number `n` in a record: offsets `10 + 4*(3*n + j)` (R140). -/
def coefAt (rec : List Byte) (n : Nat) : Coef :=
  ⟨fieldAt rec (10 + 4 * (3 * n)), fieldAt rec (10 + 4 * (3 * n + 1)), fieldAt rec (10 + 4 * (3 * n + 2))⟩

/-- The state of stage number `n` in a record: offsets `46 + 8*n` and `50 + 8*n` (R140). -/
def fstateAt (rec : List Byte) (n : Nat) : StageState :=
  ⟨fieldAt rec (46 + 8 * n), fieldAt rec (50 + 8 * n)⟩

/-- The registers a record gives (R143). -/
def recordPath (rec : List Byte) : SamplePath where
  cfgValid := decide (byteAt rec 1 = 0x01#8)
  rate := (fieldAt rec 2).setWidth 24
  acc := fieldAt rec 6
  coef := ⟨coefAt rec 0, coefAt rec 1, coefAt rec 2⟩
  fstate := ⟨fstateAt rec 0, fstateAt rec 1, fstateAt rec 2⟩

/-- `Valid(rec)` (R144). The binary32 fields are not checked. -/
def recordValid (fcpu : Nat) (rec : List Byte) : Bool :=
  decide (byteAt rec 0 = 0x01#8) &&
  (decide (byteAt rec 1 = 0x00#8) || decide (byteAt rec 1 = 0x01#8)) &&
  decide ((fieldAt rec 2).toNat < 2 ^ 24) &&
  decide ((fieldAt rec 6).toNat < fcpu) &&
  (!decide (byteAt rec 1 = 0x01#8) ||
    (decide (1 ≤ (fieldAt rec 2).toNat) && decide ((fieldAt rec 2).toNat ≤ fcpu)))

/-- What a failed RESTORE leaves in the fields it may have touched (R145): a free value each. -/
def failedPath (n : Nat) : SamplePath where
  cfgValid := Config.failedCfgValid n
  rate := Config.failedRate n
  acc := Config.failedAcc n
  coef :=
    ⟨⟨Config.failedFloat n 0, Config.failedFloat n 1, Config.failedFloat n 2⟩,
      ⟨Config.failedFloat n 3, Config.failedFloat n 4, Config.failedFloat n 5⟩,
      ⟨Config.failedFloat n 6, Config.failedFloat n 7, Config.failedFloat n 8⟩⟩
  fstate :=
    ⟨⟨Config.failedFloat n 9, Config.failedFloat n 10⟩, ⟨Config.failedFloat n 11, Config.failedFloat n 12⟩,
      ⟨Config.failedFloat n 13, Config.failedFloat n 14⟩⟩

/-- A failed RESTORE (R145): the record's fields are left unspecified, then the fault is raised. -/
def failRestore (s : State) (c : FaultCode) : State :=
  raiseFault
    ((s.setPath (failedPath s.world.fresh)).setWorld { s.world with fresh := s.world.fresh + 1 }) c 0#3

/-- SNAPSHOT's loop of `SinkPut` from the bytes `left` on (R141). Each byte in turn is held out, which makes
`st_out_valid` 1 and `st_out_byte` that byte, and moves where `st_out_ready` is 1 too (R28). A sink that is not ready
leaves the byte held out and the command in progress (R252); after the last byte the command is done. -/
def sendBytes : List Byte → State → State
  | [], s => (s.setStream .none).setPhase .idle
  | b :: left, s =>
    let r := sinkReady (s.setStream (.snapshot (b :: left)))
    if r.1 then sendBytes left (sinkPut r.2 b) else r.2

/-- What RESTORE does with 71 bytes (R142): the sentinel is tested first, then `Valid`, then the commit (R143). -/
def finishRestore (s : State) (rec : List Byte) : State :=
  if byteAt rec 70 ≠ 0x01#8 then failRestore s .restoreTruncated
  else if recordValid s.params.fcpu rec then (s.setPath (recordPath rec)).setPhase .idle
  else failRestore s .restoreMalformed

/-- RESTORE's loop of `SourceGet`, with the bytes `got` and `n` more to ask for (R142). While it asks, `st_in_ready` is
1, and a byte the source gives moves (R28). A source that gives neither a byte nor `EOS` leaves the command in
progress (R252). -/
def readBytes : Nat → List Byte → State → State
  | 0, got, s => finishRestore (s.setStream .none) got
  | n + 1, got, s =>
    let g := sourceGet (s.setStream (.restore got))
    match g.1 with
    | .byte b => readBytes n (got ++ [b]) g.2
    | .eos => failRestore (g.2.setStream .none) .restoreTruncated
    | .silent => g.2

/-- SNAPSHOT (R141): one step where the sink takes all 71 bytes. -/
def execSnapshot (s : State) : Host.Outcome State Fault Refusal :=
  onAccept s fun s => sendBytes (bridgeRecord s.prod.path) s

/-- RESTORE (R142): one step where the source gives 71 bytes or ends. -/
def execRestore (s : State) : Host.Outcome State Fault Refusal := onAccept s (readBytes 71 [])

end Sys2Proof.Machine
end

