-- ==== Sys2Proof/Machine/Playback.lean ====
section
/-! DEFINITION. The consumer side (spec/43_consumer.md): FRAME, FLUSH and SETCH (R190 to R192). Each completes in one
CONS step whatever the producer does (R26, R193). -/

namespace Sys2Proof.Machine

/-- FRAME with channels configured (R190): silence where the consumer sees no sample, else the sample of entry
`RD_PTR mod CAP`, which is popped. -/
def playFrame (s : State) : State :=
  if s.cons.rdPtr = s.cons.wrSync then
    emitFrame (s.setCons { s.cons with outSample := silence }) silence s.cons.channels
  else
    let v := memRead s.mem (s.cons.rdPtr % s.params.cap)
    emitFrame
      (s.setCons { s.cons with rdPtr := ptrNext s.params.cap s.cons.rdPtr, outSample := v }) v s.cons.channels

/-- FRAME (R190). Without a channel count it raises C_UNCONFIGURED, pops nothing and emits an empty frame. -/
def execFrame (s : State) : Host.Outcome State Fault Refusal :=
  if s.cons.channels = 0#8 then .next (emitFrame (raiseCFault s .unconfigured) silence 0#8)
  else .next (playFrame s)

/-- FLUSH (R191): `RD_PTR <- WR_SYNC`. -/
def execFlush (s : State) : Host.Outcome State Fault Refusal :=
  .next (s.setCons { s.cons with rdPtr := s.cons.wrSync })

/-- SETCH `n` (R192). -/
def execSetch (n : BitVec 8) (s : State) : Host.Outcome State Fault Refusal :=
  if channelsLegal n then .next (s.setCons { s.cons with channels := n })
  else .next (raiseCFault s .badConfig)

/-- The samples of one output frame: its value in each of its channels (R29, R194). -/
def frameSamples (f : Frame) : List F32 := List.replicate f.channels.toNat f.value

/-- An interleaved buffer of frames, in order (R194). -/
def interleave : List Frame → List F32
  | [] => []
  | f :: rest => frameSamples f ++ interleave rest

end Sys2Proof.Machine
end

