-- ==== Sys2Proof/Machine/Stepper.lean ====
section
/-! DEFINITION. The clock-ratio stepper (spec/40_stepper.md): STEP, STEPFRAME, STEPSEC, RESET, SETBTN (R112, R120,
R122, R125, R126) and the phases CPU, VID, AUD and END (R113 to R116, R121, R123). -/

namespace Sys2Proof.Machine

/-- STEP (R112): what it does at acceptance; the phases follow in later PROD steps. -/
def execStep (s : State) : Host.Outcome State Fault Refusal :=
  onAccept s fun s => s.setProd { s.prod with mode := .single, phase := .cpu }

/-- STEPFRAME (R120): the frame counter is sampled once, before the first step. -/
def execStepframe (s : State) : Host.Outcome State Fault Refusal :=
  onAccept s fun s =>
    let f := ppuFrame s
    f.2.setProd { f.2.prod with mode := .frame, frame0 := f.1, total := 0#64, phase := .cpu }

/-- STEPSEC `us` (R122): a budget of zero runs no step. -/
def execStepsec (us : BitVec 24) (s : State) : Host.Outcome State Fault Refusal :=
  onAccept s fun s =>
    let b := tickBudget s.params.fcpu us
    s.setProd
      { s.prod with
        mode := .seconds
        budget := BitVec.ofNat 64 b
        phase := if 0 < b then .cpu else .idle }

/-- RESET, the warm reset (R125): one `ProcReset()` and no register changed. -/
def execReset (s : State) : Host.Outcome State Fault Refusal :=
  onAccept s fun s => (procReset s).setPhase .idle

/-- SETBTN `p, b` (R126). -/
def execSetbtn (p : Player) (b : BitVec 8) (s : State) : Host.Outcome State Fault Refusal :=
  onAccept s fun s => (btnWrite s p b).setPhase .idle

/-- The CPU phase (R113). The processor's fault is tested before `c`. `k <- PPU_RATIO * c`. -/
def cpuPhase (s : State) : Host.Outcome State Fault Refusal :=
  let r := procStep s
  if r.1.fault then .next (raiseFault r.2 .subsystemFault 0#3)
  else if r.1.c = 0#8 then .next (raiseFault r.2 .zeroTick 0#3)
  else
    .next (r.2.setProd
      { r.2.prod with curC := r.1.c, k := BitVec.ofNat 10 (3 * r.1.c.toNat), phase := .vid })

/-- The VID phase, one picture-unit and mapper pair (R114). When the pairs are done, `k <- APU_RATIO * c`. -/
def vidPhase (s : State) : Host.Outcome State Fault Refusal :=
  if s.prod.k = 0#10 then .fault .registerRange
  else
    let p := ppuTick s
    if p.1 then .next (raiseFault p.2 .subsystemFault 1#3)
    else
      let m := mapperTick p.2
      if m.1 then .next (raiseFault m.2 .subsystemFault 2#3)
      else if m.2.prod.k - 1#10 = 0#10 then
        .next (m.2.setProd { m.2.prod with k := m.2.prod.curC.setWidth 10, phase := .aud })
      else .next (m.2.setProd { m.2.prod with k := m.2.prod.k - 1#10 })

/-- The end of an audio tick (R115): one tick fewer is left, and END follows the last. -/
def countTick (s : State) : State :=
  s.setProd
    { s.prod with
      k := s.prod.k - 1#10
      phase := if s.prod.k - 1#10 = 0#10 then .stepEnd else s.prod.phase }

/-- The AUD phase, one audio tick (R115). A fault of the audio unit stops the tick before its sample path runs. -/
def audPhase (s : State) : Host.Outcome State Fault Refusal :=
  if s.prod.k = 0#10 then .fault .registerRange
  else
    let a := apuTick s
    if a.1 then .next (raiseFault a.2 .subsystemFault 3#3)
    else andThen (samplePath a.2) fun t => .next (countTick t)

/-- STEPFRAME at END (R121): the whole value of the frame counter is compared, after the step's ticks are counted. -/
def frameEnd (s : State) : State :=
  let t := s.setProd { s.prod with total := s.prod.total + s.prod.curC.setWidth 64 }
  let f := ppuFrame t
  f.2.setPhase (if f.1 = f.2.prod.frame0 then .cpu else .idle)

/-- STEPSEC at END (R123): the budget is an exact integer and may end negative. -/
def secondsEnd (s : State) : Host.Outcome State Fault Refusal :=
  let b : Int := s.prod.budget.toInt - s.prod.curC.toNat
  if b < -2 ^ 63 then .fault .registerRange
  else
    .next (s.setProd
      { s.prod with budget := BitVec.ofInt 64 b, phase := if 0 < b then .cpu else .idle })

/-- The END phase (R116, R121, R123). -/
def endPhase (s : State) : Host.Outcome State Fault Refusal :=
  let t := s.setProd { s.prod with lastC := s.prod.curC }
  match t.prod.mode with
  | .single => .next (t.setPhase .idle)
  | .frame => .next (frameEnd t)
  | .seconds => secondsEnd t

end Sys2Proof.Machine
end

