-- ==== Sys2Proof/Machine/Dispatch.lean ====
section
/-! DEFINITION. One arm per command of the opcode table (spec/30_encoding.md R93, R94). -/

namespace Sys2Proof.Machine

def exec (i : Instr) (s : State) : Host.Outcome State Fault Refusal :=
  match i with
  | .step => Sys2Proof.Machine.execStep s
  | .stepframe => Sys2Proof.Machine.execStepframe s
  | .stepsec us => Sys2Proof.Machine.execStepsec us s
  | .reset => Sys2Proof.Machine.execReset s
  | .setbtn p b => Sys2Proof.Machine.execSetbtn p b s
  | .config rate => Sys2Proof.Machine.execConfig rate s
  | .disable => Sys2Proof.Machine.execDisable s
  | .attach => Sys2Proof.Machine.execAttach s
  | .detach => Sys2Proof.Machine.execDetach s
  | .snapshot => Sys2Proof.Machine.execSnapshot s
  | .restore => Sys2Proof.Machine.execRestore s
  | .frame => Sys2Proof.Machine.execFrame s
  | .flush => Sys2Proof.Machine.execFlush s
  | .setch n => Sys2Proof.Machine.execSetch n s

end Sys2Proof.Machine
end

