-- ==== Sys2Proof/Machine/Turn.lean ====
section
/-! DEFINITION. One turn of each agent (spec/10_state.md R20 to R23): how PROD and CONS take a word from their command
port and decode it (spec/40_stepper.md R110, R111, spec/43_consumer.md R193), and which step PROD takes in each phase.
A turn of an agent that has no enabled step leaves the block as it is. -/

namespace Sys2Proof.Machine

/-- What PROD does with an accepted word in IDLE (R110): an illegal word raises ILLEGAL_CMD and has no other effect
(R96); a legal one runs its rule. -/
def runProducerWord (w : Word) (s : State) : Host.Outcome State Fault Refusal :=
  match decode .producer w with
  | none => .next (raiseFault s .illegalCmd 0#3)
  | some i => exec i s

/-- What CONS does with a word (R193): an illegal word raises C_ILLEGAL_CMD and has no other effect (R96). -/
def runConsumerWord (w : Word) (s : State) : Host.Outcome State Fault Refusal :=
  match decode .consumer w with
  | none => .next (raiseCFault s .illegalCmd)
  | some i => exec i s

/-- PROD waiting for a command in IDLE (R110). Where nothing is offered it has no step. -/
def idleTurn (s : State) : Host.Outcome State Fault Refusal :=
  let c := takeCmd s
  match c.1 with
  | none => .next c.2
  | some w => runProducerWord w c.2

/-- PROD in HALT (R111): an offered word is accepted and discarded, undecoded. -/
def haltTurn (s : State) : Host.Outcome State Fault Refusal := .next (takeCmd s).2

/-- One turn of PROD (R21). A stream command in flight goes on from where its host left it (R28, R252). -/
def prodTurn (s : State) : Host.Outcome State Fault Refusal :=
  match s.prod.stream with
  | .snapshot left => .next (sendBytes left s)
  | .restore got => .next (readBytes (71 - got.length) got s)
  | .none =>
    match s.prod.phase with
    | .idle => idleTurn s
    | .cpu => cpuPhase s
    | .vid => vidPhase s
    | .aud => audPhase s
    | .stepEnd => endPhase s
    | .halt => haltTurn s

/-- One turn of CONS (R22): a step only where a word is offered. -/
def consTurn (s : State) : Host.Outcome State Fault Refusal :=
  let c := takeCcmd s
  match c.1 with
  | none => .next c.2
  | some w => runConsumerWord w c.2

/-- One turn of the agent `a` (R20). -/
def agentTurn (a : Agent) (s : State) : Host.Outcome State Fault Refusal :=
  match a with
  | .prod => prodTurn s
  | .cons => consTurn s
  | .syncW => .next (syncW s)
  | .syncR => .next (syncR s)

/-- The machine's step: the agent the schedule names takes its turn (R20, U4). An instance that breaks a constraint of
R7 is refused. -/
def machineStep (s : State) : Host.Outcome State Fault Refusal :=
  if paramsValid s.params then
    let a := takeAgent s
    agentTurn a.1 a.2
  else .refused .badInstance

/-- The word `w` is the next thing the driver offers, PROD can take it, and PROD steps next. -/
def offerToProducer (s : State) (w : Word) : State :=
  (s.setWorld { s.world with cmds := some w :: s.world.cmds, sched := .prod :: s.world.sched }).setProd
    { s.prod with phase := .idle, stream := .none }

/-- The word `w` is the next thing the host audio device offers, and CONS steps next. -/
def offerToConsumer (s : State) (w : Word) : State :=
  s.setWorld { s.world with ccmds := some w :: s.world.ccmds, sched := .cons :: s.world.sched }

/-- The word `w` stands where its port's agent takes it at the very next step: on the consumer port if that port's
table lists it, else on the producer port. -/
def offerWord (s : State) (w : Word) : State :=
  match decode .consumer w with
  | some _ => offerToConsumer s w
  | none => offerToProducer s w

end Sys2Proof.Machine
end

