-- ==== Sys2Proof/Machine/Step.lean ====
section
/-! DEFINITION. The machine's step, and the state in which the next step takes a given command word
(notes/assumptions/6.md). -/

namespace Sys2Proof.Machine

/-- One step of the machine (R20). -/
def step (s : State) : Host.Outcome State Fault Refusal := machineStep s

/-- `s` with the word of `nbits` bits offered so that the next step takes it: the block fetches nothing (R57), so the
word is what the driver or the host audio device offers next, and the schedule names that port's agent. -/
def State.withFetchWord (s : State) (nbits w : Nat) : State := offerWord s (BitVec.ofNat 32 (w % 2 ^ nbits))

end Sys2Proof.Machine
end

