-- ==== Sys2Proof/Safety.lean ====
section
/-! DEFINITION. What counts as a good state and as a finished run: the launch premise and the end of a run
(spec/70_reset_and_hazards.md R260, R261), the invariant of every run from power-on (spec/10_state.md R32, R35, R38,
R46, R55, spec/20_memory.md R72, R79), runs and their fairness (R23), and runs of a schedule. -/

namespace Sys2Proof.Machine

/-- The pointers and the occupancies of R79: every pointer is below `2*CAP`, and
`0 <= count_c <= count <= count_p <= CAP`. -/
def FifoOk (s : State) : Prop :=
  s.prod.wrPtr < 2 * s.params.cap ∧ s.prod.rdSync < 2 * s.params.cap ∧
  s.cons.rdPtr < 2 * s.params.cap ∧ s.cons.wrSync < 2 * s.params.cap ∧
  s.countC ≤ s.count ∧ s.count ≤ s.countP ∧ s.countP ≤ s.params.cap

/-- The sample memory is in canonical form, lists only entries below `CAP`, and lists every entry the FIFO holds: no
pop reads an entry that no push has written (R70, R72). -/
def StoredOk (s : State) : Prop :=
  s.mem.wf = true ∧ (∀ i v, s.mem.cell i = some v → i < s.params.cap) ∧
  ∀ j, j < s.count → (s.mem.cell ((s.cons.rdPtr + j) % s.params.cap)).isSome = true

/-- The divider's state is in range (R34, R35), except in HALT, where a failed RESTORE may have left any value
(R145; notes/assumptions/20.md). -/
def PathOk (s : State) : Prop :=
  s.prod.phase ≠ .halt →
    s.prod.path.acc.toNat < s.params.fcpu ∧
    (s.prod.path.cfgValid = true → rateLegal s.params.fcpu s.prod.path.rate = true)

/-- The values ERROR can hold (R32, R210): no fault, or a code with the unit that goes with it. -/
def errorValues : List Word :=
  [0x00000000#32, 0x00000001#32, 0x00000002#32, 0x00000003#32, 0x00000004#32, 0x00000104#32, 0x00000204#32,
    0x00000304#32, 0x00000005#32, 0x00000006#32]

/-- The values CERROR can hold (R46, R211). -/
def cerrorValues : List Word := [0x00000000#32, 0x00000001#32, 0x00000002#32, 0x00000003#32]

/-- The fault registers agree with the fault state (R31, R32, R46, R50). -/
def FaultOk (s : State) : Prop :=
  s.prod.error ∈ errorValues ∧ (s.prod.error = 0#32 ↔ s.prod.phase ≠ .halt) ∧
  s.cons.cerror ∈ cerrorValues ∧ (s.cons.cerror = 0#32 ↔ s.cons.cfault = false)

/-- `k` against the tick count of the step in progress (R55, R113 to R116). -/
def ticksOk (p : Producer) : Prop :=
  match p.phase with
  | .vid => 1 ≤ p.k.toNat ∧ p.k.toNat ≤ 3 * p.curC.toNat
  | .aud => 1 ≤ p.k.toNat ∧ p.k.toNat ≤ p.curC.toNat
  | .stepEnd => 1 ≤ p.curC.toNat
  | _ => True

/-- The stream command in flight (R28, R252), only in IDLE: a SNAPSHOT holds out what is left of the record of the
registers as they stand, a RESTORE has bytes to ask for. -/
def streamOk (p : Producer) : Prop :=
  match p.stream with
  | .none => True
  | .snapshot left => p.phase = .idle ∧ left ≠ [] ∧ left <:+ bridgeRecord p.path
  | .restore got => p.phase = .idle ∧ got.length < 71

/-- The sequencing state: `k` in range, the budget between -254 and 2^36 and above zero while STEPSEC runs (R38,
R124), `frame0` of `FRAME_W` bits (R55), and the stream command in flight. -/
def SeqOk (s : State) : Prop :=
  ticksOk s.prod ∧
  -254 ≤ s.prod.budget.toInt ∧ s.prod.budget.toInt < 2 ^ 36 ∧
  (busy s = true → s.prod.mode = .seconds → 0 < s.prod.budget.toInt) ∧
  s.prod.frame0.toNat < 2 ^ s.params.frameW ∧ streamOk s.prod

/-- What holds in every state of a run from power-on. -/
def Inv (s : State) : Prop :=
  paramsValid s.params = true ∧ SeqOk s ∧ PathOk s ∧ FaultOk s ∧ FifoOk s ∧ StoredOk s

/-- The synchronisers are settled (R260, R261). -/
def Settled (s : State) : Prop := s.cons.wrSync = s.prod.wrPtr ∧ s.prod.rdSync = s.cons.rdPtr

/-- The launch premise `CleanEntry` (R261). -/
def CleanEntry (s : State) : Prop :=
  s.prod.phase = .idle ∧ s.prod.error = 0#32 ∧ s.cons.cfault = false ∧ s.cons.cerror = 0#32 ∧
  FifoOk s ∧ Settled s ∧ s.prod.path.acc.toNat < s.params.fcpu ∧
  (s.prod.path.cfgValid = true → rateLegal s.params.fcpu s.prod.path.rate = true) ∧
  s.prod.stream = .none

/-- No word is offered on either command port at its agent's next turn (R260). -/
def NothingOffered (s : State) : Prop := (takeCmd s).1 = none ∧ (takeCcmd s).1 = none

/-- A finished run (R260). -/
def Finished (s : State) : Prop :=
  s.prod.phase = .idle ∧ s.prod.stream = .none ∧ NothingOffered s ∧ Settled s ∧
  s.prod.error = 0#32 ∧ s.cons.cfault = false

/-- `r` is an infinite run: each state is the step of the one before (R20). -/
def IsRun (r : Nat → State) : Prop := ∀ n, step (r n) = .next (r (n + 1))

/-- Weak fairness of the synchronisers in a run (R23, R226, R254): SYNC_W and SYNC_R, which are always enabled, each
step infinitely often. -/
def WeaklyFair (r : Nat → State) : Prop :=
  ∀ a, a = .syncW ∨ a = .syncR → ∀ n, ∃ m, n ≤ m ∧ (takeAgent (r m)).1 = a

/-- The turns of a schedule, in order, until PROD is no longer busy (R110: the later steps of a command; R118: the
other agents' steps may come between any two of them). -/
def runCommand : List Agent → State → Host.Outcome State Fault Refusal
  | [], s => .next s
  | a :: rest, s => if busy s then andThen (agentTurn a s) (runCommand rest) else .next s

/-- PROD is in a phase that issues ticks. -/
def ticking (s : State) : Bool :=
  decide (s.prod.phase = .cpu) || decide (s.prod.phase = .vid) || decide (s.prod.phase = .aud)

/-- The turns of a schedule, in order, until the step in progress reaches END or faults (R117, R118). -/
def runStep : List Agent → State → Host.Outcome State Fault Refusal
  | [], s => .next s
  | a :: rest, s => if ticking s then andThen (agentTurn a s) (runStep rest) else .next s

/-- `n` audio ticks' worth of sample path (R165). -/
def audioTicks : Nat → State → Host.Outcome State Fault Refusal
  | 0, s => .next s
  | n + 1, s => andThen (samplePath s) (audioTicks n)

/-- A host callback of `n` frames: `n` FRAME commands in order (R194). -/
def callback : Nat → State → Host.Outcome State Fault Refusal
  | 0, s => .next s
  | n + 1, s => andThen (exec .frame s) (callback n)

/-- A tick request among the calls (R117): a processor step, or a tick of one of the three other units. -/
def isTick : ExtCall → Bool
  | .procStep _ | .ppuTick _ | .mapperTick _ | .apuTick _ => true
  | _ => false

/-- A tick request that stops its step (R113 to R115): its unit raised the fault flag, or the processor answered no
tick. -/
def stopsStep : ExtCall → Bool
  | .procStep r => r.fault || decide (r.c = 0#8)
  | .ppuTick f | .mapperTick f | .apuTick f => f
  | _ => false

/-- A reading of the audio unit's output among the calls: there is one per firing of the divider (R165). -/
def isSampleRead : ExtCall → Bool
  | .apuOut _ => true
  | _ => false

/-- The ticks of the processor steps among the calls: the sum of their `c`. -/
def procTicks : List ExtCall → Nat
  | [] => 0
  | .procStep r :: rest => r.c.toNat + procTicks rest
  | _ :: rest => procTicks rest

/-- `n` fault-free picture-unit and mapper pairs (R114). -/
def pairCalls : Nat → List ExtCall
  | 0 => []
  | n + 1 => .ppuTick false :: .mapperTick false :: pairCalls n

/-- The tick requests of a fault-free step of `c` ticks, in order (R117). -/
def stepCalls (r : ProcReply) : List ExtCall :=
  .procStep r :: (pairCalls (3 * r.c.toNat) ++ List.replicate r.c.toNat (.apuTick false))

/-- A tick request as it would be logged with no fault. -/
def withoutFault : ExtCall → ExtCall
  | .procStep r => .procStep { r with fault := false }
  | .ppuTick _ => .ppuTick false
  | .mapperTick _ => .mapperTick false
  | .apuTick _ => .apuTick false
  | c => c

/-- The unsigned number in the four bytes of a record from offset `i`, least significant byte first (R140). -/
def leValue (rec : List Byte) (i : Nat) : Nat :=
  (byteAt rec i).toNat + 2 ^ 8 * (byteAt rec (i + 1)).toNat + 2 ^ 16 * (byteAt rec (i + 2)).toNat +
    2 ^ 24 * (byteAt rec (i + 3)).toNat

/-- Whether a binary32 pattern is a finite number. -/
def isFinite (w : F32) : Bool :=
  match viewF32 w with
  | .fin _ _ _ => true
  | _ => false

/-- The rational `(-1)^neg * m * 2^e`. -/
def exactValue (neg : Bool) (m : Nat) (e : Int) : Rat := (signedNat neg m : Rat) * (2 : Rat) ^ e

/-- The number a finite pattern stands for. -/
def f32Value (w : F32) : Rat :=
  match viewF32 w with
  | .fin neg m e => exactValue neg m e
  | _ => 0

end Sys2Proof.Machine
end

