-- ==== Sys2Proof/Certificates/Slice0/Obligations.lean ====
section
/-! DEFINITION. The statements about the block, each from a numbered rule of spec/ or from the sections it rests on.
They state; nothing is proved here. `exec i s` is what a command does in the step that accepts it (R110); the later
steps of STEP, STEPFRAME and STEPSEC are turns of PROD. -/

open Sys2Proof Sys2Proof.Machine

/-! ## Encoding (spec/30_encoding.md) -/

/-- Decoding the word of a command on its own port gives the command back, for every command and every operand. -/
def Obligations.DecodeOfEncode : Prop :=
  ∀ i : Instr, decode i.mnemonic.port (encode i) = some i

/-- A word decodes to at most one command: the one whose word it is, and only on that command's port. -/
def Obligations.EncodeOfDecode : Prop :=
  ∀ (p : Port) (w : Word) (i : Instr), decode p w = some i → i.wellFormed p = true ∧ encode i = w

/-- R95: each port decodes only its own table: a word with an opcode of the other port's table matches no row. The
opcode's top bit tells the tables apart. -/
def Obligations.PortsDecodeOwnTable : Prop :=
  ∀ (i : Instr) (p : Port), p ≠ i.mnemonic.port →
    (∀ w : Word, w.extractLsb' 24 8 = (encode i).extractLsb' 24 8 → decode p w = none) ∧
    (encode i).getLsbD 31 = decide (i.mnemonic.port = .consumer)

/-- R96: the words that match no row are those of the unassigned opcodes and those with a 1 in a reserved bit; the
all-zero word is one on both ports. On the producer port such a word raises ILLEGAL_CMD and has no other effect, on the
consumer port C_ILLEGAL_CMD and no other: so where an agent runs the word, and so at the turn at which PROD, waiting in
IDLE, or CONS is offered it. -/
def Obligations.IllegalWordsFault : Prop :=
  (∀ w : Word, decode .producer w = none ↔
    ¬ ((w.extractLsb' 24 8 ∈ [0x01#8, 0x02#8, 0x04#8, 0x11#8, 0x12#8, 0x13#8, 0x20#8, 0x21#8] ∧
          w.extractLsb' 0 24 = 0#24) ∨
        w.extractLsb' 24 8 ∈ [0x03#8, 0x10#8] ∨
        (w.extractLsb' 24 8 = 0x05#8 ∧ w.extractLsb' 9 15 = 0#15))) ∧
  (∀ w : Word, decode .consumer w = none ↔
    ¬ ((w.extractLsb' 24 8 ∈ [0x80#8, 0x81#8] ∧ w.extractLsb' 0 24 = 0#24) ∨
        (w.extractLsb' 24 8 = 0x82#8 ∧ w.extractLsb' 8 16 = 0#16))) ∧
  (∀ p : Port, decode p 0x00000000#32 = none) ∧
  (∀ (w : Word) (s : State), decode .producer w = none →
    runProducerWord w s =
      .next { s with prod := { s.prod with error := 0x00000001#32, phase := .halt } }) ∧
  (∀ (w : Word) (s : State), decode .consumer w = none →
    runConsumerWord w s =
      .next { s with cons :=
        { s.cons with
          cerror := if s.cons.cerror = 0#32 then 0x00000001#32 else s.cons.cerror
          cfault := true } }) ∧
  (∀ (w : Word) (s : State), decode .producer w = none → s.prod.stream = .none → s.prod.phase = .idle →
    (takeCmd s).1 = some w →
    prodTurn s =
      .next { (takeCmd s).2 with prod := { s.prod with error := 0x00000001#32, phase := .halt } }) ∧
  (∀ (w : Word) (s : State), decode .consumer w = none → (takeCcmd s).1 = some w →
    consTurn s =
      .next { (takeCcmd s).2 with cons :=
        { s.cons with
          cerror := if s.cons.cerror = 0#32 then 0x00000001#32 else s.cons.cerror
          cfault := true } })

/-- R92: operands are the unsigned fields of the word, by arithmetic on its value: `imm24 = word[23:0]`,
`imm8 = word[7:0]`, `b = word[7:0]`, `p = word[8]` with 0 for controller 1 and 1 for controller 2. -/
def Obligations.OperandFields : Prop :=
  (∀ (w : Word) (us : BitVec 24), decode .producer w = some (.stepsec us) → us.toNat = w.toNat % 2 ^ 24) ∧
  (∀ (w : Word) (rate : BitVec 24), decode .producer w = some (.config rate) → rate.toNat = w.toNat % 2 ^ 24) ∧
  (∀ (w : Word) (n : BitVec 8), decode .consumer w = some (.setch n) → n.toNat = w.toNat % 2 ^ 8) ∧
  (∀ (w : Word) (p : Player) (b : BitVec 8), decode .producer w = some (.setbtn p b) →
    b.toNat = w.toNat % 2 ^ 8 ∧ (w.toNat / 2 ^ 8 % 2 = 0 → p = .one) ∧ (w.toNat / 2 ^ 8 % 2 = 1 → p = .two))

/-- Words of the spec's vectors (95_test_vectors.md 2.1) decode as it says. -/
def Obligations.SampleWordsDecode : Prop :=
  decode .producer 0x01000000#32 = some .step ∧
  decode .producer 0x030040FF#32 = some (.stepsec 16639#24) ∧
  decode .producer 0x050001FF#32 = some (.setbtn .two 0xFF#8) ∧
  decode .producer 0x1000AC44#32 = some (.config 44100#24) ∧
  decode .producer 0x20000000#32 = some .snapshot ∧
  decode .consumer 0x80000000#32 = some .frame ∧
  decode .consumer 0x82000002#32 = some (.setch 2#8) ∧
  decode .producer 0x05000200#32 = none ∧ decode .consumer 0x83000000#32 = none

/-- The assembler refuses an operand that does not fit its field and never truncates one (R99): it answers exactly
where the operands fit, and then the operands can be read back from the command. -/
def Obligations.AssemblerRefusesMisfits : Prop :=
  (∀ (m : Mnemonic) (ops : List Nat), (assemble m ops).isSome = m.operandsFit ops) ∧
  (∀ (m : Mnemonic) (ops : List Nat) (i : Instr), assemble m ops = some i → i.mnemonic = m) ∧
  (∀ (us : Nat) (v : BitVec 24), assemble .STEPSEC [us] = some (.stepsec v) → v.toNat = us) ∧
  (∀ (rate : Nat) (v : BitVec 24), assemble .CONFIG [rate] = some (.config v) → v.toNat = rate) ∧
  (∀ (n : Nat) (v : BitVec 8), assemble .SETCH [n] = some (.setch v) → v.toNat = n) ∧
  (∀ (p b : Nat) (q : Player) (v : BitVec 8), assemble .SETBTN [p, b] = some (.setbtn q v) →
    v.toNat = b ∧ (p = 0 → q = .one) ∧ (p = 1 → q = .two))

/-! ## Commands of the producer port, where PROD accepts them (spec/40_stepper.md, 41_state_codec.md,
42_sample_path.md) -/

/-- STEP at acceptance: `mode <- SINGLE; phase <- CPU`, and nothing else. -/
def Obligations.StepBegins : Prop :=
  ∀ s : State, accepting s = true →
    exec .step s = .next { s with prod := { s.prod with mode := .single, phase := .cpu } }

/-- STEPFRAME at acceptance: the frame counter is sampled once, TOTAL is cleared, the first step begins. -/
def Obligations.StepframeBegins : Prop :=
  ∀ s : State, accepting s = true → s.params.frameW ≤ 64 →
    ∃ t v, exec .stepframe s = .next t ∧ v = (ppuFrame s).1 ∧ v.toNat < 2 ^ s.params.frameW ∧
      t.prod = { s.prod with mode := .frame, frame0 := v, total := 0#64, phase := .cpu } ∧
      t.out = { s.out with calls := s.out.calls ++ [.ppuFrame v] } ∧
      t.cons = s.cons ∧ t.mem = s.mem ∧ t.params = s.params

/-- STEPSEC at acceptance: the budget is `floor(F_CPU * us / 10^6)`, exact, below 2^36; a zero budget runs no step. -/
def Obligations.StepsecBegins : Prop :=
  ∀ (s : State) (us : BitVec 24), accepting s = true → paramsValid s.params = true →
    ∃ p, exec (.stepsec us) s = .next { s with prod := p } ∧
      p = { s.prod with mode := .seconds, budget := p.budget, phase := p.phase } ∧
      p.budget.toInt = ((s.params.fcpu * us.toNat / 1000000 : Nat) : Int) ∧ p.budget.toInt < 2 ^ 36 ∧
      p.phase = (if 0 < p.budget.toInt then .cpu else .idle)

/-- RESET calls `ProcReset()` and SETBTN calls `BtnWrite(p, b)` with all eight buttons; neither changes a register, and
every `b` is accepted. -/
def Obligations.ResetAndSetbtnCallOut : Prop :=
  ∀ s : State, accepting s = true →
    exec .reset s = .next { s with out := { s.out with calls := s.out.calls ++ [.procReset] } } ∧
    ∀ (p : Player) (b : BitVec 8),
      exec (.setbtn p b) s = .next { s with out := { s.out with calls := s.out.calls ++ [.btnWrite p b] } }

/-- CONFIG: an illegal rate raises BAD_CONFIG and nothing else happens; a legal one is loaded with the nine designed
coefficients, and the divider and the filters start afresh, with ATTACHED and the FIFO left alone. -/
def Obligations.ConfigLoadsOrRefuses : Prop :=
  ∀ (s : State) (rate : BitVec 24), accepting s = true →
    ((rate.toNat = 0 ∨ s.params.fcpu < rate.toNat) →
      exec (.config rate) s =
        .next { s with prod := { s.prod with error := 0x00000002#32, phase := .halt } }) ∧
    ((1 ≤ rate.toNat ∧ rate.toNat ≤ s.params.fcpu) →
      exec (.config rate) s =
        .next { s with prod := { s.prod with path :=
          { cfgValid := true
            rate := rate
            acc := 0#32
            coef :=
              ⟨filterDesign s.params.design rate s.params.fc0 .hp,
                filterDesign s.params.design rate s.params.fc1 .hp,
                filterDesign s.params.design rate s.params.fc2 .lp⟩
            fstate := ⟨⟨0#32, 0#32⟩, ⟨0#32, 0#32⟩, ⟨0#32, 0#32⟩⟩ } } })

/-- DISABLE clears CFG_VALID, ACC and FSTATE; ATTACH sets ATTACHED; DETACH clears it. None changes anything else: RATE,
COEF and the FIFO stay. -/
def Obligations.DisableAttachDetach : Prop :=
  ∀ s : State, accepting s = true →
    exec .disable s =
      .next { s with prod := { s.prod with path :=
        { s.prod.path with
          cfgValid := false
          acc := 0#32
          fstate := ⟨⟨0#32, 0#32⟩, ⟨0#32, 0#32⟩, ⟨0#32, 0#32⟩⟩ } } } ∧
    exec .attach s = .next { s with prod := { s.prod with attached := true } } ∧
    exec .detach s = .next { s with prod := { s.prod with attached := false } }

/-- SNAPSHOT with a sink that is ready for each of the 71 bytes of the record moves them all to the sink in the one step
and changes no register. -/
def Obligations.SnapshotSendsRecord : Prop :=
  ∀ (s : State) (rest : List Bool), accepting s = true →
    s.world.sinkReady = List.replicate 71 true ++ rest →
    ∃ t, exec .snapshot s = .next t ∧ t.world.sinkReady = rest ∧ t.prod = s.prod ∧ t.cons = s.cons ∧
      t.mem = s.mem ∧ t.params = s.params ∧
      t.out = { s.out with sink := s.out.sink ++ bridgeRecord s.prod.path } ∧
      (bridgeRecord s.prod.path).length = 71

/-- R143 and R144, RESTORE of 71 bytes with a good sentinel that are `Valid`: every field of the record is committed,
exactly 71 bytes are read, and nothing else changes. -/
def Obligations.RestoreCommits : Prop :=
  ∀ (s : State) (rec : List Byte) (rest : List SourceItem), accepting s = true →
    s.world.source = rec.map .byte ++ rest → rec.length = 71 → byteAt rec 70 = 0x01#8 →
    byteAt rec 0 = 0x01#8 → (byteAt rec 1 = 0x00#8 ∨ byteAt rec 1 = 0x01#8) → leValue rec 2 < 2 ^ 24 →
    leValue rec 6 < s.params.fcpu →
    (byteAt rec 1 = 0x01#8 → 1 ≤ leValue rec 2 ∧ leValue rec 2 ≤ s.params.fcpu) →
    ∃ t, exec .restore s = .next t ∧ t.world.source = rest ∧
      t.prod = { s.prod with path := t.prod.path } ∧
      (t.prod.path.cfgValid = true ↔ byteAt rec 1 = 0x01#8) ∧
      t.prod.path.rate.toNat = leValue rec 2 ∧ t.prod.path.acc.toNat = leValue rec 6 ∧
      (∀ (i : Stage) (n : Nat), n = (match i with | .s0 => 0 | .s1 => 1 | .s2 => 2) →
        (t.prod.path.coef.get i).b0.toNat = leValue rec (10 + 4 * (3 * n)) ∧
        (t.prod.path.coef.get i).b1.toNat = leValue rec (10 + 4 * (3 * n + 1)) ∧
        (t.prod.path.coef.get i).a1.toNat = leValue rec (10 + 4 * (3 * n + 2)) ∧
        (t.prod.path.fstate.get i).x1.toNat = leValue rec (46 + 8 * n) ∧
        (t.prod.path.fstate.get i).y1.toNat = leValue rec (50 + 8 * n)) ∧
      t.cons = s.cons ∧ t.mem = s.mem ∧ t.params = s.params ∧
      t.out = { s.out with calls := s.out.calls ++ rec.map (fun b => .sourceGet (some b)) }

/-- A RESTORE of a whole record that fails: a bad sentinel is RESTORE_TRUNCATED, tested first; else a record that breaks
a condition of `Valid` is RESTORE_MALFORMED. The fields of the record are left open, PROD is in HALT, the bytes are
consumed, and every other register keeps its value. -/
def Obligations.RestoreFailures : Prop :=
  ∀ (s : State) (rec : List Byte) (rest : List SourceItem), accepting s = true →
    s.world.source = rec.map .byte ++ rest → rec.length = 71 →
    (byteAt rec 70 ≠ 0x01#8 →
      ∃ t, exec .restore s = .next t ∧ t.world.source = rest ∧
        t.prod = { s.prod with path := t.prod.path, error := 0x00000005#32, phase := .halt } ∧
        t.cons = s.cons ∧ t.mem = s.mem ∧ t.params = s.params) ∧
    (byteAt rec 70 = 0x01#8 →
      (byteAt rec 0 ≠ 0x01#8 ∨ (byteAt rec 1 ≠ 0x00#8 ∧ byteAt rec 1 ≠ 0x01#8) ∨ 2 ^ 24 ≤ leValue rec 2 ∨
        s.params.fcpu ≤ leValue rec 6 ∨
        (byteAt rec 1 = 0x01#8 ∧ (leValue rec 2 = 0 ∨ s.params.fcpu < leValue rec 2))) →
      ∃ t, exec .restore s = .next t ∧ t.world.source = rest ∧
        t.prod = { s.prod with path := t.prod.path, error := 0x00000006#32, phase := .halt } ∧
        t.cons = s.cons ∧ t.mem = s.mem ∧ t.params = s.params)

/-- R149: from a source that ends before 71 bytes, RESTORE raises RESTORE_TRUNCATED, whatever the bytes are; it never
succeeds on a partial record. The bytes are consumed and every register but those of the record keeps its value. That
`EOS` stays to be read again is the model's reading of the level `st_in_eos` (notes/assumptions/7.md). -/
def Obligations.TruncatedRestoreFails : Prop :=
  ∀ (s : State) (bytes : List Byte) (rest : List SourceItem), accepting s = true →
    s.world.source = bytes.map .byte ++ .eos :: rest → bytes.length < 71 →
    ∃ t, exec .restore s = .next t ∧ t.world.source = .eos :: rest ∧
      t.prod = { s.prod with path := t.prod.path, error := 0x00000005#32, phase := .halt } ∧
      t.cons = s.cons ∧ t.mem = s.mem ∧ t.params = s.params

/-- The state stream moves byte by byte, and a host that does not answer leaves the command in progress and not done
(R28, R252). A sink that is not ready for byte `n` has taken the bytes before it; that byte stays held out, with
`st_out_valid` 1. A source that falls silent has given the bytes before; RESTORE goes on asking, with `st_in_ready` 1.
No register changes and the port is not ready. At later turns of PROD the transfer goes on from there, and the command
is done as soon as its last byte moves. -/
def Obligations.StreamCommandsWait : Prop :=
  (∀ (s : State) (n : Nat) (rest : List Bool), accepting s = true → n < 71 →
    s.world.sinkReady = List.replicate n true ++ false :: rest →
    ∃ t, exec .snapshot s = .next t ∧ t.world.sinkReady = rest ∧
      t.prod = { s.prod with stream := .snapshot ((bridgeRecord s.prod.path).drop n) } ∧
      t.out = { s.out with sink := s.out.sink ++ (bridgeRecord s.prod.path).take n } ∧
      t.cons = s.cons ∧ t.mem = s.mem ∧ t.params = s.params ∧ cmdReady t = false ∧
      stOutValid t = true ∧ stOutByte t = (bridgeRecord s.prod.path)[n]?) ∧
  (∀ (s : State) (left : List Byte) (n : Nat) (rest : List Bool), s.prod.stream = .snapshot left →
    n < left.length → s.world.sinkReady = List.replicate n true ++ false :: rest →
    ∃ t, prodTurn s = .next t ∧ t.world.sinkReady = rest ∧
      t.prod = { s.prod with stream := .snapshot (left.drop n) } ∧
      t.out = { s.out with sink := s.out.sink ++ left.take n } ∧ t.cons = s.cons ∧ t.mem = s.mem) ∧
  (∀ (s : State) (left : List Byte) (rest : List Bool), s.prod.stream = .snapshot left →
    s.prod.phase = .idle → s.world.sinkReady = List.replicate left.length true ++ rest →
    ∃ t, prodTurn s = .next t ∧ t.world.sinkReady = rest ∧ t.prod = { s.prod with stream := .none } ∧
      cmdReady t = true ∧ t.out = { s.out with sink := s.out.sink ++ left } ∧
      t.cons = s.cons ∧ t.mem = s.mem) ∧
  (∀ (s : State) (bytes : List Byte) (rest : List SourceItem), accepting s = true →
    s.world.source = bytes.map .byte ++ .silent :: rest → bytes.length < 71 →
    ∃ t, exec .restore s = .next t ∧ t.world.source = rest ∧
      t.prod = { s.prod with stream := .restore bytes } ∧
      t.out = { s.out with calls := s.out.calls ++ bytes.map (fun b => .sourceGet (some b)) } ∧
      t.cons = s.cons ∧ t.mem = s.mem ∧ t.params = s.params ∧ cmdReady t = false ∧ stInReady t = true) ∧
  (∀ (s : State) (got more : List Byte) (rest : List SourceItem), s.prod.stream = .restore got →
    s.world.source = more.map .byte ++ .silent :: rest → got.length + more.length < 71 →
    ∃ t, prodTurn s = .next t ∧ t.world.source = rest ∧
      t.prod = { s.prod with stream := .restore (got ++ more) } ∧ t.cons = s.cons ∧ t.mem = s.mem) ∧
  (∀ (s : State) (got more : List Byte) (rest : List SourceItem), s.prod.stream = .restore got →
    s.prod.phase = .idle → s.world.source = more.map .byte ++ rest → got.length + more.length = 71 →
    byteAt (got ++ more) 70 = 0x01#8 → recordValid s.params.fcpu (got ++ more) = true →
    ∃ t, prodTurn s = .next t ∧ cmdReady t = true ∧ t.world.source = rest ∧
      t.prod = { s.prod with path := recordPath (got ++ more), stream := .none } ∧
      t.cons = s.cons ∧ t.mem = s.mem)

/-- A producer command that PROD does not accept changes nothing: in HALT it is discarded (R111), while PROD is busy or
a stream command is in flight it is held (R25, R252). In HALT a turn of PROD changes no register, no memory, no
output, whatever word is offered. -/
def Obligations.NotAcceptedChangesNothing : Prop :=
  (∀ (i : Instr) (s : State), i.mnemonic.port = .producer → accepting s = false → exec i s = .next s) ∧
  (∀ s : State, s.prod.phase = .halt → s.prod.stream = .none →
    ∃ w, prodTurn s = .next { s with world := w })

/-! ## Commands of the consumer port (spec/43_consumer.md) -/

/-- R190, FRAME: without a channel count it raises C_UNCONFIGURED, pops nothing and emits an empty frame; where the
consumer sees no sample it emits silence; else it pops the sample of entry `RD_PTR mod CAP` and emits it bit for bit. -/
def Obligations.FrameEmits : Prop :=
  ∀ s : State,
    (s.cons.channels = 0#8 →
      exec .frame s = .next { s with
        cons := { s.cons with
          cerror := if s.cons.cerror = 0#32 then 0x00000003#32 else s.cons.cerror
          cfault := true }
        out := { s.out with frames := s.out.frames ++ [⟨0#32, 0#8⟩] } }) ∧
    (s.cons.channels ≠ 0#8 → s.cons.rdPtr = s.cons.wrSync →
      exec .frame s = .next { s with
        cons := { s.cons with outSample := 0#32 }
        out := { s.out with frames := s.out.frames ++ [⟨0#32, s.cons.channels⟩] } }) ∧
    (s.cons.channels ≠ 0#8 → s.cons.rdPtr ≠ s.cons.wrSync →
      ∀ v, v = memRead s.mem (s.cons.rdPtr % s.params.cap) →
        exec .frame s = .next { s with
          cons := { s.cons with rdPtr := (s.cons.rdPtr + 1) % (2 * s.params.cap), outSample := v }
          out := { s.out with frames := s.out.frames ++ [⟨v, s.cons.channels⟩] } })

/-- FLUSH: `RD_PTR <- WR_SYNC`, the view is empty afterwards, and nothing else changes. SETCH: a count of 1 to 255 is
loaded; 0 raises C_BAD_CONFIG and CHANNELS keeps its value. -/
def Obligations.FlushAndSetch : Prop :=
  ∀ s : State,
    (∃ t, exec .flush s = .next t ∧ t = { s with cons := { s.cons with rdPtr := s.cons.wrSync } } ∧
      vempty t = true) ∧
    ∀ n : BitVec 8,
      (n ≠ 0#8 → exec (.setch n) s = .next { s with cons := { s.cons with channels := n } }) ∧
      (n = 0#8 → exec (.setch n) s = .next { s with cons :=
        { s.cons with
          cerror := if s.cons.cerror = 0#32 then 0x00000002#32 else s.cons.cerror
          cfault := true } })

/-! ## The phases of a step (spec/40_stepper.md) -/

/-- R113, the CPU phase: one `ProcStep()`; its fault is tested before `c = 0`; else `cur_c <- c`, `k <- 3 * c`,
`phase <- VID`. -/
def Obligations.CpuPhaseRule : Prop :=
  ∀ (s : State) (r : ProcReply), s.prod.stream = .none → s.prod.phase = .cpu → r = (procStep s).1 →
    ∃ t, prodTurn s = .next t ∧ t.cons = s.cons ∧ t.mem = s.mem ∧ t.params = s.params ∧
      t.out = { s.out with calls := s.out.calls ++ [.procStep r] } ∧
      (r.fault = true → t.prod = { s.prod with error := 0x00000004#32, phase := .halt }) ∧
      (r.fault = false → r.c = 0#8 → t.prod = { s.prod with error := 0x00000003#32, phase := .halt }) ∧
      (r.fault = false → r.c ≠ 0#8 →
        t.prod = { s.prod with curC := r.c, k := t.prod.k, phase := .vid } ∧
          t.prod.k.toNat = 3 * r.c.toNat)

/-- R114, the VID phase: a picture-unit tick and then a mapper tick; a fault stops the pair; the last pair loads
`k <- cur_c` and goes to AUD. -/
def Obligations.VidPhaseRule : Prop :=
  ∀ (s : State) (f g : Bool), s.prod.stream = .none → s.prod.phase = .vid → 1 ≤ s.prod.k.toNat →
    f = (ppuTick s).1 → g = (mapperTick (ppuTick s).2).1 →
    ∃ t, prodTurn s = .next t ∧ t.cons = s.cons ∧ t.mem = s.mem ∧ t.params = s.params ∧
      (f = true → t.prod = { s.prod with error := 0x00000104#32, phase := .halt } ∧
        t.out = { s.out with calls := s.out.calls ++ [.ppuTick true] }) ∧
      (f = false → t.out = { s.out with calls := s.out.calls ++ [.ppuTick false, .mapperTick g] }) ∧
      (f = false → g = true → t.prod = { s.prod with error := 0x00000204#32, phase := .halt }) ∧
      (f = false → g = false → 1 < s.prod.k.toNat →
        t.prod = { s.prod with k := t.prod.k } ∧ t.prod.k.toNat = s.prod.k.toNat - 1) ∧
      (f = false → g = false → s.prod.k.toNat = 1 →
        t.prod = { s.prod with k := t.prod.k, phase := .aud } ∧ t.prod.k.toNat = s.prod.curC.toNat)

/-- R115, the AUD phase: an audio tick, whose fault stops it before its sample path; then the sample path; then one
tick fewer is left, and the last one goes to END. -/
def Obligations.AudPhaseRule : Prop :=
  ∀ s : State, s.prod.stream = .none → s.prod.phase = .aud → 1 ≤ s.prod.k.toNat →
    ((apuTick s).1 = true →
      ∃ t, prodTurn s = .next t ∧ t.prod = { s.prod with error := 0x00000304#32, phase := .halt } ∧
        t.out = { s.out with calls := s.out.calls ++ [.apuTick true] } ∧
        t.cons = s.cons ∧ t.mem = s.mem ∧ t.params = s.params) ∧
    ((apuTick s).1 = false → ∀ u, samplePath (apuTick s).2 = .next u →
      ∃ t, prodTurn s = .next t ∧ t.out = u.out ∧ t.cons = u.cons ∧ t.mem = u.mem ∧ t.params = u.params ∧
        t.world = u.world ∧ t.prod = { u.prod with k := t.prod.k, phase := t.prod.phase } ∧
        t.prod.k.toNat = s.prod.k.toNat - 1 ∧
        t.prod.phase = (if s.prod.k.toNat = 1 then .stepEnd else .aud))

/-- R116, R121 and R123, the END phase: `LAST_C <- cur_c`; STEP is done; STEPFRAME adds `cur_c` to TOTAL modulo 2^64
and goes on unless the whole frame counter differs from `frame0`; STEPSEC subtracts `cur_c` from BUDGET and goes on
while it is above zero, and the next STEPSEC loads BUDGET afresh. -/
def Obligations.EndPhaseRule : Prop :=
  (∀ s : State, s.prod.stream = .none → s.prod.phase = .stepEnd →
    (s.prod.mode = .single →
      prodTurn s = .next { s with prod := { s.prod with lastC := s.prod.curC, phase := .idle } }) ∧
    (s.prod.mode = .frame →
      ∃ t, prodTurn s = .next t ∧ t.cons = s.cons ∧ t.mem = s.mem ∧ t.params = s.params ∧
        t.out = { s.out with calls := s.out.calls ++ [.ppuFrame (ppuFrame s).1] } ∧
        t.prod = { s.prod with
          lastC := s.prod.curC
          total := t.prod.total
          phase := if (ppuFrame s).1 = s.prod.frame0 then .cpu else .idle } ∧
        t.prod.total.toNat = (s.prod.total.toNat + s.prod.curC.toNat) % 2 ^ 64) ∧
    (s.prod.mode = .seconds → -2 ^ 63 + 255 ≤ s.prod.budget.toInt →
      ∃ b, prodTurn s = .next { s with prod :=
          { s.prod with
            lastC := s.prod.curC
            budget := b
            phase := if 0 < b.toInt then .cpu else .idle } } ∧
        b.toInt = s.prod.budget.toInt - s.prod.curC.toNat)) ∧
  (∀ (s : State) (us : BitVec 24) (b : BitVec 64), accepting s = true →
    exec (.stepsec us) { s with prod := { s.prod with budget := b } } = exec (.stepsec us) s)

/-! ## Whole commands (spec/40_stepper.md, 70_reset_and_hazards.md) -/

/-- R117, the tick-count law. A step that reaches END issued one `ProcStep`, then `3*c` picture-unit and mapper pairs,
then `c` audio ticks, in this order and no other tick between them. A step that faults issued a prefix of that sequence
and no tick after the faulting one: the last tick raised its fault flag or was a processor step of no tick, and none
before it did. The run is of any schedule, from the CPU phase: steps of the other agents may come
between any two of PROD's. -/
def Obligations.TickCountLaw : Prop :=
  ∀ (s t : State) (turns : List Agent), Inv s → s.prod.phase = .cpu → runStep turns s = .next t →
    (t.prod.phase = .stepEnd →
      ∃ r : ProcReply, r.fault = false ∧ 0 < r.c.toNat ∧ t.prod.curC = r.c ∧
        t.out.calls.filter isTick = s.out.calls.filter isTick ++ stepCalls r) ∧
    (t.prod.phase = .halt →
      ∃ (r : ProcReply) (done : List ExtCall) (last : ExtCall),
        t.out.calls.filter isTick = s.out.calls.filter isTick ++ (done ++ [last]) ∧
        (done ++ [withoutFault last]) <+: stepCalls r ∧ (∀ c ∈ done, stopsStep c = false) ∧
        stopsStep last = true)

/-- STEP takes `3 + 4*c` PROD steps (R253): after its acceptance, `2 + 4*c` turns of PROD and not one fewer bring a
step whose units raise no fault to its end, with LAST_C the `c` of the processor, whatever the other agents do in
between. -/
def Obligations.StepTakesItsTurns : Prop :=
  ∀ (s s0 : State) (r : ProcReply) (ps : List ProcReply) (fs gs as : List Bool) (turns : List Agent),
    Inv s → accepting s = true → r.fault = false → 0 < r.c.toNat →
    s.world.proc = r :: ps →
    s.world.ppuFaults = List.replicate (3 * r.c.toNat) false ++ fs →
    s.world.mapperFaults = List.replicate (3 * r.c.toNat) false ++ gs →
    s.world.apuFaults = List.replicate r.c.toNat false ++ as →
    exec .step s = .next s0 →
    (2 + 4 * r.c.toNat ≤ turns.count .prod →
      ∃ t, runCommand turns s0 = .next t ∧ accepting t = true ∧ t.prod.lastC = r.c ∧
        t.out.calls.filter isTick = s.out.calls.filter isTick ++ stepCalls r) ∧
    (turns.count .prod < 2 + 4 * r.c.toNat → ∃ u, runCommand turns s0 = .next u ∧ busy u = true)

/-- STEPSEC's overshoot (R124): with `B0` the initial budget and `T` the ticks of the steps it ran, a run that ends
without a fault has `T = 0` where `B0 = 0`, else `B0 <= T <= B0 + 254`, and leaves `BUDGET = B0 - T`. -/
def Obligations.StepsecOvershoot : Prop :=
  ∀ (s s0 t : State) (us : BitVec 24) (turns : List Agent), Inv s → accepting s = true →
    exec (.stepsec us) s = .next s0 → runCommand turns s0 = .next t → t.prod.phase = .idle →
    ∃ ticks : Nat,
      procTicks t.out.calls = procTicks s.out.calls + ticks ∧
      (tickBudget s.params.fcpu us = 0 → ticks = 0) ∧
      (0 < tickBudget s.params.fcpu us →
        tickBudget s.params.fcpu us ≤ ticks ∧ ticks ≤ tickBudget s.params.fcpu us + 254) ∧
      t.prod.budget.toInt = (tickBudget s.params.fcpu us : Int) - (ticks : Int)

/-- STEP and STEPSEC always end (R253): after acceptance STEP is no longer busy within 1022 turns of PROD, and STEPSEC
with initial budget `B0` within `1022 * B0`, whatever the units reply and the other agents do. -/
def Obligations.SteppingCommandsEnd : Prop :=
  (∀ (s s0 : State) (turns : List Agent), Inv s → accepting s = true → exec .step s = .next s0 →
    1022 ≤ turns.count .prod → ∃ t, runCommand turns s0 = .next t ∧ busy t = false) ∧
  (∀ (s s0 : State) (us : BitVec 24) (turns : List Agent), Inv s → accepting s = true →
    exec (.stepsec us) s = .next s0 → 1022 * tickBudget s.params.fcpu us ≤ turns.count .prod →
    ∃ t, runCommand turns s0 = .next t ∧ busy t = false)

/-! ## The sample path (spec/42_sample_path.md) -/

/-- R165, the audio tick: unconfigured, nothing changes, whatever RATE and ACC hold; else, with ACC and RATE in the
ranges the invariant gives a configured divider, ACC takes `ACC + RATE`, and where that reaches `F_CPU`, `F_CPU` is
subtracted, the audio unit's output is read, passes the chain and, if attached, is pushed. -/
def Obligations.AudioTickRule : Prop :=
  ∀ s : State,
    (s.prod.path.cfgValid = false → samplePath s = .next s) ∧
    (s.prod.path.cfgValid = true → s.params.fcpu < 2 ^ 31 → s.prod.path.acc.toNat < s.params.fcpu →
      s.prod.path.rate.toNat ≤ s.params.fcpu →
      s.prod.path.acc.toNat + s.prod.path.rate.toNat < s.params.fcpu →
      ∃ a, samplePath s = .next { s with prod := { s.prod with path := { s.prod.path with acc := a } } } ∧
        a.toNat = s.prod.path.acc.toNat + s.prod.path.rate.toNat) ∧
    (s.prod.path.cfgValid = true → s.params.fcpu < 2 ^ 31 → s.prod.path.acc.toNat < s.params.fcpu →
      s.prod.path.rate.toNat ≤ s.params.fcpu →
      s.params.fcpu ≤ s.prod.path.acc.toNat + s.prod.path.rate.toNat →
      ∃ (a : Word) (x : F32) (s1 s2 : State) (y : F32),
        a.toNat = s.prod.path.acc.toNat + s.prod.path.rate.toNat - s.params.fcpu ∧
        (x, s1) = apuOut { s with prod := { s.prod with path := { s.prod.path with acc := a } } } ∧
        (y, s2) = chain x s1 ∧
        samplePath s = .next (if s.prod.attached = true then push s2 y else s2))

/-- The divider laws (R167): after `n` audio ticks with a legal rate, `ACC = (ACC0 + n*R) mod F_CPU` and the divider
has fired `floor((ACC0 + n*R) / F_CPU)` times; `F_CPU` ticks give exactly `R` firings and the same ACC. -/
def Obligations.DividerLaw : Prop :=
  ∀ (s t : State) (n : Nat), s.params.fcpu < 2 ^ 31 → s.prod.path.acc.toNat < s.params.fcpu →
    s.prod.path.cfgValid = true → rateLegal s.params.fcpu s.prod.path.rate = true →
    audioTicks n s = .next t →
    t.prod.path.acc.toNat = (s.prod.path.acc.toNat + n * s.prod.path.rate.toNat) % s.params.fcpu ∧
    (t.out.calls.filter isSampleRead).length =
      (s.out.calls.filter isSampleRead).length +
        (s.prod.path.acc.toNat + n * s.prod.path.rate.toNat) / s.params.fcpu ∧
    (n = s.params.fcpu →
      t.prod.path.acc = s.prod.path.acc ∧
      (t.out.calls.filter isSampleRead).length =
        (s.out.calls.filter isSampleRead).length + s.prod.path.rate.toNat)

/-- R173, one step of a filter stage: `y` is the stage arithmetic of `x`, `X1` and `Y1` with the stage's coefficients;
`X1 <- x`, `Y1 <- y`; the other stages and every other register keep their values. The default arithmetic (R174) is
`(B0 * x + B1 * X1) - A1 * Y1`, each operation rounded once, and its NaN result is some quiet NaN (R175). -/
def Obligations.StageRule : Prop :=
  ∀ (i : Stage) (x : F32) (s : State) (c : Coef) (st : StageState) (v : F32),
    c = s.prod.path.coef.get i → st = s.prod.path.fstate.get i → v = stageValue s.params.arith c st x →
    (stageStep i x s).2.prod =
      { s.prod with path :=
        { s.prod.path with fstate := s.prod.path.fstate.set i ⟨x, (stageStep i x s).1⟩ } } ∧
    (stageStep i x s).2.cons = s.cons ∧ (stageStep i x s).2.mem = s.mem ∧ (stageStep i x s).2.out = s.out ∧
    (s.params.arith = .unfused →
      v = subF32 (addF32 (mulF32 c.b0 x) (mulF32 c.b1 st.x1)) (mulF32 c.a1 st.y1)) ∧
    (isNaN v = false → (stageStep i x s).1 = v) ∧
    (isNaN v = true → s.params.arith = .unfused →
      isNaN (stageStep i x s).1 = true ∧ (stageStep i x s).1.getLsbD 22 = true)

/-- The default arithmetic passes NaNs on (R175): where the input of a stage, or its `X1` or `Y1`, is a NaN, so is its
output; so a NaN in the last stage's `Y1` makes every later output of the chain a NaN. -/
def Obligations.NaNStays : Prop :=
  (∀ (i : Stage) (x : F32) (s : State), s.params.arith = .unfused →
    (isNaN x = true ∨ isNaN (s.prod.path.fstate.get i).x1 = true ∨ isNaN (s.prod.path.fstate.get i).y1 = true) →
    isNaN (stageStep i x s).1 = true) ∧
  (∀ (x : F32) (s : State), s.params.arith = .unfused → isNaN s.prod.path.fstate.s2.y1 = true →
    isNaN (chain x s).1 = true ∧ isNaN (chain x s).2.prod.path.fstate.s2.y1 = true)

/-- A constant input to a high-pass stage of the default design (R176): `B1 = -B0`, and where the previous input equals
the input and their product is a number, the stage answers `0 - A1 * Y1`. -/
def Obligations.ConstantInputDecays : Prop :=
  (∀ (rate : BitVec 24) (fc : F32), isNaN (bilinearDesign rate fc .hp).b0 = false →
    (bilinearDesign rate fc .hp).b1 = negF32 (bilinearDesign rate fc .hp).b0) ∧
  (∀ b0 a1 x y1 : F32, isFinite (mulF32 b0 x) = true →
    unfusedArith b0 (negF32 b0) a1 x x y1 = subF32 0x00000000#32 (mulF32 a1 y1))

/-- Rounding is to the nearest binary32 value, ties to even (R10, R174): no finite binary32 value lies nearer to the
exact `m * 2^e` than the finite result does, and where another value lies as near, the result's last bit is 0. -/
def Obligations.RoundNearestEven : Prop :=
  ∀ (neg : Bool) (m : Nat) (e : Int) (w : F32),
    isFinite (roundF32 neg m e) = true → isFinite w = true →
    |f32Value (roundF32 neg m e) - exactValue neg m e| ≤ |f32Value w - exactValue neg m e| ∧
    (|f32Value w - exactValue neg m e| = |f32Value (roundF32 neg m e) - exactValue neg m e| →
      f32Value w ≠ f32Value (roundF32 neg m e) → (roundF32 neg m e).getLsbD 0 = false)

/-- Addition, subtraction and multiplication of finite values are the rounding of the exact result (R10, R174). -/
def Obligations.ArithmeticRoundsExact : Prop :=
  ∀ a b : F32, isFinite a = true → isFinite b = true →
    (f32Value a + f32Value b ≠ 0 →
      ∃ neg m e, exactValue neg m e = f32Value a + f32Value b ∧ addF32 a b = roundF32 neg m e) ∧
    (f32Value a - f32Value b ≠ 0 →
      ∃ neg m e, exactValue neg m e = f32Value a - f32Value b ∧ subF32 a b = roundF32 neg m e) ∧
    (∃ neg m e, exactValue neg m e = f32Value a * f32Value b ∧ mulF32 a b = roundF32 neg m e)

/-! ## The FIFO (spec/20_memory.md, 42_sample_path.md R169, 43_consumer.md) -/

/-- R169, the push: full in the producer's view, nothing changes; else entry `WR_PTR mod CAP` takes the sample, every
other entry keeps what it held, and WR_PTR moves on modulo `2*CAP`. -/
def Obligations.PushRule : Prop :=
  ∀ (s : State) (y : F32),
    (s.countP = s.params.cap → push s y = s) ∧
    (s.countP ≠ s.params.cap →
      (push s y).prod = { s.prod with wrPtr := (s.prod.wrPtr + 1) % (2 * s.params.cap) } ∧
      memRead (push s y).mem (s.prod.wrPtr % s.params.cap) = y ∧
      (∀ i, i ≠ s.prod.wrPtr % s.params.cap → (push s y).mem.cell i = s.mem.cell i) ∧
      (push s y).cons = s.cons ∧ (push s y).out = s.out ∧ (push s y).world = s.world ∧
      (push s y).params = s.params)

/-- The FIFO is a queue (R80, R83): a turn of PROD leaves the queue as it is or adds one sample at its end; a turn of
CONS leaves it or takes samples from its front, no more than the consumer sees; the synchronisers leave it. -/
def Obligations.FifoRefinesQueue : Prop :=
  ∀ (a : Agent) (s t : State), Inv s → agentTurn a s = .next t →
    (a = .prod → t.queue = s.queue ∨ ∃ y, t.queue = s.queue ++ [y]) ∧
    (a = .cons → ∃ k, k ≤ s.countC ∧ t.queue = s.queue.drop k) ∧
    ((a = .syncW ∨ a = .syncR) → t.queue = s.queue)

/-- A popped sample is the oldest in the FIFO (R80): a FRAME that the consumer's view gives a sample emits the head of
the queue and leaves the rest. -/
def Obligations.PopTakesOldest : Prop :=
  ∀ s : State, Inv s → s.cons.channels ≠ 0#8 → s.cons.rdPtr ≠ s.cons.wrSync →
    ∃ t v, exec .frame s = .next t ∧ s.queue = v :: t.queue ∧ t.cons.outSample = v ∧
      t.out.frames = s.out.frames ++ [⟨v, s.cons.channels⟩]

/-- R79: every step keeps `0 <= count_c <= count <= count_p <= CAP`, with every pointer below `2*CAP`; and it holds at
power-on. -/
def Obligations.OccupancyInvariant : Prop :=
  (∀ s t : State, FifoOk s → step s = .next t → FifoOk t) ∧
  (∀ (p : Params) (w : World), paramsValid p = true → FifoOk (State.powerOn p w))

/-- A callback of `n` frames (R194): with `m` samples in the consumer's view it emits the `min n m` oldest and then
silence, one value per frame; in an interleaved buffer the element at `i*CH + ch` is frame `i`'s value. -/
def Obligations.CallbackLaw : Prop :=
  (∀ (s : State) (n : Nat), Inv s → s.cons.channels ≠ 0#8 →
    ∃ t, callback n s = .next t ∧ t.prod = s.prod ∧ t.mem = s.mem ∧
      t.countC = s.countC - n ∧
      t.out.frames = s.out.frames ++
        ((s.queue.take (min n s.countC)).map (fun v => ⟨v, s.cons.channels⟩) ++
          List.replicate (n - s.countC) ⟨0#32, s.cons.channels⟩)) ∧
  (∀ (fs : List Frame) (ch : BitVec 8) (i j : Nat) (f : Frame), (∀ g ∈ fs, g.channels = ch) →
    fs[i]? = some f → j < ch.toNat → (interleave fs)[i * ch.toNat + j]? = some f.value)

/-- R23, the synchronisers: each copies its pointer, in every state, and changes nothing else; and in every infinite run
each of them steps infinitely often. So the crossing delivers (R198): after SYNC_W the consumer sees every queued
sample, after SYNC_R the producer sees every freed entry; in a run in which PROD pushes no more, the consumer sees every
queued sample from some point on, and where CONS pops and flushes no more, the producer sees every freed entry. -/
def Obligations.SynchronisersCopy : Prop :=
  (∀ s : State,
    agentTurn .syncW s = .next { s with cons := { s.cons with wrSync := s.prod.wrPtr } } ∧
    agentTurn .syncR s = .next { s with prod := { s.prod with rdSync := s.cons.rdPtr } } ∧
    (∀ t, agentTurn .syncW s = .next t → t.countC = t.count ∧ t.count = s.count) ∧
    (∀ t, agentTurn .syncR s = .next t → t.countP = t.count ∧ t.count = s.count)) ∧
  (∀ r : Nat → State, IsRun r → WeaklyFair r) ∧
  (∀ (r : Nat → State) (n : Nat), IsRun r → (∀ m, n ≤ m → (r m).prod.wrPtr = (r n).prod.wrPtr) →
    ∃ m, n ≤ m ∧ ∀ l, m ≤ l → (r l).cons.wrSync = (r n).prod.wrPtr ∧ (r l).countC = (r l).count) ∧
  (∀ (r : Nat → State) (n : Nat), IsRun r → (∀ m, n ≤ m → (r m).cons.rdPtr = (r n).cons.rdPtr) →
    ∃ m, n ≤ m ∧ ∀ l, m ≤ l → (r l).prod.rdSync = (r n).cons.rdPtr ∧ (r l).countP = (r l).count)

/-! ## The two domains (spec/20_memory.md R82, R85) -/

/-- Nothing but the FIFO crosses: a turn of PROD changes nothing of the consumer domain, and of the memory at most the
entry `WR_PTR mod CAP`; a turn of CONS changes nothing of the producer domain and nothing of the memory. Neither
changes a parameter. -/
def Obligations.DomainsIsolated : Prop :=
  (∀ s t : State, prodTurn s = .next t →
    t.params = s.params ∧ (∀ i, i ≠ s.prod.wrPtr % s.params.cap → t.mem.cell i = s.mem.cell i) ∧
    t.cons = s.cons ∧ t.out.frames = s.out.frames) ∧
  (∀ s t : State, consTurn s = .next t →
    t.params = s.params ∧ t.mem = s.mem ∧ t.prod = s.prod ∧ t.out.calls = s.out.calls ∧ t.out.sink = s.out.sink)

/-- What CONS does depends on nothing of the producer domain, and what PROD does on nothing of the consumer domain
(R82): turns from states that differ only there come to the same registers, memory and output of their own domain. -/
def Obligations.DomainsDoNotSeeEachOther : Prop :=
  (∀ (s t : State) (p : Producer), consTurn s = .next t →
    consTurn { s with prod := p } = .next { t with prod := p }) ∧
  (∀ (s t : State) (c : Consumer), prodTurn s = .next t →
    prodTurn { s with cons := c } = .next { t with cons := c })

/-! ## Faults (spec/60_exceptions.md) -/

/-- R214 and R219: a producer fault writes ERROR as `{0, unit, code}` and halts PROD; a consumer fault sets CFAULT and
keeps the first code. Neither changes anything else. -/
def Obligations.FaultsAreRecorded : Prop :=
  (∀ (s : State) (c : FaultCode) (u : BitVec 3),
    ∃ e, raiseFault s c u = { s with prod := { s.prod with error := e, phase := .halt } } ∧
      e.extractLsb' 0 8 = c.code ∧ e.extractLsb' 8 3 = u ∧ e.extractLsb' 11 21 = 0#21) ∧
  (∀ (s : State) (c : CFaultCode),
    ∃ e, raiseCFault s c = { s with cons := { s.cons with cerror := e, cfault := true } } ∧
      (s.cons.cerror ≠ 0#32 → e = s.cons.cerror) ∧
      (s.cons.cerror = 0#32 → e.toNat = c.code.toNat))

/-- No step clears a fault (R220): HALT and ERROR stay whatever steps, with every register of the producer domain but
RD_SYNC; CFAULT stays, and so does a CERROR that is not zero. -/
def Obligations.FaultsStay : Prop :=
  ∀ s t : State, step s = .next t →
    (s.prod.phase = .halt → s.prod.stream = .none →
      t.prod = { s.prod with rdSync := t.prod.rdSync } ∧ t.out.calls = s.out.calls ∧
        t.out.sink = s.out.sink ∧ t.mem = s.mem) ∧
    (s.cons.cfault = true → t.cons.cfault = true) ∧
    (s.cons.cerror ≠ 0#32 → t.cons.cerror = s.cons.cerror)

/-! ## The bridge record (spec/41_state_codec.md) -/

/-- R140: the record is 71 bytes, each field at its offset, least significant byte first. -/
def Obligations.RecordLayout : Prop :=
  ∀ x : SamplePath,
    (bridgeRecord x).length = 71 ∧ byteAt (bridgeRecord x) 0 = 0x01#8 ∧
    byteAt (bridgeRecord x) 1 = (if x.cfgValid then 0x01#8 else 0x00#8) ∧
    byteAt (bridgeRecord x) 70 = 0x01#8 ∧
    (∀ j, j < 4 → (byteAt (bridgeRecord x) (2 + j)).toNat = x.rate.toNat / 256 ^ j % 256 ∧
      (byteAt (bridgeRecord x) (6 + j)).toNat = x.acc.toNat / 256 ^ j % 256) ∧
    (∀ (i : Stage) (n j : Nat), n = (match i with | .s0 => 0 | .s1 => 1 | .s2 => 2) → j < 4 →
      (byteAt (bridgeRecord x) (10 + 4 * (3 * n) + j)).toNat = (x.coef.get i).b0.toNat / 256 ^ j % 256 ∧
      (byteAt (bridgeRecord x) (10 + 4 * (3 * n + 1) + j)).toNat = (x.coef.get i).b1.toNat / 256 ^ j % 256 ∧
      (byteAt (bridgeRecord x) (10 + 4 * (3 * n + 2) + j)).toNat = (x.coef.get i).a1.toNat / 256 ^ j % 256 ∧
      (byteAt (bridgeRecord x) (46 + 8 * n + j)).toNat = (x.fstate.get i).x1.toNat / 256 ^ j % 256 ∧
      (byteAt (bridgeRecord x) (50 + 8 * n + j)).toNat = (x.fstate.get i).y1.toNat / 256 ^ j % 256)

/-- The round trip (R147): the record that SNAPSHOT writes in block A, where the sink takes it at once, read by RESTORE in
block B of the same `F_CPU`, gives B exactly A's CFG_VALID, RATE, ACC, COEF and FSTATE, and changes nothing else of B's
registers. -/
def Obligations.SaveRestoreRoundTrip : Prop :=
  ∀ (a ta b : State) (bytes : List Byte) (rest : List SourceItem),
    Inv a → accepting a = true → exec .snapshot a = .next ta → ta.prod.stream = .none →
    ta.out.sink = a.out.sink ++ bytes →
    accepting b = true → b.params.fcpu = a.params.fcpu → b.world.source = bytes.map .byte ++ rest →
    ∃ tb, exec .restore b = .next tb ∧ tb.prod = { b.prod with path := a.prod.path } ∧
      tb.cons = b.cons ∧ tb.mem = b.mem ∧ tb.world.source = rest

/-! ## Reset and the read ports (spec/70_reset_and_hazards.md R240, spec/10_state.md R31, R45, R53, R54) -/

/-- R240: at power-on every register of both read maps reads its power-on value, the sequencing state and the handshakes
are at theirs, no frame has been put out, and nothing is known of the sample memory. -/
def Obligations.PowerOnValues : Prop :=
  ∀ (p : Params) (w : World), paramsValid p = true →
    ∀ s, s = State.powerOn p w →
      (∀ a : BitVec 8, a.toNat ≠ 0x02 → a.toNat ≠ 0x03 → prodRead s a = 0#32) ∧
      (prodRead s 0x02#8).toNat = p.fcpu ∧ (prodRead s 0x03#8).toNat = p.cap ∧
      consRead s 0x00#8 = 0x00000002#32 ∧ (∀ a : BitVec 8, a.toNat ≠ 0x00 → consRead s a = 0#32) ∧
      s.prod.phase = .idle ∧ s.prod.mode = .single ∧ s.prod.curC = 0#8 ∧ s.prod.k = 0#10 ∧
      s.prod.frame0 = 0#64 ∧ cmdReady s = true ∧ ccmdReady s = true ∧ stOutValid s = false ∧
      stInReady s = false ∧ s.out.frames = [] ∧ (∀ i, s.mem.cell i = none)

/-- The power-on state meets the launch premise `CleanEntry` (R261) and the invariant of every run; the reset state is
the power-on state of a valid instance. -/
def Obligations.PowerOnIsClean : Prop :=
  (∀ (p : Params) (w : World), paramsValid p = true → CleanEntry (State.powerOn p w) ∧ Inv (State.powerOn p w)) ∧
  Inv State.reset

/-- The status views (R31, R45): at read address 0x00, STATUS is BUSY, FAULT, CFG_VALID, ATTACHED in bits 0 to 3 and
CSTATUS is CFAULT, VEMPTY in bits 0 and 1; every other bit reads 0. They read 0x00000000 and 0x00000002 at power-on. -/
def Obligations.StatusViews : Prop :=
  (∀ s : State,
    prodRead s 0x00#8 = statusWord s ∧ consRead s 0x00#8 = cstatusWord s ∧
    (statusWord s).getLsbD 0 =
      decide (s.prod.phase = .cpu ∨ s.prod.phase = .vid ∨ s.prod.phase = .aud ∨ s.prod.phase = .stepEnd) ∧
    (statusWord s).getLsbD 1 = decide (s.prod.phase = .halt) ∧
    (statusWord s).getLsbD 2 = s.prod.path.cfgValid ∧ (statusWord s).getLsbD 3 = s.prod.attached ∧
    (∀ i, 4 ≤ i → (statusWord s).getLsbD i = false) ∧
    (cstatusWord s).getLsbD 0 = s.cons.cfault ∧
    (cstatusWord s).getLsbD 1 = decide (s.cons.rdPtr = s.cons.wrSync) ∧
    (∀ i, 2 ≤ i → (cstatusWord s).getLsbD i = false)) ∧
  (∀ (p : Params) (w : World), statusWord (State.powerOn p w) = 0x00000000#32 ∧
    cstatusWord (State.powerOn p w) = 0x00000002#32)

/-- The read maps (R53, R54): each listed address reads its register, the wide ones low word first, and every other
address reads zero. -/
def Obligations.ReadMaps : Prop :=
  ∀ s : State, Inv s →
    prodRead s 0x00#8 = statusWord s ∧ prodRead s 0x01#8 = s.prod.error ∧
    (prodRead s 0x02#8).toNat = s.params.fcpu ∧ (prodRead s 0x03#8).toNat = s.params.cap ∧
    (prodRead s 0x04#8).toNat = s.prod.path.rate.toNat ∧ prodRead s 0x05#8 = s.prod.path.acc ∧
    (prodRead s 0x06#8).toNat = s.prod.lastC.toNat ∧
    (prodRead s 0x08#8 ++ prodRead s 0x07#8 : BitVec 64) = s.prod.total ∧
    (prodRead s 0x0A#8 ++ prodRead s 0x09#8 : BitVec 64) = s.prod.budget ∧
    (prodRead s 0x0B#8).toNat = s.prod.wrPtr ∧ (prodRead s 0x0C#8).toNat = s.prod.rdSync ∧
    (∀ (i : Stage) (n : Nat), n = (match i with | .s0 => 0 | .s1 => 1 | .s2 => 2) →
      prodRead s (BitVec.ofNat 8 (0x10 + 3 * n)) = (s.prod.path.coef.get i).b0 ∧
      prodRead s (BitVec.ofNat 8 (0x11 + 3 * n)) = (s.prod.path.coef.get i).b1 ∧
      prodRead s (BitVec.ofNat 8 (0x12 + 3 * n)) = (s.prod.path.coef.get i).a1 ∧
      prodRead s (BitVec.ofNat 8 (0x20 + 2 * n)) = (s.prod.path.fstate.get i).x1 ∧
      prodRead s (BitVec.ofNat 8 (0x21 + 2 * n)) = (s.prod.path.fstate.get i).y1) ∧
    (∀ a : BitVec 8, ((0x0D ≤ a.toNat ∧ a.toNat ≤ 0x0F) ∨ (0x19 ≤ a.toNat ∧ a.toNat ≤ 0x1F) ∨
      0x26 ≤ a.toNat) → prodRead s a = 0#32) ∧
    consRead s 0x00#8 = cstatusWord s ∧ consRead s 0x01#8 = s.cons.cerror ∧
    (consRead s 0x02#8).toNat = s.cons.channels.toNat ∧
    (consRead s 0x03#8).toNat = s.cons.rdPtr ∧ (consRead s 0x04#8).toNat = s.cons.wrSync ∧
    consRead s 0x05#8 = s.cons.outSample ∧ (∀ a : BitVec 8, 0x06 ≤ a.toNat → consRead s a = 0#32)

/-! ## The machine's step -/

/-- A step of an instance within its constraints is the turn of the agent the schedule names. So a step runs the decoded
command: where the schedule names PROD, PROD accepts, and the word offered decodes to `i`,
the step is `exec i` with the schedule's and the port's entries taken; likewise for CONS and its port. An instance that
breaks a constraint of R7 is refused. -/
def Obligations.StepRunsDecoded : Prop :=
  (∀ s : State, paramsValid s.params = true → step s = agentTurn (takeAgent s).1 (takeAgent s).2) ∧
  (∀ (s : State) (w : Word) (i : Instr), paramsValid s.params = true → (takeAgent s).1 = .prod →
    accepting s = true → (takeCmd (takeAgent s).2).1 = some w → decode .producer w = some i →
    step s = exec i (takeCmd (takeAgent s).2).2) ∧
  (∀ (s : State) (w : Word) (i : Instr), paramsValid s.params = true → (takeAgent s).1 = .cons →
    (takeCcmd (takeAgent s).2).1 = some w → decode .consumer w = some i →
    step s = exec i (takeCcmd (takeAgent s).2).2) ∧
  (∀ s : State, paramsValid s.params = false → step s = .refused .badInstance)

/-- A word placed by `withFetchWord` is the command the very next step runs: a consumer command from the state as it
is, a producer command from the same state with PROD waiting in IDLE. -/
def Obligations.PlacedWordRuns : Prop :=
  ∀ (s : State) (i : Instr), paramsValid s.params = true →
    (i.mnemonic.port = .consumer → step (s.withFetchWord 32 (encode i).toNat) = exec i s) ∧
    (i.mnemonic.port = .producer →
      step (s.withFetchWord 32 (encode i).toNat) =
        exec i { s with prod := { s.prod with phase := .idle, stream := .none } })

/-- The invariant (R32, R35, R38, R46, R55, R72, R79 together): from every state that meets it, every step answers a
next state that meets it, with the same parameters. No fault and no refusal of the model is ever reached. -/
def Obligations.StepKeepsInvariant : Prop :=
  ∀ s : State, Inv s → ∃ t, step s = .next t ∧ Inv t ∧ t.params = s.params

/-! ## Frames -/

/-- Frame of the producer's commands, in the step that accepts them: none touches the consumer domain, an entry of the
memory, a pointer, LAST_C, the step in progress, a parameter or a frame emitted. -/
def Obligations.FrameOfProducerCommands : Prop :=
  ∀ (i : Instr) (s t : State), i.mnemonic.port = .producer → exec i s = .next t →
    t.params = s.params ∧ t.cons = s.cons ∧ (∀ n, t.mem.cell n = s.mem.cell n) ∧
    t.prod.wrPtr = s.prod.wrPtr ∧ t.prod.rdSync = s.prod.rdSync ∧ t.prod.lastC = s.prod.lastC ∧
    t.prod.curC = s.prod.curC ∧ t.prod.k = s.prod.k ∧ t.out.frames = s.out.frames

/-- Frame of the stepping commands, in the step that accepts them: STEP, STEPFRAME and STEPSEC change the sequencing state
and their own counter only; RESET and SETBTN change no register at all. What STEP, STEPFRAME and STEPSEC do in their
later PROD steps the rules of the phases say. -/
def Obligations.FrameOfSteppingCommands : Prop :=
  ∀ (i : Instr) (s t : State), i ∈ [Instr.step, .stepframe, .reset] ∨ (∃ us, i = .stepsec us) ∨
      (∃ p b, i = .setbtn p b) → exec i s = .next t →
    t.prod.path = s.prod.path ∧ t.prod.attached = s.prod.attached ∧ t.prod.error = s.prod.error ∧
    t.prod.stream = s.prod.stream ∧ t.out.sink = s.out.sink ∧
    (i.mnemonic ≠ .STEPFRAME → t.prod.total = s.prod.total ∧ t.prod.frame0 = s.prod.frame0) ∧
    (i.mnemonic ≠ .STEPSEC → t.prod.budget = s.prod.budget) ∧
    ((i.mnemonic = .RESET ∨ i.mnemonic = .SETBTN) → t.prod = s.prod)

/-- Frame of the sample path's commands: CONFIG and DISABLE change CFG_VALID, RATE, ACC, COEF, FSTATE and, where CONFIG
faults, ERROR and the phase; ATTACH and DETACH change ATTACHED only. None calls a unit or sends a byte. -/
def Obligations.FrameOfSamplePathCommands : Prop :=
  ∀ (i : Instr) (s t : State), i.mnemonic ∈ [Mnemonic.CONFIG, .DISABLE, .ATTACH, .DETACH] → exec i s = .next t →
    t.out = s.out ∧ t.world = s.world ∧ t.prod.mode = s.prod.mode ∧ t.prod.frame0 = s.prod.frame0 ∧
    t.prod.total = s.prod.total ∧ t.prod.budget = s.prod.budget ∧ t.prod.stream = s.prod.stream ∧
    ((i.mnemonic = .ATTACH ∨ i.mnemonic = .DETACH) → t.prod.path = s.prod.path) ∧
    ((i.mnemonic = .CONFIG ∨ i.mnemonic = .DISABLE) → t.prod.attached = s.prod.attached) ∧
    (i.mnemonic ≠ .CONFIG → t.prod.error = s.prod.error ∧ t.prod.phase = s.prod.phase)

/-- Frame of the stream commands, in the step that accepts them: SNAPSHOT changes no register; RESTORE changes the
record's registers and, where it fails, ERROR and the phase. -/
def Obligations.FrameOfStreamCommands : Prop :=
  (∀ s t : State, exec .snapshot s = .next t →
    t.prod = { s.prod with stream := t.prod.stream } ∧ t.out.calls = s.out.calls) ∧
  (∀ s t : State, exec .restore s = .next t →
    t.prod = { s.prod with
      path := t.prod.path, error := t.prod.error, phase := t.prod.phase, stream := t.prod.stream } ∧
    t.out.sink = s.out.sink)

/-- Frame of the consumer's commands: none touches the producer domain, an entry of the memory, a parameter, a call or
the sink; FLUSH changes RD_PTR only; SETCH changes CHANNELS and the fault registers only; FRAME leaves CHANNELS and
WR_SYNC alone. -/
def Obligations.FrameOfConsumerCommands : Prop :=
  ∀ (i : Instr) (s t : State), i.mnemonic.port = .consumer → exec i s = .next t →
    t.params = s.params ∧ t.prod = s.prod ∧ (∀ n, t.mem.cell n = s.mem.cell n) ∧
    t.out.calls = s.out.calls ∧ t.out.sink = s.out.sink ∧ t.cons.wrSync = s.cons.wrSync ∧
    (i.mnemonic = .FLUSH → t.cons = { s.cons with rdPtr := t.cons.rdPtr } ∧ t.out = s.out) ∧
    (i.mnemonic = .SETCH →
      t.cons = { s.cons with
        channels := t.cons.channels, cerror := t.cons.cerror, cfault := t.cons.cfault } ∧ t.out = s.out) ∧
    (i.mnemonic = .FRAME → t.cons.channels = s.cons.channels)
end

