-- ==== Sys2Proof/Laws/Codec.lean ====
section
/-! SUPPORT. The bridge record field by field (spec/41_state_codec.md R140): its length, the value of a field of four
bytes, and each field of the record of a sample path. -/

namespace Sys2Proof.Machine

/-- A concatenation as a number: the high part counts multiples of `2^m`. -/
theorem toNat_append_arith {n m : Nat} (x : BitVec n) (y : BitVec m) :
    (x ++ y).toNat = x.toNat * 2 ^ m + y.toNat := by
  rw [BitVec.toNat_append, ← Nat.shiftLeft_add_eq_or_of_lt y.isLt, Nat.shiftLeft_eq]

/-- A 32-bit field is the little-endian value of its four bytes (R140). -/
theorem fieldAt_toNat (rec : List Byte) (i : Nat) : (fieldAt rec i).toNat = leValue rec i := by
  unfold fieldAt leValue
  rw [toNat_append_arith, toNat_append_arith, toNat_append_arith]
  omega

/-- The four bytes of a word, joined again, are the word. -/
theorem le32_joined (w : Word) :
    w.extractLsb' 24 8 ++ (w.extractLsb' 16 8 ++ (w.extractLsb' 8 8 ++ w.extractLsb' 0 8)) = w := by
  apply BitVec.eq_of_toNat_eq
  have hw := w.isLt
  simp only [toNat_append_arith, BitVec.extractLsb'_toNat, Nat.shiftRight_eq_div_pow]
  omega

/-- Byte `j` of a field is bits `8*j+7 : 8*j` of the word. -/
theorem le32_byte (w : Word) (j : Nat) (hj : j < 4) : ((le32 w).getD j 0#8).toNat = w.toNat / 256 ^ j % 256 := by
  have hw := w.isLt
  rcases j with _ | _ | _ | _ | j <;>
    first | omega | simp [le32, BitVec.extractLsb'_toNat, Nat.shiftRight_eq_div_pow]

/-- The bridge record has 71 bytes (R140). -/
@[simp] theorem bridgeRecord_length (x : SamplePath) : (bridgeRecord x).length = 71 := by
  simp [bridgeRecord, le32, coefBytes, fstateBytes]

/-- Byte `a.length + j` of a list that starts with `a` is byte `j` of the rest. -/
theorem byteAt_append (a b : List Byte) (i j : Nat) (h : i = a.length + j) : byteAt (a ++ b) i = byteAt b j := by
  subst h
  simp only [byteAt, List.getD_eq_getElem?_getD]
  rw [List.getElem?_append_right (by omega)]
  simp

/-- The field that starts a list is the word whose bytes start it. -/
theorem fieldAt_le32 (a b : List Byte) (w : Word) (i : Nat) (h : i = a.length) : fieldAt (a ++ (le32 w ++ b)) i = w := by
  unfold fieldAt
  rw [byteAt_append a _ _ 3 (by omega), byteAt_append a _ _ 2 (by omega), byteAt_append a _ _ 1 (by omega),
    byteAt_append a _ _ 0 (by omega)]
  exact le32_joined w

/-- The field number `n` of a run of words is the word number `n`. -/
theorem fieldAt_words (pre tail : List Byte) (ws : List Word) (n i : Nat) (w : Word) (h : ws[n]? = some w)
    (hi : i = pre.length + 4 * n) : fieldAt (pre ++ (ws.flatMap le32 ++ tail)) i = w := by
  induction ws generalizing pre n with
  | nil => simp at h
  | cons v rest ih =>
    cases n with
    | zero =>
      simp only [List.getElem?_cons_zero, Option.some.injEq] at h
      subst h
      rw [List.flatMap_cons, List.append_assoc]
      exact fieldAt_le32 pre _ v i (by omega)
    | succ n =>
      rw [List.flatMap_cons, List.append_assoc, ← List.append_assoc]
      exact ih (pre ++ le32 v) n (by simpa using h) (by simp [le32]; omega)

/-- The seventeen words of a record, in order (R140). -/
def recordWords (x : SamplePath) : List Word :=
  [x.rate.setWidth 32, x.acc, x.coef.s0.b0, x.coef.s0.b1, x.coef.s0.a1, x.coef.s1.b0, x.coef.s1.b1, x.coef.s1.a1,
    x.coef.s2.b0, x.coef.s2.b1, x.coef.s2.a1, x.fstate.s0.x1, x.fstate.s0.y1, x.fstate.s1.x1, x.fstate.s1.y1,
    x.fstate.s2.x1, x.fstate.s2.y1]

/-- The record is two bytes, its words, and the sentinel (R140). -/
theorem bridgeRecord_words (x : SamplePath) :
    bridgeRecord x =
      [0x01#8, if x.cfgValid then 0x01#8 else 0x00#8] ++ ((recordWords x).flatMap le32 ++ [0x01#8]) := by
  simp [bridgeRecord, recordWords, coefBytes, fstateBytes]

/-- The field of a record at offset `2 + 4*n` is its word number `n`. -/
theorem bridgeRecord_field (x : SamplePath) (n i : Nat) (w : Word) (h : (recordWords x)[n]? = some w)
    (hi : i = 2 + 4 * n) : fieldAt (bridgeRecord x) i = w := by
  rw [bridgeRecord_words]
  exact fieldAt_words _ _ _ n i w h hi

/-- A record's registers read back are the registers it was built from (R140, R143). -/
theorem recordPath_bridgeRecord (x : SamplePath) : recordPath (bridgeRecord x) = x := by
  have f := fun n i w h hi => bridgeRecord_field x n i w h hi
  obtain ⟨c, r, a, ⟨⟨b0, b1, b2⟩, ⟨b3, b4, b5⟩, ⟨b6, b7, b8⟩⟩, ⟨⟨x0, y0⟩, ⟨x1, y1⟩, ⟨x2, y2⟩⟩⟩ := x
  simp only [recordPath, coefAt, fstateAt]
  rw [f 0 _ _ rfl rfl, f 1 _ _ rfl rfl, f 2 _ _ rfl rfl, f 3 _ _ rfl rfl, f 4 _ _ rfl rfl, f 5 _ _ rfl rfl,
    f 6 _ _ rfl rfl, f 7 _ _ rfl rfl, f 8 _ _ rfl rfl, f 9 _ _ rfl rfl, f 10 _ _ rfl rfl, f 11 _ _ rfl rfl,
    f 12 _ _ rfl rfl, f 13 _ _ rfl rfl, f 14 _ _ rfl rfl, f 15 _ _ rfl rfl, f 16 _ _ rfl rfl]
  have hc : decide (byteAt (bridgeRecord ⟨c, r, a, ⟨⟨b0, b1, b2⟩, ⟨b3, b4, b5⟩, ⟨b6, b7, b8⟩⟩,
      ⟨⟨x0, y0⟩, ⟨x1, y1⟩, ⟨x2, y2⟩⟩⟩) 1 = 0x01#8) = c := by
    show decide ((if c then 0x01#8 else 0x00#8) = 0x01#8) = c
    cases c <;> rfl
  rw [hc]
  simp

end Sys2Proof.Machine
end

