-- ==== Sys2Proof/Laws/Fifo.lean ====
section
/-! SUPPORT. The FIFO pointers without their moduli: with every pointer below `2*CAP` (R39, R48), distance and
successor are case distinctions that linear arithmetic decides. -/

namespace Sys2Proof.Machine

/-- The distance of two pointers in range (R78). -/
theorem ptrDist_of_lt {cap a b : Nat} (ha : a < 2 * cap) (hb : b < 2 * cap) :
    ptrDist cap a b = if b ≤ a then a - b else a + 2 * cap - b := by
  unfold ptrDist
  split
  · rename_i h
    have : ((a : Int) - (b : Int)) = ((a - b : Nat) : Int) := by omega
    rw [this, ← Int.natCast_mod, Int.toNat_natCast, Nat.mod_eq_of_lt (by omega)]
  · rename_i h
    have h1 : ((a : Int) - (b : Int)) % ((2 * cap : Nat) : Int)
        = ((a : Int) - (b : Int) + ((2 * cap : Nat) : Int)) % ((2 * cap : Nat) : Int) := by simp
    have h2 : ((a : Int) - (b : Int) + ((2 * cap : Nat) : Int)) = ((a + 2 * cap - b : Nat) : Int) := by omega
    rw [h1, h2, ← Int.natCast_mod, Int.toNat_natCast, Nat.mod_eq_of_lt (by omega)]

/-- The successor of a pointer in range. -/
theorem ptrNext_of_lt {cap p : Nat} (h : p < 2 * cap) :
    ptrNext cap p = if p + 1 < 2 * cap then p + 1 else 0 := by
  unfold ptrNext
  split
  · exact Nat.mod_eq_of_lt ‹_›
  · have : p + 1 = 2 * cap := by omega
    rw [this, Nat.mod_self]

/-- A successor is in range. -/
theorem ptrNext_lt {cap p : Nat} (h : 0 < cap) : ptrNext cap p < 2 * cap :=
  Nat.mod_lt _ (by omega)

/-- A distance is below the modulus. -/
theorem ptrDist_lt {cap a b : Nat} (h : 0 < cap) : ptrDist cap a b < 2 * cap := by
  unfold ptrDist
  have h1 : (0 : Int) < ((2 * cap : Nat) : Int) := by omega
  have h2 := Int.emod_lt_of_pos ((a : Int) - (b : Int)) h1
  have h3 := Int.emod_nonneg ((a : Int) - (b : Int)) (by omega : ((2 * cap : Nat) : Int) ≠ 0)
  omega

/-- The entry a pointer names (R39, R48). -/
theorem entry_of_lt {cap p : Nat} (h : p < 2 * cap) : p % cap = if p < cap then p else p - cap := by
  split
  · exact Nat.mod_eq_of_lt ‹_›
  · rw [Nat.mod_eq_sub_mod (by omega), Nat.mod_eq_of_lt (by omega)]

/-- Stepping a pointer `j` times and naming the entry is naming entry `p + j`. -/
theorem entry_ptrNext (cap p j : Nat) : (ptrNext cap p + j) % cap = (p + (j + 1)) % cap := by
  unfold ptrNext
  have h : (p + 1) % (2 * cap) % cap = (p + 1) % cap := Nat.mod_mod_of_dvd _ ⟨2, by ring⟩
  rw [Nat.add_mod, h, ← Nat.add_mod]
  congr 1
  omega

@[simp] theorem queueFrom_zero (m : Memory) (cap rd : Nat) : queueFrom m cap rd 0 = [] := rfl

theorem queueFrom_succ (m : Memory) (cap rd n : Nat) :
    queueFrom m cap rd (n + 1) = memRead m (rd % cap) :: queueFrom m cap (ptrNext cap rd) n := rfl

@[simp] theorem queueFrom_length (m : Memory) (cap rd n : Nat) : (queueFrom m cap rd n).length = n := by
  induction n generalizing rd with
  | zero => rfl
  | succ n ih => simp [queueFrom_succ, ih]

/-- The `j`-th sample of the FIFO stands `j` entries after the read pointer. -/
theorem queueFrom_get (m : Memory) (cap rd n j : Nat) (h : j < n) :
    (queueFrom m cap rd n)[j]? = some (memRead m ((rd + j) % cap)) := by
  induction n generalizing rd j with
  | zero => omega
  | succ n ih =>
    cases j with
    | zero => simp [queueFrom_succ]
    | succ j => simp [queueFrom_succ, ih (ptrNext cap rd) j (by omega), entry_ptrNext]

end Sys2Proof.Machine
end

