-- ==== Sys2Proof/Laws/Memory.lean ====
section
/-! SUPPORT. The sample memory: a read after a write, and the canonical form that every write keeps. -/

namespace Sys2Proof.Machine

@[simp] theorem Memory.cell_nil (i : Nat) : Memory.cell [] i = none := rfl

theorem Memory.cell_cons (j : Nat) (v : Word) (rest : Memory) (i : Nat) :
    Memory.cell ((j, v) :: rest) i = if j = i then some v else Memory.cell rest i := rfl

/-- A write is seen at its own entry. -/
@[simp] theorem Memory.cell_write_same (m : Memory) (i : Nat) (v : Word) : (Memory.write m i v).cell i = some v := by
  induction m with
  | nil => simp [Memory.write, Memory.cell]
  | cons head rest ih =>
    obtain ⟨j, u⟩ := head
    simp only [Memory.write]
    split
    · simp [Memory.cell]
    · split
      · simp [Memory.cell]
      · rename_i _ hne
        simp [Memory.cell, Ne.symm hne, ih]

/-- A write leaves every other entry alone. -/
theorem Memory.cell_write_other (m : Memory) {i k : Nat} (v : Word) (h : k ≠ i) :
    (Memory.write m i v).cell k = m.cell k := by
  induction m with
  | nil => simp [Memory.write, Memory.cell, Ne.symm h]
  | cons head rest ih =>
    obtain ⟨j, u⟩ := head
    simp only [Memory.write]
    split
    · simp [Memory.cell, Ne.symm h]
    · split
      · rename_i _ heq
        subst heq
        simp [Memory.cell, Ne.symm h]
      · simp [Memory.cell, ih]

theorem Memory.cell_write (m : Memory) (i k : Nat) (v : Word) :
    (Memory.write m i v).cell k = if k = i then some v else m.cell k := by
  by_cases h : k = i
  · subst h; simp
  · simp [h, Memory.cell_write_other m v h]

/-- A write at or above the list's lower bound keeps the rising order. -/
theorem Memory.risesFrom_write (m : Memory) (lo i : Nat) (v : Word) (hlo : lo ≤ i)
    (h : Memory.risesFrom lo m = true) : Memory.risesFrom lo (Memory.write m i v) = true := by
  induction m generalizing lo with
  | nil => simp [Memory.write, Memory.risesFrom, hlo]
  | cons head rest ih =>
    obtain ⟨j, u⟩ := head
    simp only [Memory.risesFrom, Bool.and_eq_true, decide_eq_true_eq] at h
    simp only [Memory.write]
    split
    · rename_i hij
      simp only [Memory.risesFrom, Bool.and_eq_true, decide_eq_true_eq]
      exact ⟨hlo, by omega, h.2⟩
    · split
      · rename_i _ heq
        subst heq
        simp [Memory.risesFrom, h.1, h.2]
      · simp only [Memory.risesFrom, Bool.and_eq_true, decide_eq_true_eq]
        exact ⟨h.1, ih (j + 1) (by omega) h.2⟩

/-- Every write keeps the canonical form. -/
theorem Memory.wf_write (m : Memory) (i : Nat) (v : Word) (h : m.wf = true) : (Memory.write m i v).wf = true :=
  Memory.risesFrom_write m 0 i v (Nat.zero_le i) h

/-- An index below a rising list's lower bound is not listed. -/
theorem Memory.cell_below (m : Memory) (lo i : Nat) (hlo : i < lo) (h : Memory.risesFrom lo m = true) :
    m.cell i = none := by
  induction m generalizing lo with
  | nil => rfl
  | cons head rest ih =>
    obtain ⟨j, u⟩ := head
    simp only [Memory.risesFrom, Bool.and_eq_true, decide_eq_true_eq] at h
    have hne : j ≠ i := by omega
    simp only [Memory.cell, hne, if_false]
    exact ih (j + 1) (by omega) h.2

/-- Two canonical memories that read alike at every entry are equal data. -/
theorem Memory.eq_of_cells (m n : Memory) (lo : Nat) (hm : Memory.risesFrom lo m = true)
    (hn : Memory.risesFrom lo n = true) (h : ∀ i, m.cell i = n.cell i) : m = n := by
  induction m generalizing n lo with
  | nil =>
    cases n with
    | nil => rfl
    | cons head rest => have := h head.1; simp [Memory.cell] at this
  | cons head rest ih =>
    obtain ⟨j, u⟩ := head
    cases n with
    | nil => have := h j; simp [Memory.cell] at this
    | cons head' rest' =>
      obtain ⟨k, w⟩ := head'
      simp only [Memory.risesFrom, Bool.and_eq_true, decide_eq_true_eq] at hm hn
      have hjk : j = k := by
        by_contra hne
        rcases Nat.lt_or_gt_of_ne hne with hlt | hgt
        · have := h j
          have hb := Memory.cell_below rest' (k + 1) j (by omega) hn.2
          simp [Memory.cell, Ne.symm hne, hb] at this
        · have := h k
          have hb := Memory.cell_below rest (j + 1) k (by omega) hm.2
          simp [Memory.cell, hne, hb] at this
      subst hjk
      have hu : u = w := by simpa [Memory.cell] using h j
      subst hu
      congr 1
      refine ih rest' (j + 1) hm.2 hn.2 fun i => ?_
      by_cases hij : j = i
      · subst hij
        rw [Memory.cell_below rest (j + 1) j (by omega) hm.2, Memory.cell_below rest' (j + 1) j (by omega) hn.2]
      · simpa [Memory.cell, hij] using h i

/-- Equal reads mean equal memories, for memories in canonical form. -/
theorem Memory.ext_of_wf (m n : Memory) (hm : m.wf = true) (hn : n.wf = true)
    (h : ∀ i, m.cell i = n.cell i) : m = n :=
  Memory.eq_of_cells m n 0 hm hn h

/-- The power-on memory is in canonical form. -/
theorem Memory.powerOn_wf (p : Params) (w : World) : (State.powerOn p w).mem.wf = true := rfl

/-- A written entry reads as the word written, whatever the power-on contents were. -/
theorem memRead_write_same (m : Memory) (i : Nat) (v : Word) : memRead (m.write i v) i = v := by
  simp [memRead]

theorem memRead_write_other (m : Memory) {i k : Nat} (v : Word) (h : k ≠ i) :
    memRead (m.write i v) k = memRead m k := by
  simp [memRead, Memory.cell_write_other m v h]

end Sys2Proof.Machine
end

