-- ==== Sys2Proof/Laws/State.lean ====
section
/-! SUPPORT. One lemma per field of the state per update, so that no later proof unfolds a record update. -/

namespace Sys2Proof.Machine

/-! setProd -/

@[simp] theorem State.setProd_params (s : State) (p : Producer) : (s.setProd p).params = s.params := rfl
@[simp] theorem State.setProd_prod (s : State) (p : Producer) : (s.setProd p).prod = p := rfl
@[simp] theorem State.setProd_cons (s : State) (p : Producer) : (s.setProd p).cons = s.cons := rfl
@[simp] theorem State.setProd_mem (s : State) (p : Producer) : (s.setProd p).mem = s.mem := rfl
@[simp] theorem State.setProd_out (s : State) (p : Producer) : (s.setProd p).out = s.out := rfl
@[simp] theorem State.setProd_world (s : State) (p : Producer) : (s.setProd p).world = s.world := rfl

/-! setCons -/

@[simp] theorem State.setCons_params (s : State) (c : Consumer) : (s.setCons c).params = s.params := rfl
@[simp] theorem State.setCons_prod (s : State) (c : Consumer) : (s.setCons c).prod = s.prod := rfl
@[simp] theorem State.setCons_cons (s : State) (c : Consumer) : (s.setCons c).cons = c := rfl
@[simp] theorem State.setCons_mem (s : State) (c : Consumer) : (s.setCons c).mem = s.mem := rfl
@[simp] theorem State.setCons_out (s : State) (c : Consumer) : (s.setCons c).out = s.out := rfl
@[simp] theorem State.setCons_world (s : State) (c : Consumer) : (s.setCons c).world = s.world := rfl

/-! setMem -/

@[simp] theorem State.setMem_params (s : State) (m : Memory) : (s.setMem m).params = s.params := rfl
@[simp] theorem State.setMem_prod (s : State) (m : Memory) : (s.setMem m).prod = s.prod := rfl
@[simp] theorem State.setMem_cons (s : State) (m : Memory) : (s.setMem m).cons = s.cons := rfl
@[simp] theorem State.setMem_mem (s : State) (m : Memory) : (s.setMem m).mem = m := rfl
@[simp] theorem State.setMem_out (s : State) (m : Memory) : (s.setMem m).out = s.out := rfl
@[simp] theorem State.setMem_world (s : State) (m : Memory) : (s.setMem m).world = s.world := rfl

/-! setWorld -/

@[simp] theorem State.setWorld_params (s : State) (w : World) : (s.setWorld w).params = s.params := rfl
@[simp] theorem State.setWorld_prod (s : State) (w : World) : (s.setWorld w).prod = s.prod := rfl
@[simp] theorem State.setWorld_cons (s : State) (w : World) : (s.setWorld w).cons = s.cons := rfl
@[simp] theorem State.setWorld_mem (s : State) (w : World) : (s.setWorld w).mem = s.mem := rfl
@[simp] theorem State.setWorld_out (s : State) (w : World) : (s.setWorld w).out = s.out := rfl
@[simp] theorem State.setWorld_world (s : State) (w : World) : (s.setWorld w).world = w := rfl

/-! setOut -/

@[simp] theorem State.setOut_params (s : State) (t : Trace) : (s.setOut t).params = s.params := rfl
@[simp] theorem State.setOut_prod (s : State) (t : Trace) : (s.setOut t).prod = s.prod := rfl
@[simp] theorem State.setOut_cons (s : State) (t : Trace) : (s.setOut t).cons = s.cons := rfl
@[simp] theorem State.setOut_mem (s : State) (t : Trace) : (s.setOut t).mem = s.mem := rfl
@[simp] theorem State.setOut_out (s : State) (t : Trace) : (s.setOut t).out = t := rfl
@[simp] theorem State.setOut_world (s : State) (t : Trace) : (s.setOut t).world = s.world := rfl

/-! setPhase, setPath, setStream: the producer domain with one part changed. -/

@[simp] theorem State.setPhase_params (s : State) (p : Phase) : (s.setPhase p).params = s.params := rfl
@[simp] theorem State.setPhase_prod (s : State) (p : Phase) : (s.setPhase p).prod = { s.prod with phase := p } := rfl
@[simp] theorem State.setPhase_cons (s : State) (p : Phase) : (s.setPhase p).cons = s.cons := rfl
@[simp] theorem State.setPhase_mem (s : State) (p : Phase) : (s.setPhase p).mem = s.mem := rfl
@[simp] theorem State.setPhase_out (s : State) (p : Phase) : (s.setPhase p).out = s.out := rfl
@[simp] theorem State.setPhase_world (s : State) (p : Phase) : (s.setPhase p).world = s.world := rfl

@[simp] theorem State.setPath_params (s : State) (x : SamplePath) : (s.setPath x).params = s.params := rfl
@[simp] theorem State.setPath_prod (s : State) (x : SamplePath) : (s.setPath x).prod = { s.prod with path := x } := rfl
@[simp] theorem State.setPath_cons (s : State) (x : SamplePath) : (s.setPath x).cons = s.cons := rfl
@[simp] theorem State.setPath_mem (s : State) (x : SamplePath) : (s.setPath x).mem = s.mem := rfl
@[simp] theorem State.setPath_out (s : State) (x : SamplePath) : (s.setPath x).out = s.out := rfl
@[simp] theorem State.setPath_world (s : State) (x : SamplePath) : (s.setPath x).world = s.world := rfl

@[simp] theorem State.setStream_params (s : State) (f : InFlight) : (s.setStream f).params = s.params := rfl
@[simp] theorem State.setStream_prod (s : State) (f : InFlight) : (s.setStream f).prod = { s.prod with stream := f } := rfl
@[simp] theorem State.setStream_cons (s : State) (f : InFlight) : (s.setStream f).cons = s.cons := rfl
@[simp] theorem State.setStream_mem (s : State) (f : InFlight) : (s.setStream f).mem = s.mem := rfl
@[simp] theorem State.setStream_out (s : State) (f : InFlight) : (s.setStream f).out = s.out := rfl
@[simp] theorem State.setStream_world (s : State) (f : InFlight) : (s.setStream f).world = s.world := rfl

/-! The record of calls, the sink and the frames. -/

@[simp] theorem State.logCall_params (s : State) (c : ExtCall) : (s.logCall c).params = s.params := rfl
@[simp] theorem State.logCall_prod (s : State) (c : ExtCall) : (s.logCall c).prod = s.prod := rfl
@[simp] theorem State.logCall_cons (s : State) (c : ExtCall) : (s.logCall c).cons = s.cons := rfl
@[simp] theorem State.logCall_mem (s : State) (c : ExtCall) : (s.logCall c).mem = s.mem := rfl
@[simp] theorem State.logCall_out (s : State) (c : ExtCall) : (s.logCall c).out = { s.out with calls := s.out.calls ++ [c] } := rfl
@[simp] theorem State.logCall_world (s : State) (c : ExtCall) : (s.logCall c).world = s.world := rfl

@[simp] theorem sinkPut_params (s : State) (b : Byte) : (sinkPut s b).params = s.params := rfl
@[simp] theorem sinkPut_prod (s : State) (b : Byte) : (sinkPut s b).prod = s.prod := rfl
@[simp] theorem sinkPut_cons (s : State) (b : Byte) : (sinkPut s b).cons = s.cons := rfl
@[simp] theorem sinkPut_mem (s : State) (b : Byte) : (sinkPut s b).mem = s.mem := rfl
@[simp] theorem sinkPut_out (s : State) (b : Byte) : (sinkPut s b).out = { s.out with sink := s.out.sink ++ [b] } := rfl
@[simp] theorem sinkPut_world (s : State) (b : Byte) : (sinkPut s b).world = s.world := rfl

@[simp] theorem emitFrame_params (s : State) (v : F32) (n : BitVec 8): (emitFrame s v n).params = s.params := rfl
@[simp] theorem emitFrame_prod (s : State) (v : F32) (n : BitVec 8): (emitFrame s v n).prod = s.prod := rfl
@[simp] theorem emitFrame_cons (s : State) (v : F32) (n : BitVec 8): (emitFrame s v n).cons = s.cons := rfl
@[simp] theorem emitFrame_mem (s : State) (v : F32) (n : BitVec 8): (emitFrame s v n).mem = s.mem := rfl
@[simp] theorem emitFrame_out (s : State) (v : F32) (n : BitVec 8): (emitFrame s v n).out = { s.out with frames := s.out.frames ++ [⟨v, n⟩] } := rfl
@[simp] theorem emitFrame_world (s : State) (v : F32) (n : BitVec 8): (emitFrame s v n).world = s.world := rfl

@[simp] theorem btnWrite_params (s : State) (p : Player) (b : BitVec 8): (btnWrite s p b).params = s.params := rfl
@[simp] theorem btnWrite_prod (s : State) (p : Player) (b : BitVec 8): (btnWrite s p b).prod = s.prod := rfl
@[simp] theorem btnWrite_cons (s : State) (p : Player) (b : BitVec 8): (btnWrite s p b).cons = s.cons := rfl
@[simp] theorem btnWrite_mem (s : State) (p : Player) (b : BitVec 8): (btnWrite s p b).mem = s.mem := rfl
@[simp] theorem btnWrite_out (s : State) (p : Player) (b : BitVec 8): (btnWrite s p b).out = { s.out with calls := s.out.calls ++ [.btnWrite p b] } := rfl
@[simp] theorem btnWrite_world (s : State) (p : Player) (b : BitVec 8): (btnWrite s p b).world = s.world := rfl

@[simp] theorem procReset_params (s : State) : (procReset s).params = s.params := rfl
@[simp] theorem procReset_prod (s : State) : (procReset s).prod = s.prod := rfl
@[simp] theorem procReset_cons (s : State) : (procReset s).cons = s.cons := rfl
@[simp] theorem procReset_mem (s : State) : (procReset s).mem = s.mem := rfl
@[simp] theorem procReset_out (s : State) : (procReset s).out = { s.out with calls := s.out.calls ++ [.procReset] } := rfl
@[simp] theorem procReset_world (s : State) : (procReset s).world = s.world := rfl

/-! Faults and synchronisers. -/

@[simp] theorem raiseFault_params (s : State) (c : FaultCode) (u : BitVec 3) :
    (raiseFault s c u).params = s.params := rfl
@[simp] theorem raiseFault_prod (s : State) (c : FaultCode) (u : BitVec 3) :
    (raiseFault s c u).prod = { s.prod with error := errorWord c u, phase := .halt } := rfl
@[simp] theorem raiseFault_cons (s : State) (c : FaultCode) (u : BitVec 3) :
    (raiseFault s c u).cons = s.cons := rfl
@[simp] theorem raiseFault_mem (s : State) (c : FaultCode) (u : BitVec 3) :
    (raiseFault s c u).mem = s.mem := rfl
@[simp] theorem raiseFault_out (s : State) (c : FaultCode) (u : BitVec 3) :
    (raiseFault s c u).out = s.out := rfl
@[simp] theorem raiseFault_world (s : State) (c : FaultCode) (u : BitVec 3) :
    (raiseFault s c u).world = s.world := rfl

@[simp] theorem raiseCFault_params (s : State) (c : CFaultCode) :
    (raiseCFault s c).params = s.params := rfl
@[simp] theorem raiseCFault_prod (s : State) (c : CFaultCode) :
    (raiseCFault s c).prod = s.prod := rfl
@[simp] theorem raiseCFault_cons (s : State) (c : CFaultCode) :
    (raiseCFault s c).cons = { s.cons with cerror := if s.cons.cerror = 0#32 then c.code.setWidth 32 else s.cons.cerror, cfault := true } := rfl
@[simp] theorem raiseCFault_mem (s : State) (c : CFaultCode) :
    (raiseCFault s c).mem = s.mem := rfl
@[simp] theorem raiseCFault_out (s : State) (c : CFaultCode) :
    (raiseCFault s c).out = s.out := rfl
@[simp] theorem raiseCFault_world (s : State) (c : CFaultCode) :
    (raiseCFault s c).world = s.world := rfl

@[simp] theorem syncW_params (s : State) : (syncW s).params = s.params := rfl
@[simp] theorem syncW_prod (s : State) : (syncW s).prod = s.prod := rfl
@[simp] theorem syncW_cons (s : State) : (syncW s).cons = { s.cons with wrSync := s.prod.wrPtr } := rfl
@[simp] theorem syncW_mem (s : State) : (syncW s).mem = s.mem := rfl
@[simp] theorem syncW_out (s : State) : (syncW s).out = s.out := rfl
@[simp] theorem syncW_world (s : State) : (syncW s).world = s.world := rfl

@[simp] theorem syncR_params (s : State) : (syncR s).params = s.params := rfl
@[simp] theorem syncR_prod (s : State) : (syncR s).prod = { s.prod with rdSync := s.cons.rdPtr } := rfl
@[simp] theorem syncR_cons (s : State) : (syncR s).cons = s.cons := rfl
@[simp] theorem syncR_mem (s : State) : (syncR s).mem = s.mem := rfl
@[simp] theorem syncR_out (s : State) : (syncR s).out = s.out := rfl
@[simp] theorem syncR_world (s : State) : (syncR s).world = s.world := rfl

/-! The answers of the outside: a draw moves the world on, and a call of an external unit is recorded. -/

@[simp] theorem takeAgent_params (s : State) : (takeAgent s).2.params = s.params := rfl
@[simp] theorem takeAgent_prod (s : State) : (takeAgent s).2.prod = s.prod := rfl
@[simp] theorem takeAgent_cons (s : State) : (takeAgent s).2.cons = s.cons := rfl
@[simp] theorem takeAgent_mem (s : State) : (takeAgent s).2.mem = s.mem := rfl
@[simp] theorem takeAgent_out (s : State) : (takeAgent s).2.out = s.out := rfl

@[simp] theorem takeCmd_params (s : State) : (takeCmd s).2.params = s.params := rfl
@[simp] theorem takeCmd_prod (s : State) : (takeCmd s).2.prod = s.prod := rfl
@[simp] theorem takeCmd_cons (s : State) : (takeCmd s).2.cons = s.cons := rfl
@[simp] theorem takeCmd_mem (s : State) : (takeCmd s).2.mem = s.mem := rfl
@[simp] theorem takeCmd_out (s : State) : (takeCmd s).2.out = s.out := rfl

@[simp] theorem takeCcmd_params (s : State) : (takeCcmd s).2.params = s.params := rfl
@[simp] theorem takeCcmd_prod (s : State) : (takeCcmd s).2.prod = s.prod := rfl
@[simp] theorem takeCcmd_cons (s : State) : (takeCcmd s).2.cons = s.cons := rfl
@[simp] theorem takeCcmd_mem (s : State) : (takeCcmd s).2.mem = s.mem := rfl
@[simp] theorem takeCcmd_out (s : State) : (takeCcmd s).2.out = s.out := rfl

@[simp] theorem sinkReady_params (s : State) : (sinkReady s).2.params = s.params := rfl
@[simp] theorem sinkReady_prod (s : State) : (sinkReady s).2.prod = s.prod := rfl
@[simp] theorem sinkReady_cons (s : State) : (sinkReady s).2.cons = s.cons := rfl
@[simp] theorem sinkReady_mem (s : State) : (sinkReady s).2.mem = s.mem := rfl
@[simp] theorem sinkReady_out (s : State) : (sinkReady s).2.out = s.out := rfl

@[simp] theorem procStep_params (s : State) : (procStep s).2.params = s.params := rfl
@[simp] theorem procStep_prod (s : State) : (procStep s).2.prod = s.prod := rfl
@[simp] theorem procStep_cons (s : State) : (procStep s).2.cons = s.cons := rfl
@[simp] theorem procStep_mem (s : State) : (procStep s).2.mem = s.mem := rfl
@[simp] theorem procStep_out (s : State) : (procStep s).2.out = { s.out with calls := s.out.calls ++ [.procStep (procStep s).1] } := rfl

@[simp] theorem ppuTick_params (s : State) : (ppuTick s).2.params = s.params := rfl
@[simp] theorem ppuTick_prod (s : State) : (ppuTick s).2.prod = s.prod := rfl
@[simp] theorem ppuTick_cons (s : State) : (ppuTick s).2.cons = s.cons := rfl
@[simp] theorem ppuTick_mem (s : State) : (ppuTick s).2.mem = s.mem := rfl
@[simp] theorem ppuTick_out (s : State) : (ppuTick s).2.out = { s.out with calls := s.out.calls ++ [.ppuTick (ppuTick s).1] } := rfl

@[simp] theorem mapperTick_params (s : State) : (mapperTick s).2.params = s.params := rfl
@[simp] theorem mapperTick_prod (s : State) : (mapperTick s).2.prod = s.prod := rfl
@[simp] theorem mapperTick_cons (s : State) : (mapperTick s).2.cons = s.cons := rfl
@[simp] theorem mapperTick_mem (s : State) : (mapperTick s).2.mem = s.mem := rfl
@[simp] theorem mapperTick_out (s : State) : (mapperTick s).2.out = { s.out with calls := s.out.calls ++ [.mapperTick (mapperTick s).1] } := rfl

@[simp] theorem apuTick_params (s : State) : (apuTick s).2.params = s.params := rfl
@[simp] theorem apuTick_prod (s : State) : (apuTick s).2.prod = s.prod := rfl
@[simp] theorem apuTick_cons (s : State) : (apuTick s).2.cons = s.cons := rfl
@[simp] theorem apuTick_mem (s : State) : (apuTick s).2.mem = s.mem := rfl
@[simp] theorem apuTick_out (s : State) : (apuTick s).2.out = { s.out with calls := s.out.calls ++ [.apuTick (apuTick s).1] } := rfl

@[simp] theorem ppuFrame_params (s : State) : (ppuFrame s).2.params = s.params := rfl
@[simp] theorem ppuFrame_prod (s : State) : (ppuFrame s).2.prod = s.prod := rfl
@[simp] theorem ppuFrame_cons (s : State) : (ppuFrame s).2.cons = s.cons := rfl
@[simp] theorem ppuFrame_mem (s : State) : (ppuFrame s).2.mem = s.mem := rfl
@[simp] theorem ppuFrame_out (s : State) : (ppuFrame s).2.out = { s.out with calls := s.out.calls ++ [.ppuFrame (ppuFrame s).1] } := rfl

@[simp] theorem apuOut_params (s : State) : (apuOut s).2.params = s.params := rfl
@[simp] theorem apuOut_prod (s : State) : (apuOut s).2.prod = s.prod := rfl
@[simp] theorem apuOut_cons (s : State) : (apuOut s).2.cons = s.cons := rfl
@[simp] theorem apuOut_mem (s : State) : (apuOut s).2.mem = s.mem := rfl
@[simp] theorem apuOut_out (s : State) : (apuOut s).2.out = { s.out with calls := s.out.calls ++ [.apuOut (apuOut s).1] } := rfl

@[simp] theorem sourceGet_params (s : State) : (sourceGet s).2.params = s.params := by
  simp only [sourceGet]; split <;> rfl
@[simp] theorem sourceGet_prod (s : State) : (sourceGet s).2.prod = s.prod := by
  simp only [sourceGet]; split <;> rfl
@[simp] theorem sourceGet_cons (s : State) : (sourceGet s).2.cons = s.cons := by
  simp only [sourceGet]; split <;> rfl
@[simp] theorem sourceGet_mem (s : State) : (sourceGet s).2.mem = s.mem := by
  simp only [sourceGet]; split <;> rfl
@[simp] theorem sourceGet_sink (s : State) : (sourceGet s).2.out.sink = s.out.sink := by
  simp only [sourceGet]; split <;> rfl
@[simp] theorem sourceGet_frames (s : State) : (sourceGet s).2.out.frames = s.out.frames := by
  simp only [sourceGet]; split <;> rfl

/-! A draw leaves the schedule alone; only the choice of the next agent takes from it (R20). -/

@[simp] theorem takeCmd_sched (s : State) : (takeCmd s).2.world.sched = s.world.sched := rfl
@[simp] theorem takeCcmd_sched (s : State) : (takeCcmd s).2.world.sched = s.world.sched := rfl
@[simp] theorem sinkReady_sched (s : State) : (sinkReady s).2.world.sched = s.world.sched := rfl
@[simp] theorem procStep_sched (s : State) : (procStep s).2.world.sched = s.world.sched := rfl
@[simp] theorem ppuTick_sched (s : State) : (ppuTick s).2.world.sched = s.world.sched := rfl
@[simp] theorem mapperTick_sched (s : State) : (mapperTick s).2.world.sched = s.world.sched := rfl
@[simp] theorem apuTick_sched (s : State) : (apuTick s).2.world.sched = s.world.sched := rfl
@[simp] theorem ppuFrame_sched (s : State) : (ppuFrame s).2.world.sched = s.world.sched := rfl
@[simp] theorem apuOut_sched (s : State) : (apuOut s).2.world.sched = s.world.sched := rfl
@[simp] theorem sourceGet_sched (s : State) : (sourceGet s).2.world.sched = s.world.sched := by
  simp only [sourceGet]; split <;> rfl

/-! Banks. -/

@[simp] theorem Bank.get_set_same {α : Type} (b : Bank α) (i : Stage) (a : α) : (b.set i a).get i = a := by
  cases i <;> rfl

theorem Bank.get_set_other {α : Type} (b : Bank α) {i j : Stage} (a : α) (h : i ≠ j) :
    (b.set i a).get j = b.get j := by
  cases i <;> cases j <;> first | rfl | exact absurd rfl h

@[simp] theorem Bank.get_all {α : Type} (a : α) (i : Stage) : (Bank.all a).get i = a := by
  cases i <;> rfl

/-! Sequencing of outcomes. -/

@[simp] theorem andThen_next (s : State) (f : State → Host.Outcome State Fault Refusal) :
    andThen (.next s) f = f s := rfl

/-- Where one thing after another answers a next state, the first one did, and the second answered from there. -/
theorem andThen_eq_next {o : Host.Outcome State Fault Refusal} {f : State → Host.Outcome State Fault Refusal}
    {t : State} (h : andThen o f = .next t) : ∃ s, o = .next s ∧ f s = .next t := by
  cases o with
  | next s => exact ⟨s, rfl, h⟩
  | fault r => simp [andThen] at h
  | refused r => simp [andThen] at h

end Sys2Proof.Machine
end

