-- ==== Sys2Proof/Laws/Ops.lean ====
section
/-! SUPPORT. One lemma per shared operation that says everything it can do; proofs cite these and do not unfold the
operation again. -/

namespace Sys2Proof.Machine

/-! Accepting a command. -/

theorem onAccept_accepting {s : State} (h : accepting s = true) (f : State → State) : onAccept s f = .next (f s) := by
  simp [onAccept, h]

theorem onAccept_not_accepting {s : State} (h : accepting s = false) (f : State → State) : onAccept s f = .next s := by
  simp [onAccept, h]

/-- A producer command always answers: its own effect where PROD takes it, the same state where PROD does not. -/
theorem onAccept_cases (s : State) (f : State → State) :
    (accepting s = true ∧ onAccept s f = .next (f s)) ∨ (accepting s = false ∧ onAccept s f = .next s) := by
  cases h : accepting s
  · exact .inr ⟨rfl, onAccept_not_accepting h f⟩
  · exact .inl ⟨rfl, onAccept_accepting h f⟩

theorem accepting_iff (s : State) : accepting s = true ↔ s.prod.phase = .idle ∧ s.prod.stream = .none := by
  simp [accepting]

/-! The push. -/

theorem push_full {s : State} (y : F32) (h : s.countP = s.params.cap) : push s y = s := by simp [push, h]

theorem push_room {s : State} (y : F32) (h : s.countP ≠ s.params.cap) :
    push s y = (s.setMem (s.mem.write (s.prod.wrPtr % s.params.cap) y)).setProd
      { s.prod with wrPtr := ptrNext s.params.cap s.prod.wrPtr } := by simp [push, h]

@[simp] theorem push_params (s : State) (y : F32) : (push s y).params = s.params := by unfold push; split <;> rfl
@[simp] theorem push_cons (s : State) (y : F32) : (push s y).cons = s.cons := by unfold push; split <;> rfl
@[simp] theorem push_out (s : State) (y : F32) : (push s y).out = s.out := by unfold push; split <;> rfl
@[simp] theorem push_world (s : State) (y : F32) : (push s y).world = s.world := by unfold push; split <;> rfl

/-- A push changes nothing of the producer domain but WR_PTR. -/
theorem push_prod (s : State) (y : F32) : ∃ w, (push s y).prod = { s.prod with wrPtr := w } := by
  unfold push
  split
  · exact ⟨s.prod.wrPtr, rfl⟩
  · exact ⟨_, rfl⟩

/-! The filter. -/

@[simp] theorem stageArith_params (s : State) (c : Coef) (st : StageState) (x : F32) :
    (stageArith s c st x).2.params = s.params := by unfold stageArith; split <;> rfl
@[simp] theorem stageArith_prod (s : State) (c : Coef) (st : StageState) (x : F32) :
    (stageArith s c st x).2.prod = s.prod := by unfold stageArith; split <;> rfl
@[simp] theorem stageArith_cons (s : State) (c : Coef) (st : StageState) (x : F32) :
    (stageArith s c st x).2.cons = s.cons := by unfold stageArith; split <;> rfl
@[simp] theorem stageArith_mem (s : State) (c : Coef) (st : StageState) (x : F32) :
    (stageArith s c st x).2.mem = s.mem := by unfold stageArith; split <;> rfl
@[simp] theorem stageArith_out (s : State) (c : Coef) (st : StageState) (x : F32) :
    (stageArith s c st x).2.out = s.out := by unfold stageArith; split <;> rfl

/-- A stage whose value is no NaN answers that value and draws nothing. -/
theorem stageArith_number {s : State} {c : Coef} {st : StageState} {x : F32}
    (h : isNaN (stageValue s.params.arith c st x) = false) :
    stageArith s c st x = (stageValue s.params.arith c st x, s) := by
  simp [stageArith, drawsNaN, h]

@[simp] theorem stageStep_params (i : Stage) (x : F32) (s : State) : (stageStep i x s).2.params = s.params := by
  simp [stageStep]
@[simp] theorem stageStep_cons (i : Stage) (x : F32) (s : State) : (stageStep i x s).2.cons = s.cons := by
  simp [stageStep]
@[simp] theorem stageStep_mem (i : Stage) (x : F32) (s : State) : (stageStep i x s).2.mem = s.mem := by
  simp [stageStep]
@[simp] theorem stageStep_out (i : Stage) (x : F32) (s : State) : (stageStep i x s).2.out = s.out := by
  simp [stageStep]

/-- A stage changes its own X1 and Y1 and nothing else of the producer domain (R173). -/
@[simp] theorem stageStep_prod (i : Stage) (x : F32) (s : State) :
    (stageStep i x s).2.prod =
      { s.prod with path :=
          { s.prod.path with fstate := s.prod.path.fstate.set i ⟨x, (stageStep i x s).1⟩ } } := by
  simp [stageStep]

@[simp] theorem chain_params (x : F32) (s : State) : (chain x s).2.params = s.params := by simp [chain]
@[simp] theorem chain_cons (x : F32) (s : State) : (chain x s).2.cons = s.cons := by simp [chain]
@[simp] theorem chain_mem (x : F32) (s : State) : (chain x s).2.mem = s.mem := by simp [chain]
@[simp] theorem chain_out (x : F32) (s : State) : (chain x s).2.out = s.out := by simp [chain]

/-- The chain changes FSTATE and nothing else of the producer domain (R168). -/
theorem chain_prod (x : F32) (s : State) :
    ∃ f, (chain x s).2.prod = { s.prod with path := { s.prod.path with fstate := f } } := by
  simp only [chain, stageStep_prod]
  exact ⟨_, rfl⟩

/-! The audio tick. -/

@[simp] theorem emitSample_params (s : State) : (emitSample s).params = s.params := by
  unfold emitSample; simp only; split <;> simp
@[simp] theorem emitSample_cons (s : State) : (emitSample s).cons = s.cons := by
  unfold emitSample; simp only; split <;> simp

/-- A firing reads the audio unit's output once (R165). -/
@[simp] theorem emitSample_out (s : State) :
    (emitSample s).out = { s.out with calls := s.out.calls ++ [.apuOut (apuOut s).1] } := by
  unfold emitSample; simp only; split <;> simp

/-- A firing changes FSTATE and WR_PTR and nothing else of the producer domain. -/
theorem emitSample_prod (s : State) :
    ∃ f w, (emitSample s).prod = { s.prod with path := { s.prod.path with fstate := f }, wrPtr := w } := by
  obtain ⟨f, hf⟩ := chain_prod (apuOut s).1 (apuOut s).2
  unfold emitSample
  simp only
  split
  · obtain ⟨w, hw⟩ := push_prod (chain (apuOut s).1 (apuOut s).2).2 (chain (apuOut s).1 (apuOut s).2).1
    exact ⟨f, w, by simp [hw, hf]⟩
  · exact ⟨f, s.prod.wrPtr, by simp [hf]⟩

@[simp] theorem setAcc_params (s : State) (a : Nat) : (setAcc s a).params = s.params := rfl
@[simp] theorem setAcc_prod (s : State) (a : Nat) :
    (setAcc s a).prod = { s.prod with path := { s.prod.path with acc := BitVec.ofNat 32 a } } := rfl
@[simp] theorem setAcc_cons (s : State) (a : Nat) : (setAcc s a).cons = s.cons := rfl
@[simp] theorem setAcc_mem (s : State) (a : Nat) : (setAcc s a).mem = s.mem := rfl
@[simp] theorem setAcc_out (s : State) (a : Nat) : (setAcc s a).out = s.out := rfl
@[simp] theorem setAcc_world (s : State) (a : Nat) : (setAcc s a).world = s.world := rfl

/-- Everything an audio tick can do where it answers a next state (R165). -/
theorem samplePath_cases {s t : State} (h : samplePath s = .next t) :
    (s.prod.path.cfgValid = false ∧ t = s) ∨
    (s.prod.path.cfgValid = true ∧
      s.prod.path.acc.toNat + s.prod.path.rate.toNat < s.params.fcpu ∧
      t = setAcc s (s.prod.path.acc.toNat + s.prod.path.rate.toNat)) ∨
    (s.prod.path.cfgValid = true ∧
      s.params.fcpu ≤ s.prod.path.acc.toNat + s.prod.path.rate.toNat ∧
      s.prod.path.acc.toNat + s.prod.path.rate.toNat < 2 ^ 32 ∧
      t = emitSample (setAcc s (s.prod.path.acc.toNat + s.prod.path.rate.toNat - s.params.fcpu))) := by
  unfold samplePath at h
  simp only at h
  split at h
  · rename_i hv
    split at h
    · simp at h
    · rename_i hlt
      split at h
      · rename_i hf
        exact .inr (.inr ⟨hv, hf, by omega, by simpa using h.symm⟩)
      · rename_i hf
        exact .inr (.inl ⟨hv, by omega, by simpa using h.symm⟩)
  · rename_i hv
    exact .inl ⟨by simpa using hv, by simpa using h.symm⟩

/-- An audio tick answers a next state wherever the accumulator and the rate are in range (R34, R35). -/
theorem samplePath_next {s : State} (hc : s.params.fcpu < 2 ^ 31)
    (ha : s.prod.path.acc.toNat < s.params.fcpu)
    (hr : s.prod.path.cfgValid = true → rateLegal s.params.fcpu s.prod.path.rate = true) :
    ∃ t, samplePath s = .next t := by
  unfold samplePath
  simp only
  split
  · rename_i hv
    have := hr hv
    simp only [rateLegal, Bool.and_eq_true, decide_eq_true_eq] at this
    rw [if_neg (by omega)]
    split <;> exact ⟨_, rfl⟩
  · exact ⟨_, rfl⟩

/-- An audio tick leaves the parameters and the consumer domain alone (R82). -/
theorem samplePath_frame {s t : State} (h : samplePath s = .next t) :
    t.params = s.params ∧ t.cons = s.cons := by
  obtain ⟨-, rfl⟩ | ⟨-, -, rfl⟩ | ⟨-, -, -, rfl⟩ := samplePath_cases h <;> simp

/-- An audio tick changes ACC, FSTATE and WR_PTR and nothing else of the producer domain. -/
theorem samplePath_prod {s t : State} (h : samplePath s = .next t) :
    ∃ a f w, t.prod =
      { s.prod with path := { s.prod.path with acc := a, fstate := f }, wrPtr := w } := by
  obtain ⟨-, rfl⟩ | ⟨-, -, rfl⟩ | ⟨-, -, -, rfl⟩ := samplePath_cases h
  · exact ⟨_, _, _, rfl⟩
  · exact ⟨_, _, _, rfl⟩
  · obtain ⟨f, w, h⟩ := emitSample_prod (setAcc s (s.prod.path.acc.toNat + s.prod.path.rate.toNat - s.params.fcpu))
    exact ⟨_, f, w, h⟩

@[simp] theorem countTick_params (s : State) : (countTick s).params = s.params := rfl
@[simp] theorem countTick_cons (s : State) : (countTick s).cons = s.cons := rfl
@[simp] theorem countTick_mem (s : State) : (countTick s).mem = s.mem := rfl
@[simp] theorem countTick_out (s : State) : (countTick s).out = s.out := rfl
@[simp] theorem countTick_world (s : State) : (countTick s).world = s.world := rfl

/-! The consumer. -/

@[simp] theorem playFrame_params (s : State) : (playFrame s).params = s.params := by unfold playFrame; split <;> rfl
@[simp] theorem playFrame_prod (s : State) : (playFrame s).prod = s.prod := by unfold playFrame; split <;> rfl
@[simp] theorem playFrame_mem (s : State) : (playFrame s).mem = s.mem := by unfold playFrame; split <;> rfl
@[simp] theorem playFrame_world (s : State) : (playFrame s).world = s.world := by unfold playFrame; split <;> rfl

/-! RESTORE. -/

@[simp] theorem failRestore_params (s : State) (c : FaultCode) : (failRestore s c).params = s.params := rfl
@[simp] theorem failRestore_cons (s : State) (c : FaultCode) : (failRestore s c).cons = s.cons := rfl
@[simp] theorem failRestore_mem (s : State) (c : FaultCode) : (failRestore s c).mem = s.mem := rfl
@[simp] theorem failRestore_out (s : State) (c : FaultCode) : (failRestore s c).out = s.out := rfl

/-- A failed RESTORE leaves a free value in the record's registers, HALT, and ERROR written; every other register of
the producer domain keeps its value (R145). -/
@[simp] theorem failRestore_prod (s : State) (c : FaultCode) :
    (failRestore s c).prod =
      { s.prod with path := failedPath s.world.fresh, error := errorWord c 0#3, phase := .halt } := rfl

/-- What RESTORE does with 71 bytes (R142, R143, R144). -/
theorem finishRestore_cases (s : State) (rec : List Byte) :
    (byteAt rec 70 ≠ 0x01#8 ∧ finishRestore s rec = failRestore s .restoreTruncated) ∨
    (byteAt rec 70 = 0x01#8 ∧ recordValid s.params.fcpu rec = true ∧
      finishRestore s rec = (s.setPath (recordPath rec)).setPhase .idle) ∨
    (byteAt rec 70 = 0x01#8 ∧ recordValid s.params.fcpu rec = false ∧
      finishRestore s rec = failRestore s .restoreMalformed) := by
  unfold finishRestore
  split
  · exact .inl ⟨‹_›, rfl⟩
  · rename_i h
    simp only [not_not] at h
    split
    · exact .inr (.inl ⟨h, ‹_›, rfl⟩)
    · rename_i hv
      exact .inr (.inr ⟨h, by simpa using hv, rfl⟩)

end Sys2Proof.Machine
end

