-- ==== Sys2Proof/Laws/Invariant.lean ====
section
/-! SUPPORT. What the parts of the sample path keep of the FIFO's invariant (spec/20_memory.md R72, R79), for the proof
that every step keeps it. -/

namespace Sys2Proof.Machine

/-- The pointers' invariant depends on the pointers and `CAP` only. -/
theorem FifoOk.of_same {s t : State} (hp : t.params = s.params) (h1 : t.prod.wrPtr = s.prod.wrPtr)
    (h2 : t.prod.rdSync = s.prod.rdSync) (h3 : t.cons.rdPtr = s.cons.rdPtr) (h4 : t.cons.wrSync = s.cons.wrSync)
    (h : FifoOk s) : FifoOk t := by
  unfold FifoOk State.count State.countP State.countC at *
  rw [hp, h1, h2, h3, h4]
  exact h

/-- The stored samples' invariant depends on the memory, two pointers and `CAP` only. -/
theorem StoredOk.of_same {s t : State} (hp : t.params = s.params) (h1 : t.prod.wrPtr = s.prod.wrPtr)
    (h3 : t.cons.rdPtr = s.cons.rdPtr) (h4 : t.mem = s.mem) (h : StoredOk s) : StoredOk t := by
  unfold StoredOk State.count at *
  rw [hp, h1, h3, h4]
  exact h

/-- A push keeps the pointers and the occupancies of R79. -/
theorem push_keeps_fifo {s : State} (y : F32) (h : FifoOk s) : FifoOk (push s y) := by
  by_cases hc : s.countP = s.params.cap
  · rw [push_full y hc]; exact h
  · rw [push_room y hc]
    obtain ⟨a,b,c,d,e,f,g⟩ := h
    unfold State.count State.countP State.countC at *
    unfold FifoOk State.count State.countP State.countC
    simp only [State.setProd_params, State.setMem_params, State.setProd_prod, State.setProd_cons, State.setMem_cons]
    have hn := ptrNext_of_lt a
    have hl := ptrNext_lt (cap := s.params.cap) (p := s.prod.wrPtr) (by omega)
    rw [ptrDist_of_lt d c] at *
    rw [ptrDist_of_lt a c] at *
    rw [ptrDist_of_lt a b] at *
    rw [ptrDist_of_lt hl c, ptrDist_of_lt hl b]
    refine ⟨hl, b, c, d, ?_⟩
    rw [hn]
    split_ifs at * <;> omega

/-- A push keeps the canonical form and lists the entry it adds to the FIFO (R71, R72). -/
theorem push_keeps_stored {s : State} (y : F32) (hf : FifoOk s) (h : StoredOk s) : StoredOk (push s y) := by
  by_cases hc : s.countP = s.params.cap
  · rw [push_full y hc]; exact h
  · rw [push_room y hc]
    obtain ⟨a,b,c,d,e,f,g⟩ := hf
    obtain ⟨w1, w2, w3⟩ := h
    have hlt : s.count < s.params.cap := by omega
    refine ⟨?_, ?_, ?_⟩
    · exact Memory.wf_write _ _ _ w1
    · intro i v hi
      simp only [State.setProd_mem, State.setMem_mem, Memory.cell_write] at hi
      split at hi
      · subst i; exact Nat.mod_lt _ (by omega)
      · exact w2 i v hi
    · intro j hj
      simp only [State.setProd_mem, State.setMem_mem, Memory.cell_write]
      split
      · rfl
      · rename_i hne
        apply w3
        have hn := ptrNext_of_lt a
        have hl := ptrNext_lt (cap := s.params.cap) (p := s.prod.wrPtr) (by omega)
        unfold State.count at *
        simp only [State.setProd_params, State.setMem_params, State.setProd_prod, State.setProd_cons, State.setMem_cons] at *
        rw [ptrDist_of_lt hl c, hn] at hj
        rw [ptrDist_of_lt a c] at *
        by_contra hj2
        apply hne
        have : j = (if s.cons.rdPtr ≤ s.prod.wrPtr then s.prod.wrPtr - s.cons.rdPtr else s.prod.wrPtr + 2 * s.params.cap - s.cons.rdPtr) := by
          split_ifs at * <;> omega
        split_ifs at this with h
        · congr 1; omega
        · rw [show s.cons.rdPtr + j = s.prod.wrPtr + 2 * s.params.cap by omega, Nat.add_mul_mod_self_right]

/-- The chain touches no pointer (R168). -/
theorem chain_keeps_fifo {x : F32} {s : State} (h : FifoOk s) : FifoOk (chain x s).2 := by
  obtain ⟨f, hf⟩ := chain_prod x s
  exact FifoOk.of_same (by simp) (by rw [hf]) (by rw [hf]) (by simp) (by simp) h
/-- The chain touches neither the sample memory nor a pointer (R168). -/
theorem chain_keeps_stored {x : F32} {s : State} (h : StoredOk s) : StoredOk (chain x s).2 := by
  obtain ⟨f, hf⟩ := chain_prod x s
  exact StoredOk.of_same (by simp) (by rw [hf]) (by simp) (by simp) h

/-- A firing of the divider keeps the FIFO (R165, R169). -/
theorem emitSample_keeps {s : State} (h : FifoOk s) (h2 : StoredOk s) : FifoOk (emitSample s) ∧ StoredOk (emitSample s) := by
  unfold emitSample
  simp only
  have a : FifoOk (apuOut s).2 := FifoOk.of_same rfl rfl rfl rfl rfl h
  have b : StoredOk (apuOut s).2 := StoredOk.of_same rfl rfl rfl rfl h2
  split
  · exact ⟨push_keeps_fifo _ (chain_keeps_fifo a), push_keeps_stored _ (chain_keeps_fifo a) (chain_keeps_stored b)⟩
  · exact ⟨(chain_keeps_fifo a), (chain_keeps_stored b)⟩

/-- An audio tick keeps the FIFO (R165). -/
theorem samplePath_keeps {s t : State} (h : FifoOk s) (h2 : StoredOk s) (hs : samplePath s = .next t) : FifoOk t ∧ StoredOk t := by
  obtain ⟨-, rfl⟩ | ⟨-, -, rfl⟩ | ⟨-, -, -, rfl⟩ := samplePath_cases hs
  · exact ⟨h, h2⟩
  · exact ⟨FifoOk.of_same rfl rfl rfl rfl rfl h, StoredOk.of_same rfl rfl rfl rfl h2⟩
  · exact emitSample_keeps (FifoOk.of_same rfl rfl rfl rfl rfl h) (StoredOk.of_same rfl rfl rfl rfl h2)

end Sys2Proof.Machine
end

