-- ==== Sys2Proof/Laws/PerInstr.lean ====
section
/-! SUPPORT. Facts about every command as syntax, one lemma per constructor: its word lies in its own row of the opcode
table, and bit 31 of the word tells its port (spec/30_encoding.md R93 to R95). -/

namespace Sys2Proof.Laws.OpcodeRow

/-- The word of a command is a word of its row, and its top bit is set exactly for the consumer's commands. -/
def Statement (i : Instr) : Prop :=
  i.mnemonic.row.hits (encode i) = true ∧ (encode i).getLsbD 31 = decide (i.mnemonic.port = .consumer)

/-- The match rule of R93 as an equation. -/
theorem hits_iff (r : OpRow) (w : Word) : r.hits w = true ↔ w &&& r.mask = r.bits := by simp [OpRow.hits]

/-- A word of format I24 is in the row whose match is its opcode and whose mask is that of the format. -/
theorem i24_masked (op : BitVec 8) (v : BitVec 24) : (op ++ v) &&& 0xFF000000#32 = op ++ 0#24 := by
  have h : (0xFF000000#32 : BitVec 32) = (BitVec.allOnes 8 ++ 0#24) := by decide
  rw [h, BitVec.and_append, BitVec.and_allOnes, BitVec.and_zero]

/-- A word of format I8, masked. -/
theorem i8_masked (op : BitVec 8) (v : BitVec 8) :
    (op ++ (0#16 ++ v)) &&& 0xFFFFFF00#32 = op ++ (0#16 ++ 0#8) := by
  have h : (0xFFFFFF00#32 : BitVec 32) = (BitVec.allOnes 8 ++ (BitVec.allOnes 16 ++ 0#8)) := by decide
  rw [h, BitVec.and_append, BitVec.and_append, BitVec.and_allOnes, BitVec.and_allOnes, BitVec.and_zero]

/-- A word of format B, masked. -/
theorem b_masked (op : BitVec 8) (p : BitVec 1) (b : BitVec 8) :
    (op ++ (0#15 ++ (p ++ b))) &&& 0xFFFFFE00#32 = op ++ (0#15 ++ (0#1 ++ 0#8)) := by
  have h : (0xFFFFFE00#32 : BitVec 32) = (BitVec.allOnes 8 ++ (BitVec.allOnes 15 ++ (0#1 ++ 0#8))) := by decide
  rw [h, BitVec.and_append, BitVec.and_append, BitVec.and_append, BitVec.and_allOnes, BitVec.and_allOnes,
    BitVec.and_zero, BitVec.and_zero]

/-- Bit 31 of a word is bit 7 of its opcode. -/
theorem top_bit (op : BitVec 8) (v : BitVec 24) : (op ++ v).getLsbD 31 = op.getLsbD 7 := by
  rw [BitVec.getLsbD_append]
  rfl

theorem step : Statement .step := ⟨by decide, by decide⟩
theorem stepframe : Statement .stepframe := ⟨by decide, by decide⟩
theorem stepsec (us : BitVec 24) : Statement (.stepsec us) :=
  ⟨(hits_iff _ _).2 (i24_masked 0x03#8 us), top_bit 0x03#8 us⟩
theorem reset : Statement .reset := ⟨by decide, by decide⟩
theorem setbtn (p : Player) (b : BitVec 8) : Statement (.setbtn p b) :=
  ⟨(hits_iff _ _).2 (b_masked 0x05#8 p.bit b), top_bit 0x05#8 (0#15 ++ (p.bit ++ b))⟩
theorem config (rate : BitVec 24) : Statement (.config rate) :=
  ⟨(hits_iff _ _).2 (i24_masked 0x10#8 rate), top_bit 0x10#8 rate⟩
theorem disable : Statement .disable := ⟨by decide, by decide⟩
theorem attach : Statement .attach := ⟨by decide, by decide⟩
theorem detach : Statement .detach := ⟨by decide, by decide⟩
theorem snapshot : Statement .snapshot := ⟨by decide, by decide⟩
theorem restore : Statement .restore := ⟨by decide, by decide⟩
theorem frame : Statement .frame := ⟨by decide, by decide⟩
theorem flush : Statement .flush := ⟨by decide, by decide⟩
theorem setch (n : BitVec 8) : Statement (.setch n) :=
  ⟨(hits_iff _ _).2 (i8_masked 0x82#8 n), top_bit 0x82#8 (0#16 ++ n)⟩

end Sys2Proof.Laws.OpcodeRow
end

