-- ==== Sys2Proof/Laws/Stream.lean ====
section
/-! SUPPORT. What the loops of SNAPSHOT and RESTORE can do (spec/41_state_codec.md R141, R142), byte by byte
(spec/10_state.md R28): everything at once, and with the host's next answers given. -/

namespace Sys2Proof.Machine

/-! ## SNAPSHOT -/

/-- Everything SNAPSHOT's loop can do: some bytes of those left move, in order; the command is done where they all do,
else the next one stays held out. -/
theorem sendBytes_cases (left : List Byte) (s : State) :
    ∃ moved rest, left = moved ++ rest ∧
      (sendBytes left s).out = { s.out with sink := s.out.sink ++ moved } ∧
      (sendBytes left s).params = s.params ∧ (sendBytes left s).cons = s.cons ∧ (sendBytes left s).mem = s.mem ∧
      (sendBytes left s).world.sched = s.world.sched ∧
      ((rest = [] ∧ (sendBytes left s).prod = { s.prod with stream := .none, phase := .idle }) ∨
        (rest ≠ [] ∧ (sendBytes left s).prod = { s.prod with stream := .snapshot rest })) := by
  induction left generalizing s with
  | nil => exact ⟨[], [], rfl, by simp [sendBytes], rfl, rfl, rfl, rfl, .inl ⟨rfl, rfl⟩⟩
  | cons b left ih =>
    simp only [sendBytes]
    split
    · obtain ⟨moved, rest, h, ho, hp, hc, hm, hs, hend⟩ :=
        ih (sinkPut (sinkReady (s.setStream (.snapshot (b :: left)))).2 b)
      refine ⟨b :: moved, rest, by rw [h]; rfl, ?_, hp, hc, hm, hs, ?_⟩
      · rw [ho]; simp
      · exact hend
    · exact ⟨[], b :: left, rfl, by simp, rfl, rfl, rfl, rfl, .inr ⟨by simp, rfl⟩⟩

/-- A sink ready for every byte left takes them all, and the command is done (R28, R141). -/
theorem sendBytes_taken (left : List Byte) (s : State) (rest : List Bool)
    (h : s.world.sinkReady = List.replicate left.length true ++ rest) :
    sendBytes left s =
      { s with
        prod := { s.prod with stream := .none, phase := .idle }
        out := { s.out with sink := s.out.sink ++ left }
        world := { s.world with sinkReady := rest } } := by
  induction left generalizing s with
  | nil =>
    obtain ⟨_, _, _, _, _, ⟨⟩⟩ := s
    simp at h
    subst h
    simp [sendBytes, State.setStream, State.setPhase, State.setProd]
  | cons b left ih =>
    have hr : sinkReady (s.setStream (.snapshot (b :: left))) =
        (true, (s.setStream (.snapshot (b :: left))).setWorld
          { s.world with sinkReady := List.replicate left.length true ++ rest }) := by
      simp [sinkReady, h, List.replicate_succ, nextReply]
    simp only [sendBytes, hr, if_true]
    rw [ih _ (by simp)]
    simp

/-- A sink ready for `n` of the bytes left and not for the next one takes those, and that one stays held out (R28,
R252). -/
theorem sendBytes_stopped (left : List Byte) (s : State) (n : Nat) (rest : List Bool) (hn : n < left.length)
    (h : s.world.sinkReady = List.replicate n true ++ false :: rest) :
    sendBytes left s =
      { s with
        prod := { s.prod with stream := .snapshot (left.drop n) }
        out := { s.out with sink := s.out.sink ++ left.take n }
        world := { s.world with sinkReady := rest } } := by
  induction left generalizing s n with
  | nil => simp at hn
  | cons b left ih =>
    cases n with
    | zero =>
      have hr : sinkReady (s.setStream (.snapshot (b :: left))) =
          (false, (s.setStream (.snapshot (b :: left))).setWorld { s.world with sinkReady := rest }) := by
        simp [sinkReady, h, nextReply]
      simp only [sendBytes, hr]
      simp [State.setStream, State.setProd, State.setWorld]
    | succ n =>
      have hr : sinkReady (s.setStream (.snapshot (b :: left))) =
          (true, (s.setStream (.snapshot (b :: left))).setWorld
            { s.world with sinkReady := List.replicate n true ++ false :: rest }) := by
        simp [sinkReady, h, List.replicate_succ, nextReply]
      simp only [sendBytes, hr, if_true]
      rw [ih _ n (by simpa using hn) (by simp)]
      simp

/-! ## RESTORE -/

/-- Everything RESTORE's loop can do: it has the bytes it needs and finishes with them, or the stream ends first and
it fails as truncated, or the source falls silent and it goes on asking. Until then only the bytes it has change. -/
theorem readBytes_cases (n : Nat) (got : List Byte) (s : State) :
    ∃ (more : List Byte) (u : State) (f : InFlight), u.params = s.params ∧ u.cons = s.cons ∧ u.mem = s.mem ∧
      u.out.sink = s.out.sink ∧ u.out.frames = s.out.frames ∧ u.world.sched = s.world.sched ∧
      u.prod = { s.prod with stream := f } ∧
      ((more.length = n ∧ readBytes n got s = finishRestore (u.setStream .none) (got ++ more)) ∨
        (more.length < n ∧ readBytes n got s = failRestore (u.setStream .none) .restoreTruncated) ∨
        (more.length < n ∧ readBytes n got s = u ∧ f = .restore (got ++ more))) := by
  induction n generalizing got s with
  | zero => exact ⟨[], s, s.prod.stream, rfl, rfl, rfl, rfl, rfl, rfl, rfl, .inl ⟨rfl, by simp [readBytes]⟩⟩
  | succ n ih =>
    simp only [readBytes]
    split
    · rename_i b _
      obtain ⟨more, u, f, h1, h2, h3, h4, h5, h6, h7, h⟩ := ih (got ++ [b]) (sourceGet (s.setStream (.restore got))).2
      refine ⟨b :: more, u, f, by simpa using h1, by simpa using h2, by simpa using h3, by simpa using h4,
        by simpa using h5, by simpa using h6, by simpa using h7, ?_⟩
      simpa using h
    · exact ⟨[], (sourceGet (s.setStream (.restore got))).2, .restore got, by simp, by simp, by simp, by simp, by simp,
        by simp, by simp, .inr (.inl ⟨by simp, rfl⟩)⟩
    · exact ⟨[], (sourceGet (s.setStream (.restore got))).2, .restore got, by simp, by simp, by simp, by simp, by simp,
        by simp, by simp, .inr (.inr ⟨by simp, rfl, by simp⟩)⟩

/-- The state after `SourceGet` gave the bytes `more` and the source stands at `rest`. -/
def State.tookBytes (s : State) (f : InFlight) (more : List Byte) (rest : List SourceItem) : State :=
  { s with
    prod := { s.prod with stream := f }
    out := { s.out with calls := s.out.calls ++ more.map fun b => .sourceGet (some b) }
    world := { s.world with source := rest } }

theorem sourceGet_byte {s : State} {b : Byte} {rest : List SourceItem} (h : s.world.source = .byte b :: rest) :
    sourceGet s = (.byte b, (s.setWorld { s.world with source := rest }).logCall (.sourceGet (some b))) := by
  simp [sourceGet, h, nextReply]

theorem sourceGet_eos {s : State} {rest : List SourceItem} (h : s.world.source = .eos :: rest) :
    sourceGet s = (.eos, s.logCall (.sourceGet none)) := by
  obtain ⟨_, _, _, _, _, ⟨⟩⟩ := s
  simp at h
  subst h
  rfl

theorem sourceGet_silent {s : State} {rest : List SourceItem} (h : s.world.source = .silent :: rest) :
    sourceGet s = (.silent, s.setWorld { s.world with source := rest }) := by
  simp [sourceGet, h, nextReply]

/-- A source with as many bytes as RESTORE still needs gives exactly those (R142). -/
theorem readBytes_complete (more got : List Byte) (s : State) (rest : List SourceItem)
    (h : s.world.source = more.map .byte ++ rest) :
    readBytes more.length got s = finishRestore (s.tookBytes .none more rest) (got ++ more) := by
  induction more generalizing got s with
  | nil =>
    obtain ⟨_, _, _, _, _, ⟨⟩⟩ := s
    simp at h
    subst h
    simp [readBytes, State.tookBytes, State.setStream, State.setProd]
  | cons b bs ih =>
    have hg := sourceGet_byte (s := s.setStream (.restore got)) (b := b) (rest := bs.map .byte ++ rest) (by simpa using h)
    simp only [List.length_cons, readBytes, hg]
    rw [ih _ _ (by simp)]
    simp [State.tookBytes]

/-- A source that ends too soon makes RESTORE fail after the bytes it held (R142, R149). -/
theorem readBytes_ended (n : Nat) (more got : List Byte) (s : State) (rest : List SourceItem)
    (hn : more.length < n) (h : s.world.source = more.map .byte ++ .eos :: rest) :
    readBytes n got s =
      failRestore ((s.tookBytes .none more (.eos :: rest)).logCall (.sourceGet none)) .restoreTruncated := by
  induction more generalizing n got s with
  | nil =>
    obtain ⟨m, rfl⟩ : ∃ m, n = m + 1 := ⟨n - 1, by simp at hn; omega⟩
    have hg := sourceGet_eos (s := s.setStream (.restore got)) (rest := rest) (by simpa using h)
    obtain ⟨_, _, _, _, _, ⟨⟩⟩ := s
    simp at h
    subst h
    simp only [readBytes, hg]
    simp [State.tookBytes, State.logCall, State.setStream, State.setProd, State.setOut]
  | cons b bs ih =>
    obtain ⟨m, rfl⟩ : ∃ m, n = m + 1 := ⟨n - 1, by simp at hn; omega⟩
    have hg := sourceGet_byte (s := s.setStream (.restore got)) (b := b) (rest := bs.map .byte ++ .eos :: rest)
      (by simpa using h)
    simp only [readBytes, hg]
    rw [ih m _ _ (by simpa using hn) (by simp)]
    simp [State.tookBytes]

/-- A source that falls silent too soon leaves RESTORE in progress with the bytes it gave (R28, R252). -/
theorem readBytes_waiting (n : Nat) (more got : List Byte) (s : State) (rest : List SourceItem)
    (hn : more.length < n) (h : s.world.source = more.map .byte ++ .silent :: rest) :
    readBytes n got s = s.tookBytes (.restore (got ++ more)) more rest := by
  induction more generalizing n got s with
  | nil =>
    obtain ⟨m, rfl⟩ : ∃ m, n = m + 1 := ⟨n - 1, by simp at hn; omega⟩
    have hg := sourceGet_silent (s := s.setStream (.restore got)) (rest := rest) (by simpa using h)
    simp only [readBytes, hg]
    simp [State.tookBytes, State.setStream, State.setProd, State.setWorld]
  | cons b bs ih =>
    obtain ⟨m, rfl⟩ : ∃ m, n = m + 1 := ⟨n - 1, by simp at hn; omega⟩
    have hg := sourceGet_byte (s := s.setStream (.restore got)) (b := b) (rest := bs.map .byte ++ .silent :: rest)
      (by simpa using h)
    simp only [readBytes, hg]
    rw [ih m _ _ (by simpa using hn) (by simp)]
    simp [State.tookBytes]

end Sys2Proof.Machine
end

