-- ==== Sys2Proof/Laws/Schedule.lean ====
section
/-! SUPPORT. The schedule of a run (spec/10_state.md R20, R23): which agent steps next and what is left of the schedule,
that no turn of an agent touches it, and which turns write the synchronised pointers. -/

namespace Sys2Proof.Machine

/-! ## The next agent -/

/-- A schedule that is not used up gives its first agent. -/
theorem nextAgent_cons (a : Agent) (rest : List Agent) (fresh : Nat) : nextAgent (a :: rest) fresh = (a, rest, fresh) :=
  rfl

/-- A schedule that is used up goes on with a fair stretch. -/
theorem nextAgent_nil (fresh : Nat) :
    (nextAgent [] fresh).1 :: (nextAgent [] fresh).2.1 = fairStretch fresh := by
  simp only [nextAgent, fairStretch]
  cases Config.agentsBefore fresh <;> rfl

/-- Both synchronisers step in every fair stretch (R23). -/
theorem mem_fairStretch (fresh : Nat) : .syncW ∈ fairStretch fresh ∧ .syncR ∈ fairStretch fresh := by
  simp [fairStretch]

/-- The choice of the next agent takes it from the schedule, or from a fair stretch where the schedule is used up. -/
theorem takeAgent_sched (s : State) :
    s.world.sched = (takeAgent s).1 :: (takeAgent s).2.world.sched ∨
    (s.world.sched = [] ∧ (takeAgent s).1 :: (takeAgent s).2.world.sched = fairStretch s.world.fresh) := by
  unfold takeAgent
  cases h : s.world.sched with
  | nil => exact .inr ⟨rfl, nextAgent_nil s.world.fresh⟩
  | cons a rest => exact .inl rfl

/-! ## No turn touches the schedule -/

@[simp] theorem stageArith_sched (s : State) (c : Coef) (st : StageState) (x : F32) :
    (stageArith s c st x).2.world.sched = s.world.sched := by unfold stageArith; split <;> rfl
@[simp] theorem stageStep_sched (i : Stage) (x : F32) (s : State) :
    (stageStep i x s).2.world.sched = s.world.sched := by simp [stageStep]
@[simp] theorem chain_sched (x : F32) (s : State) : (chain x s).2.world.sched = s.world.sched := by simp [chain]
@[simp] theorem emitSample_sched (s : State) : (emitSample s).world.sched = s.world.sched := by
  unfold emitSample; simp only; split <;> simp
@[simp] theorem failRestore_sched (s : State) (c : FaultCode) : (failRestore s c).world.sched = s.world.sched := rfl
@[simp] theorem finishRestore_sched (s : State) (rec : List Byte) :
    (finishRestore s rec).world.sched = s.world.sched := by
  obtain ⟨-, h⟩ | ⟨-, -, h⟩ | ⟨-, -, h⟩ := finishRestore_cases s rec <;> rw [h] <;> rfl
@[simp] theorem sendBytes_sched (left : List Byte) (s : State) : (sendBytes left s).world.sched = s.world.sched := by
  obtain ⟨_, _, -, -, -, -, -, h, -⟩ := sendBytes_cases left s
  exact h
@[simp] theorem readBytes_sched (n : Nat) (got : List Byte) (s : State) :
    (readBytes n got s).world.sched = s.world.sched := by
  obtain ⟨more, u, _, -, -, -, -, -, h, -, ⟨-, e⟩ | ⟨-, e⟩ | ⟨-, e, -⟩⟩ := readBytes_cases n got s <;> rw [e] <;> simp [h]

/-- The parts of the state that no command and no phase writes: the parameters, the schedule, and the two registers that
only a synchroniser writes (R23). -/
structure SameCrossing (s t : State) : Prop where
  params : t.params = s.params
  sched : t.world.sched = s.world.sched
  wrSync : t.cons.wrSync = s.cons.wrSync
  rdSync : t.prod.rdSync = s.prod.rdSync

theorem SameCrossing.refl (s : State) : SameCrossing s s := ⟨rfl, rfl, rfl, rfl⟩

theorem SameCrossing.trans {s t u : State} (h : SameCrossing s t) (k : SameCrossing t u) : SameCrossing s u :=
  ⟨k.params.trans h.params, k.sched.trans h.sched, k.wrSync.trans h.wrSync, k.rdSync.trans h.rdSync⟩

theorem sameCrossing_sendBytes (left : List Byte) (s : State) : SameCrossing s (sendBytes left s) := by
  obtain ⟨_, _, -, -, hp, hc, -, hs, ⟨-, h⟩ | ⟨-, h⟩⟩ := sendBytes_cases left s <;>
    exact ⟨hp, hs, by rw [hc], by rw [h]⟩

theorem sameCrossing_finishRestore (s : State) (rec : List Byte) : SameCrossing s (finishRestore s rec) := by
  obtain ⟨-, h⟩ | ⟨-, -, h⟩ | ⟨-, -, h⟩ := finishRestore_cases s rec <;> rw [h] <;> exact ⟨rfl, rfl, rfl, rfl⟩

theorem sameCrossing_readBytes (n : Nat) (got : List Byte) (s : State) : SameCrossing s (readBytes n got s) := by
  obtain ⟨more, u, _, hp, hc, -, -, -, hs, hr, h⟩ := readBytes_cases n got s
  have hu : SameCrossing s u := ⟨hp, hs, by rw [hc], by rw [hr]⟩
  obtain ⟨-, e⟩ | ⟨-, e⟩ | ⟨-, e, -⟩ := h <;> rw [e]
  · exact hu.trans ((⟨rfl, rfl, rfl, rfl⟩ : SameCrossing u (u.setStream .none)).trans (sameCrossing_finishRestore _ _))
  · exact hu.trans ⟨rfl, rfl, rfl, rfl⟩
  · exact hu

theorem sameCrossing_emitSample (s : State) : SameCrossing s (emitSample s) := by
  obtain ⟨f, w, h⟩ := emitSample_prod s
  exact ⟨by simp, by simp, by simp, by rw [h]⟩

theorem sameCrossing_setAcc (s : State) (a : Nat) : SameCrossing s (setAcc s a) := ⟨rfl, rfl, rfl, rfl⟩

theorem sameCrossing_samplePath {s t : State} (h : samplePath s = .next t) : SameCrossing s t := by
  obtain ⟨-, rfl⟩ | ⟨-, -, rfl⟩ | ⟨-, -, -, rfl⟩ := samplePath_cases h
  · exact .refl _
  · exact ⟨rfl, rfl, rfl, rfl⟩
  · exact (sameCrossing_setAcc s _).trans (sameCrossing_emitSample _)

theorem sameCrossing_playFrame (s : State) : SameCrossing s (playFrame s) := by
  unfold playFrame; split <;> exact ⟨rfl, rfl, rfl, rfl⟩

/-- Where a producer command's effect leaves the crossing alone, so does the command. -/
theorem sameCrossing_onAccept {s t : State} {f : State → State} (h : onAccept s f = .next t)
    (hf : SameCrossing s (f s)) : SameCrossing s t := by
  obtain ⟨-, e⟩ | ⟨-, e⟩ := onAccept_cases s f <;> rw [e] at h <;> cases h
  · exact hf
  · exact .refl s

/-- No command writes a synchronised pointer, a parameter or the schedule (R23). -/
theorem sameCrossing_exec {i : Instr} {s t : State} (h : exec i s = .next t) : SameCrossing s t := by
  cases i with
  | step => simp only [exec, execStep] at h; exact sameCrossing_onAccept h ⟨rfl, rfl, rfl, rfl⟩
  | stepframe => simp only [exec, execStepframe] at h; exact sameCrossing_onAccept h ⟨rfl, rfl, rfl, rfl⟩
  | stepsec us => simp only [exec, execStepsec] at h; exact sameCrossing_onAccept h ⟨rfl, rfl, rfl, rfl⟩
  | reset => simp only [exec, execReset] at h; exact sameCrossing_onAccept h ⟨rfl, rfl, rfl, rfl⟩
  | setbtn p b => simp only [exec, execSetbtn] at h; exact sameCrossing_onAccept h ⟨rfl, rfl, rfl, rfl⟩
  | config rate =>
    simp only [exec, execConfig] at h
    refine sameCrossing_onAccept h ?_
    unfold configure; split <;> exact ⟨rfl, rfl, rfl, rfl⟩
  | disable => simp only [exec, execDisable] at h; exact sameCrossing_onAccept h ⟨rfl, rfl, rfl, rfl⟩
  | attach => simp only [exec, execAttach] at h; exact sameCrossing_onAccept h ⟨rfl, rfl, rfl, rfl⟩
  | detach => simp only [exec, execDetach] at h; exact sameCrossing_onAccept h ⟨rfl, rfl, rfl, rfl⟩
  | snapshot => simp only [exec, execSnapshot] at h; exact sameCrossing_onAccept h (sameCrossing_sendBytes _ _)
  | restore => simp only [exec, execRestore] at h; exact sameCrossing_onAccept h (sameCrossing_readBytes _ _ _)
  | frame =>
    simp only [exec, execFrame] at h
    split at h <;> cases h
    · exact ⟨rfl, rfl, rfl, rfl⟩
    · exact sameCrossing_playFrame s
  | flush => cases h; exact ⟨rfl, rfl, rfl, rfl⟩
  | setch n =>
    simp only [exec, execSetch] at h
    split at h <;> cases h <;> exact ⟨rfl, rfl, rfl, rfl⟩

/-- A phase of a step writes neither a synchronised pointer nor the schedule. -/
theorem sameCrossing_phases {s t : State}
    (h : cpuPhase s = .next t ∨ vidPhase s = .next t ∨ audPhase s = .next t ∨ endPhase s = .next t) :
    SameCrossing s t := by
  obtain h | h | h | h := h
  · simp only [cpuPhase] at h
    split_ifs at h <;> cases h <;> exact ⟨rfl, rfl, rfl, rfl⟩
  · simp only [vidPhase] at h
    split_ifs at h <;> cases h <;> exact ⟨rfl, rfl, rfl, rfl⟩
  · simp only [audPhase] at h
    split_ifs at h
    · cases h; exact ⟨rfl, rfl, rfl, rfl⟩
    · obtain ⟨u, hu, hn⟩ := andThen_eq_next h
      cases hn
      have := sameCrossing_samplePath hu
      exact ⟨this.params, this.sched, this.wrSync, this.rdSync⟩
  · simp only [endPhase] at h
    split at h
    · cases h; exact ⟨rfl, rfl, rfl, rfl⟩
    · cases h; exact ⟨rfl, rfl, rfl, rfl⟩
    · simp only [secondsEnd] at h
      split_ifs at h <;> cases h <;> exact ⟨rfl, rfl, rfl, rfl⟩

/-- A turn of PROD writes neither a synchronised pointer nor the schedule. -/
theorem sameCrossing_prodTurn {s t : State} (h : prodTurn s = .next t) : SameCrossing s t := by
  simp only [prodTurn] at h
  split at h
  · cases h; exact sameCrossing_sendBytes _ _
  · cases h; exact sameCrossing_readBytes _ _ _
  · split at h
    · have hc : SameCrossing s (takeCmd s).2 := ⟨rfl, rfl, rfl, rfl⟩
      simp only [idleTurn, runProducerWord] at h
      split at h
      · cases h; exact hc
      · split at h
        · cases h; exact ⟨rfl, rfl, rfl, rfl⟩
        · exact hc.trans (sameCrossing_exec h)
    · exact sameCrossing_phases (.inl h)
    · exact sameCrossing_phases (.inr (.inl h))
    · exact sameCrossing_phases (.inr (.inr (.inl h)))
    · exact sameCrossing_phases (.inr (.inr (.inr h)))
    · cases h; exact ⟨rfl, rfl, rfl, rfl⟩

/-- A turn of CONS writes neither a synchronised pointer nor the schedule. -/
theorem sameCrossing_consTurn {s t : State} (h : consTurn s = .next t) : SameCrossing s t := by
  have hc : SameCrossing s (takeCcmd s).2 := ⟨rfl, rfl, rfl, rfl⟩
  simp only [consTurn, runConsumerWord] at h
  split at h
  · cases h; exact hc
  · split at h
    · cases h; exact ⟨rfl, rfl, rfl, rfl⟩
    · exact hc.trans (sameCrossing_exec h)

/-- What a turn does to the synchronised pointers: SYNC_W copies WR_PTR, SYNC_R copies RD_PTR, and no other turn writes
them; no turn touches the parameters or the schedule (R23). -/
theorem agentTurn_crossing {a : Agent} {s t : State} (h : agentTurn a s = .next t) :
    t.params = s.params ∧ t.world.sched = s.world.sched ∧
    t.cons.wrSync = (if a = .syncW then s.prod.wrPtr else s.cons.wrSync) ∧
    t.prod.rdSync = (if a = .syncR then s.cons.rdPtr else s.prod.rdSync) := by
  cases a with
  | prod => obtain ⟨h1, h2, h3, h4⟩ := sameCrossing_prodTurn h; exact ⟨h1, h2, h3, h4⟩
  | cons => obtain ⟨h1, h2, h3, h4⟩ := sameCrossing_consTurn h; exact ⟨h1, h2, h3, h4⟩
  | syncW => cases h; exact ⟨rfl, rfl, rfl, rfl⟩
  | syncR => cases h; exact ⟨rfl, rfl, rfl, rfl⟩

end Sys2Proof.Machine
end

