-- ==== Sys2Proof/Tests/Slice0.lean ====
section
/-! SUPPORT. Small tests of the model, expected values from the spec's vectors (spec/95_test_vectors.md) or worked out
from its rules, and for every statement with hypotheses a witness that meets them. -/

namespace Sys2Proof.Tests

open Sys2Proof Sys2Proof.Machine

/-! ## States to test on -/

/-- An instance with a slow clock and a short FIFO: `F_CPU = 10`, `CAP = 4`, `FRAME_W = 4`. -/
def tiny : Params := { Params.suggested with fcpu := 10, cap := 4, frameW := 4 }

/-- The tiny instance right after power-on. -/
def base : State := State.powerOn tiny World.empty

/-- The instance of the spec's programs: `F_CPU = 441000`, `CAP = 4`. -/
def bench : State := State.powerOn { Params.suggested with fcpu := 441000, cap := 4 } World.empty

/-- The tiny block with some of its world fixed. -/
def inWorld (w : World) : State := { base with world := w }

/-- The tiny block with another producer domain. -/
def withProd (p : Producer) : State := { base with prod := p }

/-- The tiny block with one sample pushed, seen by both sides, and two channels. -/
def holdsOne : State :=
  { base with
    prod := { base.prod with wrPtr := 1 }
    cons := { base.cons with wrSync := 1, channels := 2#8 }
    mem := [(0, 0x3F000000#32)] }

/-- What the step answered, where it answered a next state. -/
def after (o : Host.Outcome State Fault Refusal) : State :=
  match o with
  | .next s => s
  | _ => base

/-! ## Well-formed commands and operands: each check refuses an ill-formed one (R95, R99) -/

theorem test_wellFormed_own_port : Instr.wellFormed .producer (.stepsec 1#24) = true := by decide
theorem test_wellFormed_other_port : Instr.wellFormed .consumer (.stepsec 1#24) = false := by decide
theorem test_wellFormed_consumer : Instr.wellFormed .producer .frame = false := by decide
theorem test_fit_count : Mnemonic.operandsFit .STEP [0] = false ∧ Mnemonic.operandsFit .STEP [] = true := by decide
theorem test_fit_stepsec :
    Mnemonic.operandsFit .STEPSEC [16777216] = false ∧ Mnemonic.operandsFit .STEPSEC [16777215] = true ∧
      Mnemonic.operandsFit .STEPSEC [] = false := by decide
theorem test_fit_config :
    Mnemonic.operandsFit .CONFIG [16777216] = false ∧ Mnemonic.operandsFit .CONFIG [1, 2] = false := by decide
theorem test_fit_setbtn :
    Mnemonic.operandsFit .SETBTN [2, 0] = false ∧ Mnemonic.operandsFit .SETBTN [0, 256] = false ∧
      Mnemonic.operandsFit .SETBTN [1, 255] = true ∧ Mnemonic.operandsFit .SETBTN [1] = false := by decide
theorem test_fit_setch :
    Mnemonic.operandsFit .SETCH [256] = false ∧ Mnemonic.operandsFit .SETCH [255] = true ∧
      Mnemonic.operandsFit .SETCH [] = false := by decide
theorem test_assemble_refuses : assemble .CONFIG [16777216] = none := by decide
theorem test_assemble_setbtn : assemble .SETBTN [1, 0xFF] = some (.setbtn .two 0xFF#8) := by decide
theorem test_cutoffs :
    cutoffLegal 0x00000000#32 = false ∧ cutoffLegal 0x7F800000#32 = false ∧ cutoffLegal 0xC2B40000#32 = false ∧
      cutoffLegal 0x00000001#32 = true := by decide
theorem test_params : paramsValid Params.suggested = true ∧ paramsValid { Params.suggested with fcpu := 0 } = false ∧
    paramsValid { Params.suggested with cap := 0 } = false ∧
    paramsValid { Params.suggested with frameW := 65 } = false := by decide

/-! ## Decoding: words written out from the encodings (95_test_vectors.md 2.1) -/

theorem test_decode_step : decode .producer 0x01000000#32 = some .step := by decide
theorem test_decode_stepframe : decode .producer 0x02000000#32 = some .stepframe := by decide
theorem test_decode_stepsec : decode .producer 0x03FFFFFF#32 = some (.stepsec 16777215#24) := by decide
theorem test_decode_reset : decode .producer 0x04000000#32 = some .reset := by decide
theorem test_decode_setbtn : decode .producer 0x05000009#32 = some (.setbtn .one 0x09#8) := by decide
theorem test_decode_setbtn_two : decode .producer 0x050001FF#32 = some (.setbtn .two 0xFF#8) := by decide
theorem test_decode_config : decode .producer 0x101B4F4D#32 = some (.config 1789773#24) := by decide
theorem test_decode_disable : decode .producer 0x11000000#32 = some .disable := by decide
theorem test_decode_attach : decode .producer 0x12000000#32 = some .attach := by decide
theorem test_decode_detach : decode .producer 0x13000000#32 = some .detach := by decide
theorem test_decode_snapshot : decode .producer 0x20000000#32 = some .snapshot := by decide
theorem test_decode_restore : decode .producer 0x21000000#32 = some .restore := by decide
theorem test_decode_frame : decode .consumer 0x80000000#32 = some .frame := by decide
theorem test_decode_flush : decode .consumer 0x81000000#32 = some .flush := by decide
theorem test_decode_setch : decode .consumer 0x82000002#32 = some (.setch 2#8) := by decide
theorem test_illegal_producer :
    decode .producer 0x00000000#32 = none ∧ decode .producer 0x01000001#32 = none ∧
      decode .producer 0x05000200#32 = none ∧ decode .producer 0x06000000#32 = none ∧
      decode .producer 0x80000000#32 = none := by decide
theorem test_illegal_consumer :
    decode .consumer 0x01000000#32 = none ∧ decode .consumer 0x80000001#32 = none ∧
      decode .consumer 0x82000100#32 = none ∧ decode .consumer 0x83000000#32 = none := by decide
theorem test_table_word : decodeTableWord 32 0x82000002 = some (.setch 2#8) ∧ decodeTableWord 40 0 = none := by decide
theorem test_encode_config : encode (.config 44100#24) = 0x1000AC44#32 := by decide

/-! ## One step of each command (95_test_vectors.md 2.2 to 2.11) -/

theorem test_step_begins :
    (after (exec .step base)).prod.phase = .cpu ∧ statusWord (after (exec .step base)) = 0x00000001#32 := by decide
/-- 2.3: the counter reads 5 at acceptance; 4 bits of it are kept. -/
theorem test_stepframe_samples :
    (after (exec .stepframe (inWorld { World.empty with frames := [0x15#64] }))).prod.frame0 = 5#64 := by decide
/-- 2.4, the row `us = 16639`. -/
theorem test_stepsec_budget : tickBudget 1789773 16639#24 = 29780 ∧ tickBudget 1789773 16777215#24 = 30027406 := by
  decide
theorem test_stepsec_zero : (after (exec (.stepsec 0#24) base)).prod.phase = .idle := by decide
theorem test_reset_calls : (after (exec .reset base)).out.calls = [.procReset] := by decide
theorem test_setbtn_calls :
    (after (exec (.setbtn .one 0x09#8) base)).out.calls = [.btnWrite .one 0x09#8] := by decide
/-- 2.6: the coefficients of stage 0 at 44100 Hz. -/
theorem test_config_coefficients :
    bilinearDesign 44100#24 0x42B40000#32 .hp = ⟨0x3F7E5E80#32, 0xBF7E5E80#32, 0xBF7CBCFF#32⟩ := by decide +kernel
/-- 2.6: the coefficients of stage 2 at 48000 Hz. -/
theorem test_config_low_pass :
    bilinearDesign 48000#24 0x465AC000#32 .lp = ⟨0x3EF4D173#32, 0x3EF4D173#32, 0xBD32E8D7#32⟩ := by decide +kernel
theorem test_config_refuses : (after (exec (.config 0#24) base)).prod.error = 0x00000002#32 := by decide
theorem test_disable_keeps_rate :
    (after (exec .disable (withProd { base.prod with path := { SamplePath.powerOn with cfgValid := true, rate := 7#24, acc := 3#32 } }))).prod.path
      = { SamplePath.powerOn with rate := 7#24 } := by decide
theorem test_attach_status : statusWord (after (exec .attach base)) = 0x00000008#32 := by decide
theorem test_detach_status : statusWord (after (exec .detach (after (exec .attach base)))) = 0#32 := by decide
/-- 2.10: at power-on SNAPSHOT writes `01 00`, 68 bytes `00`, and `01`. -/
theorem test_snapshot_power_on :
    (after (exec .snapshot (inWorld { World.empty with sinkReady := List.replicate 71 true }))).out.sink
      = 0x01#8 :: 0x00#8 :: (List.replicate 68 0x00#8 ++ [0x01#8]) := by decide +kernel
/-- R28: a byte moves when st_out_valid and st_out_ready are both 1; the CFG byte stays held out. -/
theorem test_snapshot_byte_by_byte :
    (after (exec .snapshot (inWorld { World.empty with sinkReady := [true, false] }))).out.sink = [0x01#8] ∧
      stOutByte (after (exec .snapshot (inWorld { World.empty with sinkReady := [true, false] }))) = some 0x00#8 ∧
      stOutValid (after (exec .snapshot (inWorld { World.empty with sinkReady := [true, false] }))) = true := by
  decide +kernel
/-- 2.10: no byte and then `EOS`. -/
theorem test_restore_truncated :
    (after (exec .restore (inWorld { World.empty with source := [.eos] }))).prod.error = 0x00000005#32 := by
  decide +kernel
/-- 2.10: ACC = 441000 is not below `F_CPU`. -/
theorem test_record_malformed :
    recordValid 441000 (bridgeRecord { SamplePath.powerOn with acc := 441000#32 }) = false := by decide +kernel
/-- 2.9: CH = 0. -/
theorem test_frame_unconfigured :
    (after (exec .frame base)).cons.cerror = 3#32 ∧ (after (exec .frame base)).out.frames = [⟨0#32, 0#8⟩] := by decide
/-- 2.9: CH = 2 and one sample `0x3F000000` visible. -/
theorem test_frame_pops :
    (after (exec .frame holdsOne)).out.frames = [⟨0x3F000000#32, 2#8⟩] ∧
      cstatusWord (after (exec .frame holdsOne)) = 2#32 := by decide
/-- 2.9: WR_SYNC = 7 and RD_PTR = 3. -/
theorem test_flush :
    (after (exec .flush { base with cons := { base.cons with rdPtr := 3, wrSync := 7 } })).cons.rdPtr = 7 := by decide
theorem test_setch : (after (exec (.setch 2#8) base)).cons.channels = 2#8 := by decide
/-- 2.9: CERROR = 3 stays. -/
theorem test_setch_zero :
    (after (exec (.setch 0#8) (after (exec .frame base)))).cons.cerror = 3#32 := by decide

/-! ## The phases, the divider, the filter and the FIFO (95_test_vectors.md 2.2, 2.5, 2.6, 2.8) -/

theorem test_zero_tick :
    (after (cpuPhase (inWorld { World.empty with proc := [⟨0#8, false⟩] }))).prod.error = 0x00000003#32 := by decide
theorem test_fault_before_zero :
    (after (cpuPhase (inWorld { World.empty with proc := [⟨0#8, true⟩] }))).prod.error = 0x00000004#32 := by decide
theorem test_largest_k :
    (after (cpuPhase (inWorld { World.empty with proc := [⟨255#8, false⟩] }))).prod.k = 765#10 := by decide
/-- 2.4: a budget of 1 and `c = 7` end at -6. -/
theorem test_budget_negative :
    (after (secondsEnd (withProd { base.prod with budget := 1#64, curC := 7#8 }))).prod.budget = -6#64 := by decide
/-- 2.5, the row `F_CPU = 10`, `R = 3`: tick 4 fires and leaves ACC = 2. -/
theorem test_divider_fires :
    (after (samplePath { withProd { base.prod with path := { SamplePath.powerOn with cfgValid := true, rate := 3#24, acc := 9#32 } } with
      world := { World.empty with apuOuts := [0#32] } })).prod.path.acc = 2#32 := by decide +kernel
/-- 2.6: one input 1.0 from cleared state at 44100 Hz. -/
theorem test_chain_first_output :
    (chain 0x3F800000#32 (bench.setPath { SamplePath.powerOn with coef :=
      ⟨⟨0x3F7E5E80#32, 0xBF7E5E80#32, 0xBF7CBCFF#32⟩, ⟨0x3F783839#32, 0xBF783839#32, 0xBF707073#32⟩,
        ⟨0x3EFFA86E#32, 0x3EFFA86E#32, 0xBAAF2602#32⟩⟩ })).1 = 0x3EF64F0B#32 := by decide +kernel
/-- 2.6: stage 0's second output for the constant input 1.0. -/
theorem test_stage_second_output :
    unfusedArith 0x3F7E5E80#32 0xBF7E5E80#32 0xBF7CBCFF#32 0x3F800000#32 0x3F800000#32 0x3F7E5E80#32
      = 0x3F7B20D1#32 := by decide +kernel
/-- 2.6: `-0.0` through stage 0 gives `+0.0`. -/
theorem test_stage_negative_zero :
    unfusedArith 0x3F7E5E80#32 0xBF7E5E80#32 0xBF7CBCFF#32 0x80000000#32 0#32 0#32 = 0#32 := by decide +kernel
/-- 2.8: push `e` is dropped. -/
theorem test_push_full : push (withProd { base.prod with wrPtr := 4 }) 0x3F800000#32
    = withProd { base.prod with wrPtr := 4 } := by decide
/-- 2.8: push `k` writes entry 3 and WR_PTR wraps. -/
theorem test_push_wraps :
    push { base with prod := { base.prod with wrPtr := 7, rdSync := 7 } } 0x3F800000#32
      = { base with prod := { base.prod with wrPtr := 0, rdSync := 7 }, mem := [(3, 0x3F800000#32)] } := by decide
/-- An entry written twice is listed once, and the list stays in order. -/
theorem test_memory_canonical :
    Memory.write (Memory.write (Memory.write [] 2 5#32) 0 6#32) 2 7#32 = [(0, 6#32), (2, 7#32)] := by decide
/-- 3, P4: an illegal word halts PROD. -/
theorem test_illegal_halts :
    statusWord (after (step (base.withFetchWord 32 0x00000000))) = 0x00000002#32 := by decide
/-- 2.12: the power-on views. -/
theorem test_power_on_views : statusWord State.reset = 0#32 ∧ cstatusWord State.reset = 2#32 := by decide
theorem test_pointer_width : ptrWidth 44100 = 17 ∧ ptrWidth 4 = 3 ∧ ptrWidth (2 ^ 30) = 31 := by decide

/-! ## Witnesses: every statement's hypotheses can be met, each clause at the ends of its range -/

/-- The part of the stored-samples invariant that a list of entries decides. -/
theorem stored_of {s : State} (hw : s.mem.wf = true) (hc : s.mem.all (fun e => decide (e.1 < s.params.cap)) = true)
    (hs : (List.range s.count).all (fun j => (s.mem.cell ((s.cons.rdPtr + j) % s.params.cap)).isSome) = true) :
    StoredOk s := by
  refine ⟨hw, ?_, ?_⟩
  · intro i v h
    have key : ∀ m : Memory, m.all (fun e => decide (e.1 < s.params.cap)) = true → m.cell i = some v →
        i < s.params.cap := by
      intro m
      induction m with
      | nil => intro _ h; simp [Memory.cell] at h
      | cons e rest ih =>
        obtain ⟨j, u⟩ := e
        intro hall h
        simp only [List.all_cons, Bool.and_eq_true, decide_eq_true_eq] at hall
        by_cases hj : j = i
        · subst hj; exact hall.1
        · simp only [Memory.cell, if_neg hj] at h; exact ih hall.2 h
    exact key s.mem hc h
  · intro j hj
    exact List.all_eq_true.1 hs j (List.mem_range.2 hj)

/-- The invariant from its decidable parts. -/
theorem inv_of {s : State} (h1 : paramsValid s.params = true) (ht : ticksOk s.prod)
    (h2 : -254 ≤ s.prod.budget.toInt ∧ s.prod.budget.toInt < 2 ^ 36 ∧
      (busy s = true → s.prod.mode = .seconds → 0 < s.prod.budget.toInt) ∧
      s.prod.frame0.toNat < 2 ^ s.params.frameW)
    (hs : streamOk s.prod)
    (h3 : s.prod.phase ≠ .halt → s.prod.path.acc.toNat < s.params.fcpu ∧
      (s.prod.path.cfgValid = true → rateLegal s.params.fcpu s.prod.path.rate = true))
    (h4 : s.prod.error ∈ errorValues ∧ (s.prod.error = 0#32 ↔ s.prod.phase ≠ .halt) ∧
      s.cons.cerror ∈ cerrorValues ∧ (s.cons.cerror = 0#32 ↔ s.cons.cfault = false))
    (h5 : s.prod.wrPtr < 2 * s.params.cap ∧ s.prod.rdSync < 2 * s.params.cap ∧
      s.cons.rdPtr < 2 * s.params.cap ∧ s.cons.wrSync < 2 * s.params.cap ∧
      s.countC ≤ s.count ∧ s.count ≤ s.countP ∧ s.countP ≤ s.params.cap)
    (h6 : StoredOk s) : Inv s := ⟨h1, ⟨ht, h2.1, h2.2.1, h2.2.2.1, h2.2.2.2, hs⟩, h3, h4, h5, h6⟩

theorem witness_inv_base : Inv base :=
  inv_of (by decide) trivial (by decide) trivial (by decide) (by decide) (by decide)
    (stored_of (by decide) (by decide) (by decide))

theorem witness_inv_holdsOne : Inv holdsOne :=
  inv_of (by decide) trivial (by decide) trivial (by decide) (by decide) (by decide)
    (stored_of (by decide) (by decide) (by decide))

/-- The tiny block in the CPU phase of a STEP whose processor answers `r`, its units raising the faults given. -/
def inCpu (r : ProcReply) (ppu mapper apu : List Bool) : State :=
  { inWorld { World.empty with proc := [r], ppuFaults := ppu, mapperFaults := mapper, apuFaults := apu } with
    prod := { base.prod with phase := .cpu } }

theorem witness_inv_inCpu : Inv (inCpu ⟨1#8, false⟩ [false, false, false] [false, false, false] [false]) :=
  inv_of (by decide) trivial (by decide) trivial (by decide) (by decide) (by decide)
    (stored_of (by decide) (by decide) (by decide))

theorem witness_inv_inCpu_fault : Inv (inCpu ⟨1#8, false⟩ [true] [] []) :=
  inv_of (by decide) trivial (by decide) trivial (by decide) (by decide) (by decide)
    (stored_of (by decide) (by decide) (by decide))

/-! Encoding. -/

theorem witness_EncodeOfDecode :
    decode .producer 0x03FFFFFF#32 = some (.stepsec 16777215#24) ∧ decode .consumer 0x82000000#32 = some (.setch 0#8) := by
  decide
theorem witness_PortsDecodeOwnTable :
    Port.consumer ≠ (Instr.mnemonic .step).port ∧ Port.producer ≠ (Instr.mnemonic .frame).port ∧
      (0x01FFFFFF#32).extractLsb' 24 8 = (encode .step).extractLsb' 24 8 := by decide
theorem witness_IllegalWordsFault :
    decode .producer 0xFFFFFFFF#32 = none ∧ decode .consumer 0x7FFFFFFF#32 = none := by decide
theorem witness_IllegalWordsFault_turns :
    base.prod.stream = .none ∧ base.prod.phase = .idle ∧
      (takeCmd (inWorld { World.empty with cmds := [some 0xFFFFFFFF#32] })).1 = some 0xFFFFFFFF#32 ∧
      (takeCcmd (inWorld { World.empty with ccmds := [some 0x7FFFFFFF#32] })).1 = some 0x7FFFFFFF#32 := by decide
theorem witness_OperandFields :
    decode .producer 0x03000000#32 = some (.stepsec 0#24) ∧ decode .producer 0x10FFFFFF#32 = some (.config 0xFFFFFF#24) ∧
    decode .consumer 0x820000FF#32 = some (.setch 0xFF#8) ∧
    (decode .producer 0x05000000#32 = some (.setbtn .one 0#8) ∧ (0x05000000#32).toNat / 2 ^ 8 % 2 = 0) ∧
    (decode .producer 0x050001FF#32 = some (.setbtn .two 0xFF#8) ∧ (0x050001FF#32).toNat / 2 ^ 8 % 2 = 1) := by decide
theorem witness_AssemblerRefusesMisfits :
    assemble .STEP [] = some .step ∧ assemble .STEPSEC [16777215] = some (.stepsec 0xFFFFFF#24) ∧
    assemble .CONFIG [0] = some (.config 0#24) ∧ assemble .SETCH [255] = some (.setch 0xFF#8) ∧
    assemble .SETBTN [0, 0] = some (.setbtn .one 0#8) ∧ assemble .SETBTN [1, 255] = some (.setbtn .two 0xFF#8) := by
  decide

/-! Commands of the producer port. -/

theorem witness_accepting : accepting base = true := by decide
theorem witness_StepBegins : accepting base = true := by decide
theorem witness_StepframeBegins : accepting base = true ∧ base.params.frameW ≤ 64 := by decide
theorem witness_StepframeBegins_widest : accepting State.reset = true ∧ State.reset.params.frameW = 64 := by decide
theorem witness_StepsecBegins : accepting base = true ∧ paramsValid base.params = true := by decide
theorem witness_ResetAndSetbtnCallOut : accepting base = true := by decide
theorem witness_ConfigLoadsOrRefuses :
    accepting base = true ∧ (0#24).toNat = 0 ∧ base.params.fcpu < (11#24).toNat ∧
      (1 ≤ (1#24).toNat ∧ (1#24).toNat ≤ base.params.fcpu) ∧
      (1 ≤ (10#24).toNat ∧ (10#24).toNat ≤ base.params.fcpu) := by decide
theorem witness_DisableAttachDetach : accepting base = true := by decide

/-- A sink that takes `n` bytes at once and is not ready for the next one. -/
def sinkTakes (n : Nat) : State := inWorld { World.empty with sinkReady := List.replicate n true ++ [false] }

theorem witness_SnapshotSendsRecord :
    accepting (sinkTakes 71) = true ∧ (sinkTakes 71).world.sinkReady = List.replicate 71 true ++ [false] :=
  ⟨by decide, rfl⟩

/-- The record of the sample path `x`, then nothing more. -/
def offering (x : SamplePath) : State := inWorld { World.empty with source := (bridgeRecord x).map .byte }

/-- A configured sample path with the largest ACC of the tiny instance and its largest rate. -/
def tinyPath : SamplePath := { SamplePath.powerOn with cfgValid := true, rate := 10#24, acc := 9#32 }

theorem witness_RestoreCommits :
    accepting (offering tinyPath) = true ∧
      (offering tinyPath).world.source = (bridgeRecord tinyPath).map .byte ++ [] ∧
      (bridgeRecord tinyPath).length = 71 ∧ byteAt (bridgeRecord tinyPath) 70 = 0x01#8 ∧
      recordValid (offering tinyPath).params.fcpu (bridgeRecord tinyPath) = true := by decide +kernel

theorem witness_RestoreCommits_fields :
    byteAt (bridgeRecord tinyPath) 0 = 0x01#8 ∧ byteAt (bridgeRecord tinyPath) 1 = 0x01#8 ∧
      leValue (bridgeRecord tinyPath) 2 = 10 ∧ leValue (bridgeRecord tinyPath) 6 = 9 ∧ tiny.fcpu = 10 ∧
      byteAt (bridgeRecord SamplePath.powerOn) 1 = 0x00#8 := by decide +kernel

/-- A whole record with a bad sentinel. -/
def badSentinel : List Byte := (bridgeRecord tinyPath).take 70 ++ [0x00#8]

/-- A whole record whose ACC is `F_CPU`. -/
def badAcc : List Byte := bridgeRecord { tinyPath with acc := 10#32 }

theorem witness_RestoreFailures_sentinel :
    accepting (inWorld { World.empty with source := badSentinel.map .byte }) = true ∧ badSentinel.length = 71 ∧
      byteAt badSentinel 70 ≠ 0x01#8 := by decide +kernel
theorem witness_RestoreFailures_malformed :
    accepting (inWorld { World.empty with source := badAcc.map .byte }) = true ∧ badAcc.length = 71 ∧
      byteAt badAcc 70 = 0x01#8 ∧ tiny.fcpu ≤ leValue badAcc 6 := by decide +kernel
/-- The other conditions of `Valid`, each broken alone. -/
theorem witness_RestoreFailures_each :
    byteAt (0x02#8 :: (bridgeRecord tinyPath).tail) 0 ≠ 0x01#8 ∧
      byteAt (0x01#8 :: 0x02#8 :: (bridgeRecord tinyPath).drop 2) 1 ≠ 0x01#8 ∧
      2 ^ 24 ≤ leValue (0x01#8 :: 0x00#8 :: [0x00#8, 0x00#8, 0x00#8, 0x01#8] ++ (bridgeRecord tinyPath).drop 6) 2 ∧
      leValue (bridgeRecord { tinyPath with rate := 0#24 }) 2 = 0 ∧
      tiny.fcpu < leValue (bridgeRecord { tinyPath with rate := 11#24 }) 2 := by decide +kernel
theorem witness_TruncatedRestoreFails_none :
    (inWorld { World.empty with source := [.eos] }).world.source = ([] : List Byte).map .byte ++ .eos :: [] ∧
      ([] : List Byte).length < 71 := by decide
theorem witness_TruncatedRestoreFails_seventy :
    accepting (inWorld { World.empty with source := ((bridgeRecord tinyPath).take 70).map .byte ++ [.eos] }) = true ∧
      ((bridgeRecord tinyPath).take 70).length < 71 := by decide +kernel

theorem witness_StreamCommandsWait_snapshot (n : Nat) :
    accepting (sinkTakes n) = true ∧ 0 < 71 ∧ 70 < 71 ∧
      (sinkTakes n).world.sinkReady = List.replicate n true ++ false :: [] := ⟨rfl, by decide, by decide, rfl⟩
/-- The last byte, and a byte before the last, held out to a sink that takes `n`. -/
theorem witness_StreamCommandsWait_snapshot_resumes (n : Nat) :
    ((sinkTakes n).setStream (.snapshot [0x00#8, 0x01#8])).prod.stream = .snapshot [0x00#8, 0x01#8] ∧
      ((sinkTakes n).setStream (.snapshot [0x00#8, 0x01#8])).prod.phase = .idle ∧
      ((sinkTakes n).setStream (.snapshot [0x00#8, 0x01#8])).world.sinkReady = List.replicate n true ++ false :: [] ∧
      0 < [0x00#8, 0x01#8].length ∧ 1 < [0x00#8, 0x01#8].length := ⟨rfl, rfl, rfl, by decide, by decide⟩
theorem witness_StreamCommandsWait_restore :
    accepting (inWorld { World.empty with source := [.byte 1#8, .silent] }) = true ∧
      (inWorld { World.empty with source := [.byte 1#8, .silent] }).world.source = [1#8].map .byte ++ .silent :: [] ∧
      [1#8].length < 71 ∧ ([] : List Byte).length < 71 := by decide
/-- A RESTORE that has the first 70 bytes, and one that has 69, go on. -/
theorem witness_StreamCommandsWait_restore_resumes :
    ((inWorld { World.empty with source := [.byte 1#8] }).setStream
        (.restore ((bridgeRecord tinyPath).take 70))).prod.stream = .restore ((bridgeRecord tinyPath).take 70) ∧
      (inWorld { World.empty with source := [.byte 1#8] }).world.source = [1#8].map .byte ++ [] ∧
      ((bridgeRecord tinyPath).take 70).length + [1#8].length = 71 ∧
      byteAt ((bridgeRecord tinyPath).take 70 ++ [1#8]) 70 = 0x01#8 ∧
      recordValid tiny.fcpu ((bridgeRecord tinyPath).take 70 ++ [1#8]) = true ∧
      ((bridgeRecord tinyPath).take 69).length + [1#8].length < 71 := by decide +kernel
theorem witness_NotAcceptedChangesNothing :
    (Instr.mnemonic .step).port = .producer ∧ accepting (withProd { base.prod with phase := .halt }) = false ∧
      accepting (withProd { base.prod with phase := .aud }) = false ∧
      accepting (withProd { base.prod with stream := .restore [] }) = false ∧
      (withProd { base.prod with phase := .halt }).prod.stream = .none := by decide

/-! Commands of the consumer port. -/

theorem witness_FrameEmits :
    base.cons.channels = 0#8 ∧
      (({ base with cons := { base.cons with channels := 1#8 } } : State).cons.channels ≠ 0#8 ∧
        ({ base with cons := { base.cons with channels := 1#8 } } : State).cons.rdPtr = base.cons.wrSync) ∧
      (holdsOne.cons.channels ≠ 0#8 ∧ holdsOne.cons.rdPtr ≠ holdsOne.cons.wrSync) := by decide
theorem witness_FlushAndSetch : (1#8) ≠ 0#8 ∧ (255#8) ≠ 0#8 := by decide

/-! The phases. -/

theorem witness_CpuPhaseRule (r : ProcReply) :
    (inCpu r [] [] []).prod.stream = .none ∧ (inCpu r [] [] []).prod.phase = .cpu ∧ r = (procStep (inCpu r [] [] [])).1 :=
  ⟨rfl, rfl, rfl⟩

/-- The tiny block in the VID phase with `k` pairs left. -/
def inVid (k : BitVec 10) (f g : Bool) : State :=
  { inWorld { World.empty with ppuFaults := [f], mapperFaults := [g] } with
    prod := { base.prod with phase := .vid, curC := 255#8, k := k } }

theorem witness_VidPhaseRule (f g : Bool) :
    (inVid 1#10 f g).prod.stream = .none ∧ (inVid 1#10 f g).prod.phase = .vid ∧ 1 ≤ (inVid 1#10 f g).prod.k.toNat ∧
      1 < (inVid 765#10 f g).prod.k.toNat ∧ (inVid 1#10 f g).prod.k.toNat = 1 ∧
      f = (ppuTick (inVid 1#10 f g)).1 ∧ g = (mapperTick (ppuTick (inVid 1#10 f g)).2).1 := by
  cases f <;> cases g <;> decide

/-- The tiny block in the AUD phase with `k` ticks left. -/
def inAud (k : BitVec 10) (f : Bool) : State :=
  { inWorld { World.empty with apuFaults := [f] } with
    prod := { base.prod with phase := .aud, curC := 255#8, k := k } }

theorem witness_AudPhaseRule_fault :
    (inAud 1#10 true).prod.stream = .none ∧ (inAud 1#10 true).prod.phase = .aud ∧
      1 ≤ (inAud 1#10 true).prod.k.toNat ∧ (apuTick (inAud 1#10 true)).1 = true := by decide
theorem witness_AudPhaseRule_ticks :
    (apuTick (inAud 255#10 false)).1 = false ∧ samplePath (apuTick (inAud 255#10 false)).2 = .next (apuTick (inAud 255#10 false)).2 :=
  ⟨by decide, rfl⟩

/-- The tiny block in the END phase of a command of mode `m`. -/
def inEnd (m : Mode) (b : BitVec 64) : State :=
  withProd { base.prod with phase := .stepEnd, curC := 255#8, mode := m, budget := b }

theorem witness_EndPhaseRule (m : Mode) (b : BitVec 64) :
    (inEnd m b).prod.stream = .none ∧ (inEnd m b).prod.phase = .stepEnd ∧ (inEnd m b).prod.mode = m := ⟨rfl, rfl, rfl⟩
theorem witness_EndPhaseRule_budget :
    -2 ^ 63 + 255 ≤ (inEnd .seconds 1#64).prod.budget.toInt ∧
      -2 ^ 63 + 255 ≤ (inEnd .seconds 0x80000000000000FF#64).prod.budget.toInt := by decide

/-! Whole commands. -/

/-- The state a run of one step comes to. -/
def stepped (n : Nat) (r : ProcReply) (ppu mapper apu : List Bool) : State :=
  after (runStep (List.replicate n .prod) (inCpu r ppu mapper apu))

theorem witness_TickCountLaw_end :
    (inCpu ⟨1#8, false⟩ [false, false, false] [false, false, false] [false]).prod.phase = .cpu ∧
      runStep (List.replicate 5 .prod) (inCpu ⟨1#8, false⟩ [false, false, false] [false, false, false] [false]) =
        .next (stepped 5 ⟨1#8, false⟩ [false, false, false] [false, false, false] [false]) ∧
      (stepped 5 ⟨1#8, false⟩ [false, false, false] [false, false, false] [false]).prod.phase = .stepEnd :=
  ⟨by decide, rfl, by decide⟩
theorem witness_TickCountLaw_fault :
    runStep (List.replicate 2 .prod) (inCpu ⟨1#8, false⟩ [true] [] []) = .next (stepped 2 ⟨1#8, false⟩ [true] [] []) ∧
      (stepped 2 ⟨1#8, false⟩ [true] [] []).prod.phase = .halt := ⟨rfl, by decide⟩

/-- The tiny block in IDLE before a command whose one step has `c = 1` and no fault. -/
def ready : State :=
  inWorld { World.empty with
    proc := [⟨1#8, false⟩], ppuFaults := [false, false, false], mapperFaults := [false, false, false],
    apuFaults := [false] }

theorem witness_inv_ready : Inv ready :=
  inv_of (by decide) trivial (by decide) trivial (by decide) (by decide) (by decide)
    (stored_of (by decide) (by decide) (by decide))

theorem witness_StepTakesItsTurns :
    accepting ready = true ∧ ready.world.proc = ⟨1#8, false⟩ :: [] ∧
      ready.world.ppuFaults = List.replicate (3 * (1#8).toNat) false ++ [] ∧
      ready.world.mapperFaults = List.replicate (3 * (1#8).toNat) false ++ [] ∧
      ready.world.apuFaults = List.replicate (1#8).toNat false ++ [] ∧
      exec .step ready = .next (after (exec .step ready)) := ⟨by decide, rfl, rfl, rfl, rfl, rfl⟩
theorem witness_StepTakesItsTurns_enough : 2 + 4 * (1#8).toNat ≤ (List.replicate 6 Agent.prod).count .prod := by decide
theorem witness_StepTakesItsTurns_fewer :
    [Agent.prod].count .prod < 2 + 4 * (1#8).toNat ∧
      runCommand [.prod] (after (exec .step ready)) = .next (after (runCommand [.prod] (after (exec .step ready)))) :=
  ⟨by decide, rfl⟩
/-- A budget of 1 tick, used up by one step. -/
theorem witness_StepsecOvershoot :
    tickBudget ready.params.fcpu 100000#24 = 1 ∧
      exec (.stepsec 100000#24) ready = .next (after (exec (.stepsec 100000#24) ready)) ∧
      runCommand (List.replicate 6 .prod) (after (exec (.stepsec 100000#24) ready)) =
        .next (after (runCommand (List.replicate 6 .prod) (after (exec (.stepsec 100000#24) ready)))) ∧
      (after (runCommand (List.replicate 6 .prod) (after (exec (.stepsec 100000#24) ready)))).prod.phase = .idle :=
  ⟨by decide, rfl, rfl, by decide⟩
theorem witness_StepsecOvershoot_zero :
    tickBudget ready.params.fcpu 99999#24 = 0 ∧
      runCommand [.prod] (after (exec (.stepsec 99999#24) ready)) = .next (after (exec (.stepsec 99999#24) ready)) ∧
      (after (exec (.stepsec 99999#24) ready)).prod.phase = .idle := ⟨by decide, rfl, by decide⟩
theorem witness_SteppingCommandsEnd :
    accepting base = true ∧ exec .step base = .next (after (exec .step base)) ∧
      exec (.stepsec 0xFFFFFF#24) base = .next (after (exec (.stepsec 0xFFFFFF#24) base)) ∧
      1022 * tickBudget base.params.fcpu 0xFFFFFF#24 ≤ (List.replicate 170674 Agent.prod).count .prod ∧
      1022 ≤ (List.replicate 1022 Agent.prod).count .prod :=
  ⟨by decide, rfl, rfl, by rw [List.count_replicate_self]; decide, by rw [List.count_replicate_self]⟩

/-! The sample path. -/

/-- The tiny block with the sample path given. -/
def onPath (x : SamplePath) : State := withProd { base.prod with path := x }

theorem witness_AudioTickRule :
    (SamplePath.powerOn.cfgValid = false ∧ tiny.fcpu < (0xFFFFFF#24).toNat) ∧
      (onPath tinyPath).params.fcpu < 2 ^ 31 ∧ tinyPath.acc.toNat < tiny.fcpu ∧ tinyPath.rate.toNat ≤ tiny.fcpu ∧
      (tinyPath.cfgValid = true ∧ tiny.fcpu ≤ tinyPath.acc.toNat + tinyPath.rate.toNat) ∧
      (0#32).toNat + (9#24).toNat < tiny.fcpu ∧ tiny.fcpu ≤ (0#32).toNat + (10#24).toNat := by decide
/-- The fastest divider of an instance with `F_CPU = 1` fires once in one tick. -/
theorem witness_DividerLaw :
    ∃ t, audioTicks 1 { onPath { SamplePath.powerOn with cfgValid := true, rate := 1#24 } with
        params := { tiny with fcpu := 1 } } = .next t ∧ rateLegal 1 1#24 = true := ⟨_, rfl, by decide⟩
theorem witness_DividerLaw_none :
    audioTicks 0 (onPath tinyPath) = .next (onPath tinyPath) ∧ rateLegal tiny.fcpu tinyPath.rate = true :=
  ⟨rfl, by decide⟩
theorem witness_StageRule_number :
    isNaN (stageValue tiny.arith Coef.zero StageState.zero 0x3F800000#32) = false := by decide +kernel
theorem witness_StageRule_nan :
    isNaN (stageValue tiny.arith Coef.zero StageState.zero 0x7FC00000#32) = true ∧ tiny.arith = .unfused := by
  decide +kernel
theorem witness_NaNStays :
    tiny.arith = .unfused ∧ isNaN 0x7FC00000#32 = true ∧ isNaN 0xFF800001#32 = true ∧ isNaN 0x7F800000#32 = false := by
  decide
theorem witness_ConstantInputDecays :
    isNaN (bilinearDesign 44100#24 0x42B40000#32 .hp).b0 = false ∧
      isFinite (mulF32 0x3F7E5E80#32 0x3F800000#32) = true := by decide +kernel
theorem witness_RoundNearestEven :
    isFinite (roundF32 false 16777217 0) = true ∧ isFinite 0x4B800001#32 = true ∧
      roundF32 false 16777217 0 = 0x4B800000#32 := by decide +kernel
/-- A tie: `2^24 + 1` lies half way between `2^24` and `2^24 + 2`. -/
theorem witness_RoundNearestEven_tie :
    |f32Value 0x4B800001#32 - exactValue false 16777217 0| =
        |f32Value 0x4B800000#32 - exactValue false 16777217 0| ∧
      f32Value 0x4B800001#32 ≠ f32Value 0x4B800000#32 := by
  have h1 : viewF32 0x4B800001#32 = .fin false 8388609 1 := by decide +kernel
  have h0 : viewF32 0x4B800000#32 = .fin false 8388608 1 := by decide +kernel
  simp only [f32Value, h1, h0, exactValue, signedNat]
  norm_num
theorem witness_ArithmeticRoundsExact :
    isFinite 0x3F800000#32 = true ∧ isFinite 0x40000000#32 = true ∧
      f32Value 0x3F800000#32 + f32Value 0x40000000#32 ≠ 0 ∧ f32Value 0x3F800000#32 - f32Value 0x40000000#32 ≠ 0 := by
  have h1 : viewF32 0x3F800000#32 = .fin false 8388608 (-23) := by decide +kernel
  have h0 : viewF32 0x40000000#32 = .fin false 8388608 (-22) := by decide +kernel
  refine ⟨by decide +kernel, by decide +kernel, ?_, ?_⟩ <;>
  · simp only [f32Value, h1, h0, exactValue, signedNat]
    norm_num

/-! The FIFO and the domains. -/

theorem witness_PushRule :
    (withProd { base.prod with wrPtr := 4 }).countP = tiny.cap ∧ base.countP ≠ tiny.cap ∧
      (withProd { base.prod with wrPtr := 3 }).countP ≠ tiny.cap := by decide
theorem witness_FifoRefinesQueue :
    (∃ t, agentTurn .syncW holdsOne = .next t) ∧ (∃ t, agentTurn .syncR holdsOne = .next t) ∧
      (∃ t, agentTurn .cons { holdsOne with world := { World.empty with ccmds := [some 0x81000000#32] } } = .next t) ∧
      ∃ t, agentTurn .prod { holdsOne with world := { World.empty with cmds := [some 0x01000000#32] } } = .next t :=
  ⟨⟨_, rfl⟩, ⟨_, rfl⟩, ⟨_, rfl⟩, ⟨_, rfl⟩⟩
theorem witness_PopTakesOldest :
    Inv holdsOne ∧ holdsOne.cons.channels ≠ 0#8 ∧ holdsOne.cons.rdPtr ≠ holdsOne.cons.wrSync :=
  ⟨witness_inv_holdsOne, by decide, by decide⟩
theorem witness_OccupancyInvariant :
    FifoOk base ∧ (∃ t, step (inWorld { World.empty with sched := [.syncW] }) = .next t) ∧ paramsValid tiny = true :=
  ⟨witness_inv_base.2.2.2.2.1, ⟨_, rfl⟩, by decide⟩
theorem witness_CallbackLaw :
    Inv holdsOne ∧ holdsOne.cons.channels ≠ 0#8 ∧
      ([⟨1#32, 2#8⟩] : List Frame)[0]? = some ⟨1#32, 2#8⟩ ∧ 1 < (2#8).toNat ∧
      (∀ g ∈ ([⟨1#32, 2#8⟩] : List Frame), g.channels = 2#8) :=
  ⟨witness_inv_holdsOne, by decide, rfl, by decide, by decide⟩
theorem witness_SynchronisersCopy :
    (∃ t, agentTurn .syncW holdsOne = .next t) ∧ ∃ t, agentTurn .syncR holdsOne = .next t := ⟨⟨_, rfl⟩, ⟨_, rfl⟩⟩
/-! Infinite runs, for the synchronisers' fairness: PROD stands in HALT and CONS takes whatever it is offered. -/

/-- The tiny block with one sample queued that CONS does not see yet, and PROD in HALT. -/
def halts : State :=
  { holdsOne with
    prod := { holdsOne.prod with phase := .halt, error := 1#32 }
    cons := { holdsOne.cons with wrSync := 0 } }

/-- The same block after CONS saw the sample and popped it, before SYNC_R steps. -/
def drained : State := { halts with cons := { halts.cons with rdPtr := 1, wrSync := 1 } }

/-- The states a run from `s` goes through. -/
def runFrom (s : State) : Nat → State
  | 0 => s
  | n + 1 => after (step (runFrom s n))

/-- PROD stands in HALT, of a legal instance, with WR_PTR at `w`. -/
def Halted (w : Nat) (s : State) : Prop :=
  paramsValid s.params = true ∧ s.prod.stream = .none ∧ s.prod.phase = .halt ∧ s.prod.wrPtr = w

/-- CONS has popped everything, and sees so. -/
def Drained (w : Nat) (s : State) : Prop := s.cons.rdPtr = w ∧ s.cons.wrSync = w

/-- A command in a halted block answers a next state: halted, and drained where it was. -/
theorem halted_exec {w : Nat} {s : State} (h : Halted w s) (i : Instr) :
    ∃ t, exec i s = .next t ∧ Halted w t ∧ (Drained w s → Drained w t) := by
  have ha : accepting s = false := by simp [accepting, h.2.2.1]
  cases i with
  | frame =>
    simp only [exec, execFrame, playFrame]
    split
    · exact ⟨_, rfl, h, id⟩
    · split
      · exact ⟨_, rfl, h, id⟩
      · rename_i hne
        refine ⟨_, rfl, h, fun d => absurd (d.1.trans d.2.symm) ?_⟩
        simpa [vempty] using hne
  | flush => exact ⟨_, rfl, h, fun d => ⟨d.2, d.2⟩⟩
  | setch n => simp only [exec, execSetch]; split <;> exact ⟨_, rfl, h, id⟩
  | _ =>
    simp only [exec, execStep, execStepframe, execStepsec, execReset, execSetbtn, execConfig, execDisable, execAttach,
      execDetach, execSnapshot, execRestore, onAccept_not_accepting ha]
    exact ⟨s, rfl, h, id⟩

/-- A step of a halted block answers a next state: halted, and drained where it was. -/
theorem halted_step {w : Nat} {s : State} (h : Halted w s) :
    ∃ t, step s = .next t ∧ Halted w t ∧ (Drained w s → Drained w t) := by
  simp only [step, machineStep, h.1, if_true]
  cases (takeAgent s).1 with
  | prod =>
    simp only [agentTurn, prodTurn, takeAgent_prod, h.2.1, h.2.2.1, haltTurn]
    exact ⟨_, rfl, h, id⟩
  | cons =>
    simp only [agentTurn, consTurn, runConsumerWord]
    split
    · exact ⟨_, rfl, h, id⟩
    · split
      · exact ⟨_, rfl, h, id⟩
      · exact halted_exec (s := (takeCcmd (takeAgent s).2).2) h _
  | syncW => exact ⟨_, rfl, h, fun d => ⟨d.1, h.2.2.2⟩⟩
  | syncR => exact ⟨_, rfl, h, id⟩

/-- The run from a halted block is an infinite run of halted blocks, drained ones where it starts with one. -/
theorem runFrom_halted {w : Nat} {s : State} (h : Halted w s) (n : Nat) :
    Halted w (runFrom s n) ∧ (Drained w s → Drained w (runFrom s n)) ∧
      step (runFrom s n) = .next (runFrom s (n + 1)) := by
  have key : ∀ u, Halted w u → step u = .next (after (step u)) := by
    intro u hu
    obtain ⟨t, e, -⟩ := halted_step hu
    rw [e]; rfl
  induction n with
  | zero => exact ⟨h, id, key s h⟩
  | succ n ih =>
    obtain ⟨t, e, ht, hd⟩ := halted_step ih.1
    have hn : runFrom s (n + 1) = t := by rw [runFrom, e]; rfl
    exact ⟨hn ▸ ht, fun d => hn ▸ hd (ih.2.1 d), key _ (hn ▸ ht)⟩

theorem halted_halts : Halted 1 halts := by unfold Halted; decide
theorem halted_drained : Halted 1 drained ∧ Drained 1 drained := by unfold Halted Drained; decide

theorem witness_SynchronisersCopy_run : IsRun (runFrom halts) := fun n => (runFrom_halted halted_halts n).2.2
theorem witness_SynchronisersCopy_no_more_pushes :
    (∀ m, 0 ≤ m → (runFrom halts m).prod.wrPtr = (runFrom halts 0).prod.wrPtr) ∧
      halts.queue = [0x3F000000#32] ∧ halts.countC = 0 :=
  ⟨fun m _ => (runFrom_halted halted_halts m).1.2.2.2, by decide, by decide⟩
theorem witness_SynchronisersCopy_no_more_pops :
    IsRun (runFrom drained) ∧ (∀ m, 0 ≤ m → (runFrom drained m).cons.rdPtr = (runFrom drained 0).cons.rdPtr) ∧
      drained.countP = 1 ∧ drained.count = 0 :=
  ⟨fun n => (runFrom_halted halted_drained.1 n).2.2,
    fun m _ => ((runFrom_halted halted_drained.1 m).2.1 halted_drained.2).1, by decide, by decide⟩

theorem witness_DomainsIsolated :
    (∃ t, prodTurn (inWorld { World.empty with cmds := [some 0x12000000#32] }) = .next t) ∧
      ∃ t, consTurn (inWorld { World.empty with ccmds := [some 0x82000002#32] }) = .next t := ⟨⟨_, rfl⟩, ⟨_, rfl⟩⟩
theorem witness_DomainsIsolated_entry : (1 : Nat) ≠ base.prod.wrPtr % base.params.cap := by decide
theorem witness_DomainsDoNotSeeEachOther :
    (∃ t, consTurn (inWorld { World.empty with ccmds := [some 0x80000000#32] }) = .next t) ∧
      ∃ t, prodTurn (inWorld { World.empty with cmds := [some 0x01000000#32] }) = .next t := ⟨⟨_, rfl⟩, ⟨_, rfl⟩⟩

/-! Faults, the record, reset and the read ports. -/

/-- The tiny block faulted on both sides, its consumer about to step. -/
def faulted : State :=
  { inWorld { World.empty with sched := [.cons], ccmds := [some 0#32] } with
    prod := { base.prod with phase := .halt, error := 1#32 }
    cons := { base.cons with cfault := true, cerror := 3#32 } }

theorem witness_FaultsAreRecorded : base.cons.cerror = 0#32 ∧ faulted.cons.cerror ≠ 0#32 := by decide
theorem witness_FaultsStay :
    (∃ t, step faulted = .next t) ∧ faulted.prod.phase = .halt ∧ faulted.prod.stream = .none ∧
      faulted.cons.cfault = true ∧ faulted.cons.cerror ≠ 0#32 := ⟨⟨_, rfl⟩, by decide, by decide, by decide, by decide⟩
theorem witness_RecordLayout : (0 : Nat) < 4 ∧ (3 : Nat) < 4 := by decide
theorem witness_SaveRestoreRoundTrip :
    Inv (sinkTakes 71) ∧ accepting (sinkTakes 71) = true ∧
      exec .snapshot (sinkTakes 71) = .next (after (exec .snapshot (sinkTakes 71))) ∧
      (after (exec .snapshot (sinkTakes 71))).prod.stream = .none ∧
      (after (exec .snapshot (sinkTakes 71))).out.sink
        = (sinkTakes 71).out.sink ++ bridgeRecord SamplePath.powerOn ∧
      accepting (offering SamplePath.powerOn) = true ∧
      (offering SamplePath.powerOn).params.fcpu = (sinkTakes 71).params.fcpu ∧
      (offering SamplePath.powerOn).world.source = (bridgeRecord SamplePath.powerOn).map .byte ++ [] :=
  ⟨inv_of (by decide) trivial (by decide) trivial (by decide) (by decide) (by decide)
      (stored_of (by decide) (by decide) (by decide)),
    by decide, rfl, by decide +kernel, by decide +kernel, by decide, by decide, by decide +kernel⟩
theorem witness_PowerOnValues :
    paramsValid tiny = true ∧ (0x01#8).toNat ≠ 0x02 ∧ (0x01#8).toNat ≠ 0x03 ∧ (0xFF#8).toNat ≠ 0x00 := by decide
theorem witness_PowerOnIsClean : paramsValid tiny = true := by decide
theorem witness_StatusViews : 4 ≤ 4 ∧ 4 ≤ 31 ∧ 2 ≤ 2 ∧ 2 ≤ 31 := by decide
theorem witness_ReadMaps :
    Inv base ∧ (0x0D ≤ (0x0D#8).toNat ∧ (0x0F#8).toNat ≤ 0x0F) ∧ (0x19 ≤ (0x19#8).toNat ∧ (0x1F#8).toNat ≤ 0x1F) ∧
      0x26 ≤ (0x26#8).toNat ∧ 0x26 ≤ (0xFF#8).toNat ∧ 0x06 ≤ (0x06#8).toNat :=
  ⟨witness_inv_base, by decide, by decide, by decide, by decide, by decide⟩

/-! The step. -/

theorem witness_StepRunsDecoded_producer :
    paramsValid base.params = true ∧
      (takeAgent (inWorld { World.empty with sched := [.prod], cmds := [some 0x01000000#32] })).1 = .prod ∧
      accepting (inWorld { World.empty with sched := [.prod], cmds := [some 0x01000000#32] }) = true ∧
      (takeCmd (takeAgent (inWorld { World.empty with sched := [.prod], cmds := [some 0x01000000#32] })).2).1
        = some 0x01000000#32 ∧
      decode .producer 0x01000000#32 = some .step := by decide
theorem witness_StepRunsDecoded_consumer :
    (takeAgent (inWorld { World.empty with sched := [.cons], ccmds := [some 0x80000000#32] })).1 = .cons ∧
      (takeCcmd (takeAgent (inWorld { World.empty with sched := [.cons], ccmds := [some 0x80000000#32] })).2).1
        = some 0x80000000#32 ∧
      decode .consumer 0x80000000#32 = some .frame := by decide
theorem witness_StepRunsDecoded_refused :
    paramsValid { tiny with fcpu := 0 } = false ∧ paramsValid { tiny with fcpu := 2 ^ 31 } = false := by decide
theorem witness_PlacedWordRuns :
    paramsValid base.params = true ∧ (Instr.mnemonic .frame).port = .consumer ∧
      (Instr.mnemonic .restore).port = .producer := by decide
theorem witness_StepKeepsInvariant : Inv base := witness_inv_base

/-! Frames. -/

theorem witness_FrameOfProducerCommands :
    (Instr.mnemonic (.config 3#24)).port = .producer ∧
      exec (.config 3#24) base = .next (after (exec (.config 3#24) base)) := ⟨by decide, rfl⟩
theorem witness_FrameOfSteppingCommands :
    Instr.step ∈ [Instr.step, .stepframe, .reset] ∧ exec .step base = .next (after (exec .step base)) ∧
      exec .stepframe base = .next (after (exec .stepframe base)) ∧
      exec (.stepsec 1#24) base = .next (after (exec (.stepsec 1#24) base)) ∧
      exec .reset base = .next (after (exec .reset base)) ∧
      exec (.setbtn .two 0xFF#8) base = .next (after (exec (.setbtn .two 0xFF#8) base)) :=
  ⟨by decide, rfl, rfl, rfl, rfl, rfl⟩
theorem witness_FrameOfSamplePathCommands :
    Instr.mnemonic .disable ∈ [Mnemonic.CONFIG, .DISABLE, .ATTACH, .DETACH] ∧
      exec .disable base = .next (after (exec .disable base)) ∧
      exec .attach base = .next (after (exec .attach base)) ∧
      exec .detach base = .next (after (exec .detach base)) ∧
      exec (.config 0#24) base = .next (after (exec (.config 0#24) base)) := ⟨by decide, rfl, rfl, rfl, rfl⟩
theorem witness_FrameOfStreamCommands :
    exec .snapshot (sinkTakes 71) = .next (after (exec .snapshot (sinkTakes 71))) ∧
      exec .restore (offering tinyPath) = .next (after (exec .restore (offering tinyPath))) := ⟨rfl, rfl⟩
theorem witness_FrameOfConsumerCommands :
    (Instr.mnemonic .flush).port = .consumer ∧ exec .flush holdsOne = .next (after (exec .flush holdsOne)) ∧
      exec .frame holdsOne = .next (after (exec .frame holdsOne)) ∧
      exec (.setch 0#8) holdsOne = .next (after (exec (.setch 0#8) holdsOne)) := ⟨by decide, rfl, rfl, rfl⟩

end Sys2Proof.Tests
end

namespace Sys2Proof.Machine

/-! ## The synchronisers in a run (spec/10_state.md R20, R23, spec/43_consumer.md R198) -/

/-- A step that answers a next state is the turn of the agent the schedule names (R20). -/
theorem agentTurn_of_step {s t : State} (h : step s = .next t) :
    agentTurn (takeAgent s).1 (takeAgent s).2 = .next t := by
  unfold step machineStep at h
  split at h
  · exact h
  · cases h

/-- What a step leaves of the schedule is what the choice of its agent leaves: the schedule without its first agent, or
a fair stretch without its first agent where the schedule was used up. -/
theorem step_sched {s t : State} (h : step s = .next t) :
    s.world.sched = (takeAgent s).1 :: t.world.sched ∨
    (s.world.sched = [] ∧ (takeAgent s).1 :: t.world.sched = fairStretch s.world.fresh) := by
  obtain ⟨-, hsched, -⟩ := agentTurn_crossing (agentTurn_of_step h)
  rw [hsched]
  exact takeAgent_sched s

/-- A step writes WR_SYNC where it is SYNC_W's, and then copies WR_PTR (R23, R196). -/
theorem step_wrSync {s t : State} (h : step s = .next t) :
    t.cons.wrSync = if (takeAgent s).1 = .syncW then s.prod.wrPtr else s.cons.wrSync := by
  obtain ⟨-, -, hwrSync, -⟩ := agentTurn_crossing (agentTurn_of_step h)
  exact hwrSync

/-- A step writes RD_SYNC where it is SYNC_R's, and then copies RD_PTR (R23, R197). -/
theorem step_rdSync {s t : State} (h : step s = .next t) :
    t.prod.rdSync = if (takeAgent s).1 = .syncR then s.cons.rdPtr else s.prod.rdSync := by
  obtain ⟨-, -, -, hrdSync⟩ := agentTurn_crossing (agentTurn_of_step h)
  exact hrdSync

section Runs

variable {r : Nat → State}

/-- A run uses up the schedule its state holds. -/
theorem IsRun.exists_sched_nil (hr : IsRun r) (n : Nat) : ∃ m, n ≤ m ∧ (r m).world.sched = [] := by
  induction hl : (r n).world.sched generalizing n with
  | nil => exact ⟨n, le_rfl, hl⟩
  | cons b rest ih =>
    obtain hs | ⟨hs, -⟩ := step_sched (hr n)
    · obtain ⟨m, hm, hnil⟩ := ih (n + 1) (List.cons.inj (hs.symm.trans hl)).2
      exact ⟨m, by omega, hnil⟩
    · simp [hl] at hs

/-- An agent in the schedule comes to step. -/
theorem IsRun.exists_step_of_mem_sched (hr : IsRun r) {a : Agent} (n : Nat) (ha : a ∈ (r n).world.sched) :
    ∃ m, n ≤ m ∧ (takeAgent (r m)).1 = a := by
  induction hl : (r n).world.sched generalizing n with
  | nil => simp [hl] at ha
  | cons b rest ih =>
    obtain hs | ⟨hs, -⟩ := step_sched (hr n)
    · have hrest : (r (n + 1)).world.sched = rest := (List.cons.inj (hs.symm.trans hl)).2
      rw [hs] at ha
      obtain rfl | ha := List.mem_cons.1 ha
      · exact ⟨n, le_rfl, rfl⟩
      · obtain ⟨m, hm, hstep⟩ := ih (n + 1) ha hrest
        exact ⟨m, by omega, hstep⟩
    · simp [hl] at hs

/-- Every infinite run is weakly fair (R23): it uses up the schedule it holds, and then draws a fair stretch, in which
both synchronisers stand. -/
theorem IsRun.weaklyFair (hr : IsRun r) : WeaklyFair r := by
  intro a ha n
  obtain ⟨m, hm, hnil⟩ := hr.exists_sched_nil n
  have hmem : a ∈ fairStretch (r m).world.fresh := by
    obtain rfl | rfl := ha
    · exact (mem_fairStretch _).1
    · exact (mem_fairStretch _).2
  obtain hs | ⟨-, hs⟩ := step_sched (hr m)
  · simp [hnil] at hs
  · rw [← hs] at hmem
    obtain rfl | hmem := List.mem_cons.1 hmem
    · exact ⟨m, hm, rfl⟩
    · obtain ⟨l, hl, hstep⟩ := hr.exists_step_of_mem_sched (m + 1) hmem
      exact ⟨l, by omega, hstep⟩

/-- The crossing of one pointer: a register `copy` that every step leaves alone, except the synchroniser `a`'s, which
copies `src`, holds the value of `src` from some point on once `src` changes no more. -/
theorem IsRun.copy_settles (hr : IsRun r) {a : Agent} (ha : a = .syncW ∨ a = .syncR) {src copy : State → Nat}
    (hcopy : ∀ s t, step s = .next t → copy t = if (takeAgent s).1 = a then src s else copy s)
    {n : Nat} (hsrc : ∀ m, n ≤ m → src (r m) = src (r n)) :
    ∃ m, n ≤ m ∧ ∀ l, m ≤ l → copy (r l) = src (r n) := by
  obtain ⟨m, hm, hstep⟩ := hr.weaklyFair a ha n
  refine ⟨m + 1, by omega, fun l hl => ?_⟩
  induction l, hl using Nat.le_induction with
  | base => rw [hcopy _ _ (hr m), if_pos hstep, hsrc m hm]
  | succ l hl ih =>
    rw [hcopy _ _ (hr l)]
    split
    · exact hsrc l (by omega)
    · exact ih

end Runs

/-- The consumer's occupancy is the true one where WR_SYNC is WR_PTR (R78). -/
theorem countC_eq_count {s : State} (h : s.cons.wrSync = s.prod.wrPtr) : s.countC = s.count := by
  rw [State.countC, State.count, h]

/-- The producer's occupancy is the true one where RD_SYNC is RD_PTR (R78). -/
theorem countP_eq_count {s : State} (h : s.prod.rdSync = s.cons.rdPtr) : s.countP = s.count := by
  rw [State.countP, State.count, h]

/-- Settles O42: the copies are the synchronisers' own turns, fairness holds because every schedule is used up and goes
on with a fair stretch, and delivery follows for each pointer from its crossing. -/
theorem synchronisersCopy : Obligations.SynchronisersCopy := by
  refine ⟨fun s => ⟨rfl, rfl, ?_, ?_⟩, fun r hr => hr.weaklyFair, fun r n hr hw => ?_, fun r n hr hrd => ?_⟩
  · rintro t ⟨⟩
    exact ⟨countC_eq_count rfl, rfl⟩
  · rintro t ⟨⟩
    exact ⟨countP_eq_count rfl, rfl⟩
  · obtain ⟨m, hm, hsync⟩ := hr.copy_settles (.inl rfl) (src := (·.prod.wrPtr)) (copy := (·.cons.wrSync))
      (fun _ _ => step_wrSync) hw
    exact ⟨m, hm, fun l hl => ⟨hsync l hl, countC_eq_count ((hsync l hl).trans (hw l (by omega)).symm)⟩⟩
  · obtain ⟨m, hm, hsync⟩ := hr.copy_settles (.inr rfl) (src := (·.cons.rdPtr)) (copy := (·.prod.rdSync))
      (fun _ _ => step_rdSync) hrd
    exact ⟨m, hm, fun l hl => ⟨hsync l hl, countP_eq_count ((hsync l hl).trans (hrd l (by omega)).symm)⟩⟩

/-! ## The status views (spec/10_state.md R31, R45) -/

/-- A flag's word has the flag in bit 0 and zeros elsewhere. -/
theorem flagWord_getLsbD (b : Bool) (i : Nat) : (flagWord b).getLsbD i = (decide (i = 0) && b) := by
  cases b
  · simp [flagWord]
  · simp [flagWord, BitVec.getLsbD_one]

/-- A flag's word moved up by `n` has the flag in bit `n` and zeros elsewhere. -/
theorem flagWord_shiftLeft_getLsbD (b : Bool) {n : Nat} (hn : n < 32) (i : Nat) :
    (flagWord b <<< n).getLsbD i = (decide (i = n) && b) := by
  rw [BitVec.getLsbD_shiftLeft, flagWord_getLsbD]
  grind

/-- STATUS bit by bit (R31). -/
theorem statusWord_getLsbD (s : State) (i : Nat) :
    (statusWord s).getLsbD i =
      (decide (i = 0) && busy s || decide (i = 1) && halted s || decide (i = 2) && s.prod.path.cfgValid ||
        decide (i = 3) && s.prod.attached) := by
  simp only [statusWord, BitVec.getLsbD_or, flagWord_getLsbD, flagWord_shiftLeft_getLsbD, Nat.reduceLT]

/-- CSTATUS bit by bit (R45). -/
theorem cstatusWord_getLsbD (s : State) (i : Nat) :
    (cstatusWord s).getLsbD i = (decide (i = 0) && s.cons.cfault || decide (i = 1) && vempty s) := by
  simp only [cstatusWord, BitVec.getLsbD_or, flagWord_getLsbD, flagWord_shiftLeft_getLsbD, Nat.reduceLT]

/-- BUSY as a proposition about the phase (R31). -/
theorem busy_eq_decide (s : State) :
    busy s =
      decide (s.prod.phase = .cpu ∨ s.prod.phase = .vid ∨ s.prod.phase = .aud ∨ s.prod.phase = .stepEnd) := by
  unfold busy
  cases s.prod.phase <;> rfl

/-- Settles O51: each word's bits are those of its flags, and at power-on only VEMPTY is set. -/
theorem statusViews : Obligations.StatusViews := by
  refine ⟨fun s => ⟨rfl, rfl, ?busy, ?fault, ?cfgValid, ?attached, ?rest, ?cfault, ?vempty, ?crest⟩,
    fun p w => ⟨?powerOn, ?cpowerOn⟩⟩
  case busy => rw [statusWord_getLsbD, busy_eq_decide]; simp
  case fault => rw [statusWord_getLsbD, halted]; simp
  case cfgValid => rw [statusWord_getLsbD]; simp
  case attached => rw [statusWord_getLsbD]; simp
  case rest =>
    intro i hi
    simp [statusWord_getLsbD, show i ≠ 0 ∧ i ≠ 1 ∧ i ≠ 2 ∧ i ≠ 3 by omega]
  case cfault => rw [cstatusWord_getLsbD]; simp
  case vempty => rw [cstatusWord_getLsbD, vempty]; simp
  case crest =>
    intro i hi
    simp [cstatusWord_getLsbD, show i ≠ 0 ∧ i ≠ 1 by omega]
  case powerOn => simp [statusWord, busy, halted, flagWord, State.powerOn, Producer.powerOn, SamplePath.powerOn]
  case cpowerOn => simp [cstatusWord, vempty, flagWord, State.powerOn, Consumer.powerOn]

/-! ## The read maps (spec/10_state.md R53, R54) -/

/-- The constraints of R7 that bound what a read port shows: F_CPU and CAP fit a word with a bit to spare. -/
theorem bounds_of_paramsValid {p : Params} (h : paramsValid p = true) : p.fcpu < 2 ^ 31 ∧ p.cap ≤ 2 ^ 30 := by
  simp only [paramsValid, Bool.and_eq_true, decide_eq_true_eq] at h
  tauto

/-- A pointer in range has `PTR_W` bits (R7). -/
theorem two_mul_cap_le_two_pow_ptrWidth {cap : Nat} (h : cap ≤ 2 ^ 30) : 2 * cap ≤ 2 ^ ptrWidth cap := by
  unfold ptrWidth
  cases hf : (List.range 33).find? (fun w => decide (2 * cap ≤ 2 ^ w)) with
  | none => simp only [Option.getD_none]; omega
  | some w => simpa using List.find?_some hf

/-- A pointer in range reads as it is (R39, R40, R48, R49). -/
theorem ptrWord_toNat {s : State} {p : Nat} (hcap : s.params.cap ≤ 2 ^ 30) (hp : p < 2 * s.params.cap) :
    (ptrWord s p).toNat = p := by
  have hw := two_mul_cap_le_two_pow_ptrWidth hcap
  rw [ptrWord, Nat.mod_eq_of_lt (by omega), BitVec.toNat_ofNat, Nat.mod_eq_of_lt (by omega)]

/-- A 64-bit register is its two words, the high one first (R53). -/
theorem extractLsb'_high_append_low (x : BitVec 64) : x.extractLsb' 32 32 ++ x.extractLsb' 0 32 = x := by
  apply BitVec.eq_of_toNat_eq
  have hx := x.isLt
  simp only [toNat_append_arith, BitVec.extractLsb'_toNat, Nat.shiftRight_eq_div_pow]
  omega

/-- The producer read map reads zero in the gaps between its three runs of addresses and past the last (R53). -/
theorem prodRead_unlisted (s : State) {a : BitVec 8}
    (h : (0x0D ≤ a.toNat ∧ a.toNat ≤ 0x0F) ∨ (0x19 ≤ a.toNat ∧ a.toNat ≤ 0x1F) ∨ 0x26 ≤ a.toNat) :
    prodRead s a = 0#32 := by
  unfold prodRead
  split
  case h_29 => rfl
  all_goals omega

/-- The consumer read map reads zero past its last register (R54). -/
theorem consRead_unlisted (s : State) {a : BitVec 8} (h : 0x06 ≤ a.toNat) : consRead s a = 0#32 := by
  unfold consRead
  split
  case h_7 => rfl
  all_goals omega

/-- Settles O52: a read of a listed address is its register by the map's own case, and the invariant keeps the
parameters and the pointers in the bits their addresses show. -/
theorem readMaps : Obligations.ReadMaps := by
  rintro s ⟨hparams, -, -, -, ⟨hwr, hrdSync, hrd, hwrSync, -⟩, -⟩
  obtain ⟨hfcpu, hcap⟩ := bounds_of_paramsValid hparams
  refine ⟨rfl, rfl, ?fcpu, ?cap, ?rate, rfl, ?lastC, ?total, ?budget, ?wrPtr, ?rdSync, ?stage, ?unlisted,
    rfl, rfl, ?channels, ?rdPtr, ?wrSync, rfl, ?cunlisted⟩
  case fcpu => exact Nat.mod_eq_of_lt (by omega)
  case cap => exact Nat.mod_eq_of_lt (by omega)
  case rate => exact BitVec.toNat_setWidth_of_le (by omega)
  case lastC => exact BitVec.toNat_setWidth_of_le (by omega)
  case channels => exact BitVec.toNat_setWidth_of_le (by omega)
  case total => exact extractLsb'_high_append_low s.prod.total
  case budget => exact extractLsb'_high_append_low s.prod.budget
  case wrPtr => exact ptrWord_toNat hcap hwr
  case rdSync => exact ptrWord_toNat hcap hrdSync
  case rdPtr => exact ptrWord_toNat hcap hrd
  case wrSync => exact ptrWord_toNat hcap hwrSync
  case stage =>
    rintro i n rfl
    cases i <;> exact ⟨rfl, rfl, rfl, rfl, rfl⟩
  case unlisted => exact fun a => prodRead_unlisted s
  case cunlisted => exact fun a => consRead_unlisted s

end Sys2Proof.Machine

namespace Sys2Proof.Machine

/-! ## The FIFO in a step (spec/20_memory.md R71, R72, R79, spec/42_sample_path.md R169, spec/43_consumer.md R190, R191)

What a turn of PROD and a turn of CONS do to the FIFO: PROD pushes at most one sample and nothing else of the FIFO
moves, CONS reads on over samples it sees. -/

/-! ### Each port decodes its own commands (R95) -/

@[simp] theorem mnemonic_assembleWord (m : Mnemonic) (w : Word) : (m.assembleWord w).mnemonic = m := by
  cases m <;> rfl

/-- A row of a port's table is a row of that port's command. -/
theorem port_of_mem_table {p : Port} {r : OpRow} (h : r ∈ p.table) : r.mnemonic.port = p := by
  cases p <;> revert r <;> decide

/-- A word decodes on a port to that port's commands only. -/
theorem port_of_decode {p : Port} {w : Word} {i : Instr} (h : decode p w = some i) : i.mnemonic.port = p := by
  simp only [decode, Option.map_eq_some_iff] at h
  obtain ⟨r, hr, rfl⟩ := h
  rw [mnemonic_assembleWord]
  exact port_of_mem_table (List.mem_of_find?_eq_some hr)

/-! ### PROD -/

/-- From `s` to `t` the FIFO is left alone by PROD: its memory, its pointers and the whole consumer domain stay. -/
structure NoPush (s t : State) : Prop where
  params : t.params = s.params
  cons : t.cons = s.cons
  mem : t.mem = s.mem
  wrPtr : t.prod.wrPtr = s.prod.wrPtr
  rdSync : t.prod.rdSync = s.prod.rdSync

theorem NoPush.refl (s : State) : NoPush s s := ⟨rfl, rfl, rfl, rfl, rfl⟩

theorem NoPush.trans {s t u : State} (h : NoPush s t) (k : NoPush t u) : NoPush s u :=
  ⟨k.params.trans h.params, k.cons.trans h.cons, k.mem.trans h.mem, k.wrPtr.trans h.wrPtr, k.rdSync.trans h.rdSync⟩

theorem NoPush.fifoOk {s t : State} (h : NoPush s t) (hs : FifoOk s) : FifoOk t :=
  FifoOk.of_same h.params h.wrPtr h.rdSync (by rw [h.cons]) (by rw [h.cons]) hs

/-- From `s` to `t` one sample is pushed at most (R169). -/
def AtMostOnePush (s t : State) : Prop := NoPush s t ∨ ∃ u y, NoPush s u ∧ NoPush (push u y) t

theorem AtMostOnePush.fifoOk {s t : State} (h : AtMostOnePush s t) (hs : FifoOk s) : FifoOk t := by
  obtain h | ⟨u, y, hu, ht⟩ := h
  · exact h.fifoOk hs
  · exact ht.fifoOk (push_keeps_fifo y (hu.fifoOk hs))

/-- Work before and after that leaves the FIFO alone adds no push. -/
theorem AtMostOnePush.between {s t u v : State} (h : NoPush s t) (k : AtMostOnePush t u) (l : NoPush u v) :
    AtMostOnePush s v := by
  obtain k | ⟨w, y, hw, hu⟩ := k
  · exact .inl ((h.trans k).trans l)
  · exact .inr ⟨w, y, h.trans hw, hu.trans l⟩

theorem noPush_sendBytes (left : List Byte) (s : State) : NoPush s (sendBytes left s) := by
  obtain ⟨_, _, -, -, hp, hc, hm, -, ⟨-, h⟩ | ⟨-, h⟩⟩ := sendBytes_cases left s <;>
    exact ⟨hp, hc, hm, by rw [h], by rw [h]⟩

theorem noPush_failRestore (s : State) (c : FaultCode) : NoPush s (failRestore s c) := ⟨rfl, rfl, rfl, rfl, rfl⟩

theorem noPush_setStream (s : State) (f : InFlight) : NoPush s (s.setStream f) := ⟨rfl, rfl, rfl, rfl, rfl⟩

theorem noPush_finishRestore (s : State) (rec : List Byte) : NoPush s (finishRestore s rec) := by
  obtain ⟨-, h⟩ | ⟨-, -, h⟩ | ⟨-, -, h⟩ := finishRestore_cases s rec <;> rw [h]
  · exact noPush_failRestore _ _
  · exact ⟨rfl, rfl, rfl, rfl, rfl⟩
  · exact noPush_failRestore _ _

theorem noPush_readBytes (n : Nat) (got : List Byte) (s : State) : NoPush s (readBytes n got s) := by
  obtain ⟨more, u, _, hp, hc, hm, -, -, -, hr, h⟩ := readBytes_cases n got s
  have hu : NoPush s u := ⟨hp, hc, hm, by rw [hr], by rw [hr]⟩
  obtain ⟨-, e⟩ | ⟨-, e⟩ | ⟨-, e, -⟩ := h <;> rw [e]
  · exact (hu.trans (noPush_setStream u .none)).trans (noPush_finishRestore _ _)
  · exact (hu.trans (noPush_setStream u .none)).trans (noPush_failRestore _ _)
  · exact hu

theorem noPush_configure (rate : BitVec 24) (s : State) : NoPush s (configure rate s) := by
  unfold configure; split <;> exact ⟨rfl, rfl, rfl, rfl, rfl⟩

/-- Where a producer command's effect leaves the FIFO alone, so does the command. -/
theorem noPush_onAccept {s t : State} {f : State → State} (h : onAccept s f = .next t) (hf : NoPush s (f s)) :
    NoPush s t := by
  obtain ⟨-, e⟩ | ⟨-, e⟩ := onAccept_cases s f <;> rw [e] at h <;> cases h
  · exact hf
  · exact .refl s

/-- No command of the producer port pushes: samples enter the FIFO in later audio ticks only (R115, R165). -/
theorem noPush_exec {i : Instr} {s t : State} (hi : i.mnemonic.port = .producer) (h : exec i s = .next t) :
    NoPush s t := by
  cases i with
  | config rate => simp only [exec, execConfig] at h; exact noPush_onAccept h (noPush_configure rate s)
  | snapshot => simp only [exec, execSnapshot] at h; exact noPush_onAccept h (noPush_sendBytes _ s)
  | restore => simp only [exec, execRestore] at h; exact noPush_onAccept h (noPush_readBytes _ _ s)
  | step | stepframe | stepsec _ | reset | setbtn _ _ | disable | attach | detach =>
    simp only [exec, execStep, execStepframe, execStepsec, execReset, execSetbtn, execDisable, execAttach,
      execDetach] at h
    exact noPush_onAccept h ⟨rfl, rfl, rfl, rfl, rfl⟩
  | frame | flush | setch _ => cases hi

/-- The phases CPU, VID and END run no audio tick and so push nothing (R113, R114, R116). -/
theorem noPush_phases {s t : State} (h : cpuPhase s = .next t ∨ vidPhase s = .next t ∨ endPhase s = .next t) :
    NoPush s t := by
  obtain h | h | h := h
  · simp only [cpuPhase] at h
    split_ifs at h <;> cases h <;> exact ⟨rfl, rfl, rfl, rfl, rfl⟩
  · simp only [vidPhase] at h
    split_ifs at h <;> cases h <;> exact ⟨rfl, rfl, rfl, rfl, rfl⟩
  · simp only [endPhase, secondsEnd] at h
    split at h
    · cases h; exact ⟨rfl, rfl, rfl, rfl, rfl⟩
    · cases h; exact ⟨rfl, rfl, rfl, rfl, rfl⟩
    · split_ifs at h <;> cases h <;> exact ⟨rfl, rfl, rfl, rfl, rfl⟩

/-- The filter chain leaves the FIFO alone (R168). -/
theorem noPush_chain (x : F32) (s : State) : NoPush s (chain x s).2 := by
  obtain ⟨f, hf⟩ := chain_prod x s
  exact ⟨by simp, by simp, by simp, by rw [hf], by rw [hf]⟩

/-- A firing of the divider pushes one sample where the path is attached (R165). -/
theorem atMostOnePush_emitSample (s : State) : AtMostOnePush s (emitSample s) := by
  have hout : NoPush s (apuOut s).2 := ⟨rfl, rfl, rfl, rfl, rfl⟩
  have hchain := hout.trans (noPush_chain (apuOut s).1 (apuOut s).2)
  simp only [emitSample]
  split
  · exact .inr ⟨_, _, hchain, .refl _⟩
  · exact .inl hchain

theorem noPush_setAcc (s : State) (a : Nat) : NoPush s (setAcc s a) := ⟨rfl, rfl, rfl, rfl, rfl⟩

theorem atMostOnePush_samplePath {s t : State} (h : samplePath s = .next t) : AtMostOnePush s t := by
  obtain ⟨-, rfl⟩ | ⟨-, -, rfl⟩ | ⟨-, -, -, rfl⟩ := samplePath_cases h
  · exact .inl (.refl _)
  · exact .inl (noPush_setAcc s _)
  · exact .between (noPush_setAcc s _) (atMostOnePush_emitSample _) (.refl _)

/-- An audio tick runs the sample path once (R115). -/
theorem atMostOnePush_audPhase {s t : State} (h : audPhase s = .next t) : AtMostOnePush s t := by
  simp only [audPhase] at h
  split_ifs at h
  · cases h; exact .inl ⟨rfl, rfl, rfl, rfl, rfl⟩
  · obtain ⟨u, hu, hn⟩ := andThen_eq_next h
    cases hn
    have htick : NoPush s (apuTick s).2 := ⟨rfl, rfl, rfl, rfl, rfl⟩
    exact .between htick (atMostOnePush_samplePath hu) ⟨rfl, rfl, rfl, rfl, rfl⟩

/-- A word taken in IDLE pushes nothing, legal or not (R96, R110). -/
theorem noPush_idleTurn {s t : State} (h : idleTurn s = .next t) : NoPush s t := by
  have hc : NoPush s (takeCmd s).2 := ⟨rfl, rfl, rfl, rfl, rfl⟩
  simp only [idleTurn, runProducerWord] at h
  split at h
  · cases h; exact hc
  · split at h
    next => cases h; exact hc.trans ⟨rfl, rfl, rfl, rfl, rfl⟩
    next hd => exact hc.trans (noPush_exec (port_of_decode hd) h)

/-- Everything a turn of PROD can do to the FIFO. -/
theorem atMostOnePush_prodTurn {s t : State} (h : prodTurn s = .next t) : AtMostOnePush s t := by
  simp only [prodTurn] at h
  split at h
  · cases h; exact .inl (noPush_sendBytes _ _)
  · cases h; exact .inl (noPush_readBytes _ _ _)
  · split at h
    · exact .inl (noPush_idleTurn h)
    · exact .inl (noPush_phases (.inl h))
    · exact .inl (noPush_phases (.inr (.inl h)))
    · exact atMostOnePush_audPhase h
    · exact .inl (noPush_phases (.inr (.inr h)))
    · cases h; exact .inl ⟨rfl, rfl, rfl, rfl, rfl⟩

/-! ### CONS -/

/-- From `s` to `t` the consumer reads on over `k` samples: RD_PTR moves `k` entries, modulo `2*CAP`, and nothing else
of the FIFO and of the producer domain moves. -/
structure ReadsOn (k : Nat) (s t : State) : Prop where
  params : t.params = s.params
  prod : t.prod = s.prod
  mem : t.mem = s.mem
  wrSync : t.cons.wrSync = s.cons.wrSync
  rdPtr : t.cons.rdPtr = (s.cons.rdPtr + k) % (2 * s.params.cap)

/-- From `s` to `t` the consumer reads on over samples that it sees, or over none. -/
def ReadsSeen (s t : State) : Prop := ∃ k ≤ s.countC, ReadsOn k s t

/-- Where RD_PTR stays too, no sample is read. -/
theorem ReadsSeen.none {s t : State} (hs : FifoOk s) (hparams : t.params = s.params) (hprod : t.prod = s.prod)
    (hmem : t.mem = s.mem) (hwrSync : t.cons.wrSync = s.cons.wrSync) (hrdPtr : t.cons.rdPtr = s.cons.rdPtr) :
    ReadsSeen s t := by
  obtain ⟨-, -, hrd, -⟩ := hs
  exact ⟨0, Nat.zero_le _, hparams, hprod, hmem, hwrSync, hrdPtr.trans (Nat.mod_eq_of_lt hrd).symm⟩

/-- A pointer in range moved by less than the modulus, as a case distinction. -/
theorem add_mod_two_mul_cap {cap p k : Nat} (hp : p < 2 * cap) (hk : k < 2 * cap) :
    (p + k) % (2 * cap) = if p + k < 2 * cap then p + k else p + k - 2 * cap := by
  split
  · exact Nat.mod_eq_of_lt ‹_›
  · rw [Nat.mod_eq_sub_mod (by omega), Nat.mod_eq_of_lt (by omega)]

/-- A pointer moved by its distance to another stands there. -/
theorem add_ptrDist_mod {cap a b : Nat} (ha : a < 2 * cap) (hb : b < 2 * cap) :
    (b + ptrDist cap a b) % (2 * cap) = a := by
  rw [add_mod_two_mul_cap hb (ptrDist_lt (by omega)), ptrDist_of_lt ha hb]
  split_ifs <;> omega

/-- Two different pointers have a distance. -/
theorem ptrDist_pos_of_ne {cap a b : Nat} (ha : a < 2 * cap) (hb : b < 2 * cap) (h : b ≠ a) : 0 < ptrDist cap a b := by
  rw [ptrDist_of_lt ha hb]
  split <;> omega

/-- The distance to `a` falls by `k` where the other pointer moves `k` towards it. -/
theorem ptrDist_add_mod {cap a b k : Nat} (ha : a < 2 * cap) (hb : b < 2 * cap) (hk : k ≤ ptrDist cap a b) :
    ptrDist cap a ((b + k) % (2 * cap)) = ptrDist cap a b - k := by
  have hlt := ptrDist_lt (cap := cap) (a := a) (b := b) (by omega)
  rw [ptrDist_of_lt ha (Nat.mod_lt _ (by omega)), add_mod_two_mul_cap hb (by omega)]
  rw [ptrDist_of_lt ha hb] at hk ⊢
  split_ifs at hk ⊢ <;> omega

section ReadsOn

variable {k : Nat} {s t : State}

/-- Reading on over samples that are in the FIFO takes them out of it. -/
theorem ReadsOn.count_eq (h : ReadsOn k s t) (hs : FifoOk s) (hk : k ≤ s.count) : t.count = s.count - k := by
  obtain ⟨hwr, -, hrd, -⟩ := hs
  rw [State.count, h.params, h.prod, h.rdPtr]
  exact ptrDist_add_mod hwr hrd hk

/-- Reading on over samples that the consumer sees takes them out of its view. -/
theorem ReadsOn.countC_eq (h : ReadsOn k s t) (hs : FifoOk s) (hk : k ≤ s.countC) : t.countC = s.countC - k := by
  obtain ⟨-, -, hrd, hwrSync, -⟩ := hs
  rw [State.countC, h.params, h.wrSync, h.rdPtr]
  exact ptrDist_add_mod hwrSync hrd hk

/-- The producer does not see the consumer read on before SYNC_R steps (R78). -/
theorem ReadsOn.countP_eq (h : ReadsOn k s t) : t.countP = s.countP := by
  rw [State.countP, State.countP, h.params, h.prod]

/-- A consumer that reads no further than it sees keeps R79: `count` and `count_c` fall together. -/
theorem ReadsSeen.fifoOk (h : ReadsSeen s t) (hs : FifoOk s) : FifoOk t := by
  obtain ⟨k, hk, h⟩ := h
  have hC := h.countC_eq hs hk
  obtain ⟨hwr, hrdSync, hrd, hwrSync, hle, hleP, hcap⟩ := id hs
  have hcount := h.count_eq hs (hk.trans hle)
  unfold FifoOk
  rw [hC, hcount, h.countP_eq, h.params, h.prod, h.wrSync, h.rdPtr]
  exact ⟨hwr, hrdSync, Nat.mod_lt _ (by omega), hwrSync, by omega, by omega, hcap⟩

end ReadsOn

/-- FRAME with channels configured reads one sample where it sees one, else none (R190). -/
theorem readsSeen_playFrame {s : State} (hs : FifoOk s) : ReadsSeen s (playFrame s) := by
  obtain ⟨-, -, hrd, hwrSync, -⟩ := id hs
  unfold playFrame
  split
  next => exact .none hs rfl rfl rfl rfl rfl
  next hne => exact ⟨1, ptrDist_pos_of_ne hwrSync hrd hne, rfl, rfl, rfl, rfl, rfl⟩

/-- FLUSH reads all that the consumer sees (R191). -/
theorem readsSeen_execFlush {s t : State} (hs : FifoOk s) (h : execFlush s = .next t) : ReadsSeen s t := by
  obtain ⟨-, -, hrd, hwrSync, -⟩ := hs
  cases h
  exact ⟨s.countC, le_rfl, rfl, rfl, rfl, rfl, (add_ptrDist_mod hwrSync hrd).symm⟩

/-- Everything a command of the consumer port can do to the FIFO (R190 to R192). -/
theorem readsSeen_exec {i : Instr} {s t : State} (hs : FifoOk s) (hi : i.mnemonic.port = .consumer)
    (h : exec i s = .next t) : ReadsSeen s t := by
  cases i with
  | frame =>
    simp only [exec, execFrame] at h
    split at h <;> cases h
    · exact .none hs rfl rfl rfl rfl rfl
    · exact readsSeen_playFrame hs
  | flush => exact readsSeen_execFlush hs h
  | setch n =>
    simp only [exec, execSetch] at h
    split at h <;> cases h <;> exact .none hs rfl rfl rfl rfl rfl
  | step | stepframe | stepsec _ | reset | setbtn _ _ | config _ | disable | attach | detach | snapshot | restore =>
    cases hi

/-- Everything a turn of CONS can do to the FIFO. -/
theorem readsSeen_consTurn {s t : State} (hs : FifoOk s) (h : consTurn s = .next t) : ReadsSeen s t := by
  simp only [consTurn, runConsumerWord] at h
  split at h
  · cases h; exact .none hs rfl rfl rfl rfl rfl
  · split at h
    next => cases h; exact .none hs rfl rfl rfl rfl rfl
    next hd =>
      obtain ⟨k, hk, hparams, hprod, hmem, hwrSync, hrdPtr⟩ :=
        readsSeen_exec (s := (takeCcmd s).2) hs (port_of_decode hd) h
      exact ⟨k, hk, hparams, hprod, hmem, hwrSync, hrdPtr⟩

/-! ### The occupancies (R79) -/

/-- SYNC_W shows the consumer all of the FIFO: `count_c` becomes `count` (R196). -/
theorem syncW_keeps_fifo {s : State} (hs : FifoOk s) : FifoOk (syncW s) := by
  obtain ⟨hwr, hrdSync, hrd, -, -, hleP, hcap⟩ := hs
  exact ⟨hwr, hrdSync, hrd, hwr, (countC_eq_count rfl).le, hleP, hcap⟩

/-- SYNC_R shows the producer every freed entry: `count_p` becomes `count` (R197). -/
theorem syncR_keeps_fifo {s : State} (hs : FifoOk s) : FifoOk (syncR s) := by
  obtain ⟨hwr, -, hrd, hwrSync, hle, hleP, hcap⟩ := hs
  exact ⟨hwr, hrd, hrd, hwrSync, hle, (countP_eq_count rfl).ge, hleP.trans hcap⟩

/-- No turn of an agent breaks R79. -/
theorem agentTurn_keeps_fifo {a : Agent} {s t : State} (hs : FifoOk s) (h : agentTurn a s = .next t) : FifoOk t := by
  cases a with
  | prod => exact (atMostOnePush_prodTurn h).fifoOk hs
  | cons => exact (readsSeen_consTurn hs h).fifoOk hs
  | syncW => cases h; exact syncW_keeps_fifo hs
  | syncR => cases h; exact syncR_keeps_fifo hs

/-- At power-on every pointer is 0 and the FIFO is empty in every view (R240). -/
theorem fifoOk_powerOn {p : Params} (w : World) (hp : paramsValid p = true) : FifoOk (State.powerOn p w) := by
  have hcap : 1 ≤ p.cap := by
    simp only [paramsValid, Bool.and_eq_true, decide_eq_true_eq] at hp
    tauto
  have hzero : ptrDist p.cap 0 0 = 0 := by simp [ptrDist]
  have hlt : 0 < 2 * p.cap := by omega
  exact ⟨hlt, hlt, hlt, hlt, le_rfl, le_rfl, hzero.le.trans (Nat.zero_le _)⟩

/-- Settles O40: a step is a turn of the agent the schedule names, and no turn breaks R79: PROD pushes at most one
sample, and none where its view is full; CONS reads no further than it sees; each synchroniser makes one view exact. -/
theorem occupancyInvariant : Obligations.OccupancyInvariant := by
  refine ⟨fun s t hs h => ?_, fun p w hp => fifoOk_powerOn w hp⟩
  exact agentTurn_keeps_fifo (s := (takeAgent s).2) (.of_same rfl rfl rfl rfl rfl hs) (agentTurn_of_step h)

end Sys2Proof.Machine

namespace Sys2Proof.Machine

/-! ## Legal and illegal words (spec/30_encoding.md R91, R93 to R96)

A row's mask covers the opcode and the reserved bits of its format, so a word hits a row where it has the row's opcode
and zeros in the reserved bits. The decoder and the top bit of an opcode are then read off the rows. -/

/-! ### The rows by fields -/

/-- How many low bits of a command's word its operands take: format N has none, I24 24, I8 8 and B 9 (R91). -/
def operandBits : Mnemonic → Nat
  | .STEPSEC | .CONFIG => 24
  | .SETBTN => 9
  | .SETCH => 8
  | .STEP | .STEPFRAME | .RESET | .DISABLE | .ATTACH | .DETACH | .SNAPSHOT | .RESTORE | .FRAME | .FLUSH => 0

theorem operandBits_le (m : Mnemonic) : operandBits m ≤ 24 := by cases m <;> decide

/-- Two words are equal where they agree in the opcode, in the reserved bits and in the `k` operand bits. -/
theorem word_eq_iff_fields {k : Nat} (hk : k ≤ 24) (v w : Word) :
    v = w ↔ v.extractLsb' 24 8 = w.extractLsb' 24 8 ∧ v.extractLsb' k (24 - k) = w.extractLsb' k (24 - k) ∧
      v.extractLsb' 0 k = w.extractLsb' 0 k := by
  refine ⟨by rintro rfl; exact ⟨rfl, rfl, rfl⟩, fun ⟨hop, hreserved, hoperand⟩ => ?_⟩
  have harea : v.extractLsb' 0 (24 - k + k) = w.extractLsb' 0 (24 - k + k) := by
    rw [← BitVec.extractLsb'_append_extractLsb'_eq_extractLsb' (Nat.zero_add k).symm,
      ← BitVec.extractLsb'_append_extractLsb'_eq_extractLsb' (Nat.zero_add k).symm, hreserved, hoperand]
  rw [Nat.sub_add_cancel hk] at harea
  calc v = v.extractLsb' 24 8 ++ v.extractLsb' 0 24 := (BitVec.extractLsb'_append_extractLsb' (w := 8) (len := 24)).symm
    _ = w.extractLsb' 24 8 ++ w.extractLsb' 0 24 := by rw [hop, harea]
    _ = w := BitVec.extractLsb'_append_extractLsb' (w := 8) (len := 24)

/-- A row's mask is all ones in the opcode and the reserved bits and zero in the operand bits. -/
theorem row_mask_fields (m : Mnemonic) :
    m.row.mask.extractLsb' 24 8 = BitVec.allOnes 8 ∧
      m.row.mask.extractLsb' (operandBits m) (24 - operandBits m) = BitVec.allOnes (24 - operandBits m) ∧
      m.row.mask.extractLsb' 0 (operandBits m) = 0#(operandBits m) := by
  cases m <;> decide

/-- A row's match is its opcode followed by zeros. -/
theorem row_bits_fields (m : Mnemonic) :
    m.row.bits.extractLsb' (operandBits m) (24 - operandBits m) = 0#(24 - operandBits m) ∧
      m.row.bits.extractLsb' 0 (operandBits m) = 0#(operandBits m) := by
  cases m <;> decide

/-- A word hits a row where it has the row's opcode and zeros in the reserved bits of the row's format (R91, R93). -/
theorem row_hits_iff (m : Mnemonic) (w : Word) :
    m.row.hits w = true ↔ w.extractLsb' 24 8 = m.row.bits.extractLsb' 24 8 ∧
      w.extractLsb' (operandBits m) (24 - operandBits m) = 0#(24 - operandBits m) := by
  obtain ⟨hop, hreserved, hoperand⟩ := row_mask_fields m
  obtain ⟨hreserved0, hoperand0⟩ := row_bits_fields m
  rw [Laws.OpcodeRow.hits_iff, word_eq_iff_fields (operandBits_le m)]
  simp only [BitVec.extractLsb'_and, hop, hreserved, hoperand, hreserved0, hoperand0, BitVec.and_allOnes,
    BitVec.and_zero, and_true]

/-! ### The decoder by rows -/

/-- A word is illegal on a port where it hits no row of the port's table (R96). -/
theorem decode_eq_none_iff (p : Port) (w : Word) : decode p w = none ↔ ¬ ∃ r ∈ p.table, r.hits w = true := by
  simp [decode]

/-- A row of a port's table is the row of its mnemonic. -/
theorem row_of_mem_table {p : Port} {r : OpRow} (h : r ∈ p.table) : r.mnemonic.row = r := by
  cases p <;> revert r <;> decide

/-- A word that decodes hits the row of its command. -/
theorem row_hits_of_decode {p : Port} {w : Word} {i : Instr} (h : decode p w = some i) :
    i.mnemonic.row.hits w = true := by
  simp only [decode, Option.map_eq_some_iff] at h
  obtain ⟨r, hr, rfl⟩ := h
  rw [mnemonic_assembleWord, row_of_mem_table (List.mem_of_find?_eq_some hr)]
  exact List.find?_some (p := (OpRow.hits · w)) hr

/-! ### The top bit of the opcode -/

/-- Bit 31 of a word is bit 7 of its opcode. -/
theorem getLsbD_31_eq_opcode (w : Word) : w.getLsbD 31 = (w.extractLsb' 24 8).getLsbD 7 := by simp

/-- The top bit of a row's opcode is 1 exactly in the consumer's table (R95). -/
theorem row_opcode_top (m : Mnemonic) :
    (m.row.bits.extractLsb' 24 8).getLsbD 7 = decide (m.port = .consumer) := by
  cases m <;> decide

/-- Bit 31 of a word that hits a row tells the port of the row. -/
theorem getLsbD_31_of_row_hits {m : Mnemonic} {w : Word} (h : m.row.hits w = true) :
    w.getLsbD 31 = decide (m.port = .consumer) := by
  rw [getLsbD_31_eq_opcode, ((row_hits_iff m w).1 h).1, row_opcode_top]

/-- Bit 31 of a word that decodes on a port tells the port. -/
theorem getLsbD_31_of_decode {p : Port} {w : Word} {i : Instr} (h : decode p w = some i) :
    w.getLsbD 31 = decide (p = .consumer) := by
  rw [getLsbD_31_of_row_hits (row_hits_of_decode h), port_of_decode h]

/-- Every command's word lies in its own row, and its top bit tells its port. -/
theorem opcodeRow_statement : ∀ i : Instr, Laws.OpcodeRow.Statement i
  | .step => Laws.OpcodeRow.step
  | .stepframe => Laws.OpcodeRow.stepframe
  | .stepsec us => Laws.OpcodeRow.stepsec us
  | .reset => Laws.OpcodeRow.reset
  | .setbtn p b => Laws.OpcodeRow.setbtn p b
  | .config rate => Laws.OpcodeRow.config rate
  | .disable => Laws.OpcodeRow.disable
  | .attach => Laws.OpcodeRow.attach
  | .detach => Laws.OpcodeRow.detach
  | .snapshot => Laws.OpcodeRow.snapshot
  | .restore => Laws.OpcodeRow.restore
  | .frame => Laws.OpcodeRow.frame
  | .flush => Laws.OpcodeRow.flush
  | .setch n => Laws.OpcodeRow.setch n

/-- A test for one of the two ports tells them apart. -/
theorem port_eq_of_decide_consumer {p q : Port} (h : decide (p = .consumer) = decide (q = .consumer)) : p = q := by
  cases p <;> cases q <;> simp_all

/-- Settles O3: a word that a port decodes has the port in its top bit, and a word with a command's opcode has that
command's port there. -/
theorem portsDecodeOwnTable : Obligations.PortsDecodeOwnTable := by
  intro i p hp
  obtain ⟨-, htop⟩ := opcodeRow_statement i
  refine ⟨fun w hw => Option.eq_none_iff_forall_ne_some.2 fun j hj => hp ?_, htop⟩
  have hsame : w.getLsbD 31 = (encode i).getLsbD 31 := by
    rw [getLsbD_31_eq_opcode, hw, ← getLsbD_31_eq_opcode]
  rw [getLsbD_31_of_decode hj, htop] at hsame
  exact port_eq_of_decide_consumer hsame

/-! ### The words of no row, and what an agent does with one (R96) -/

/-- The illegal words of the producer port, row by row: STEPSEC and CONFIG have no reserved bit, SETBTN has bits 23:9,
the others the whole operand area. -/
theorem decode_producer_eq_none_iff (w : Word) :
    decode .producer w = none ↔
      ¬ ((w.extractLsb' 24 8 ∈ [0x01#8, 0x02#8, 0x04#8, 0x11#8, 0x12#8, 0x13#8, 0x20#8, 0x21#8] ∧
            w.extractLsb' 0 24 = 0#24) ∨
          w.extractLsb' 24 8 ∈ [0x03#8, 0x10#8] ∨
          (w.extractLsb' 24 8 = 0x05#8 ∧ w.extractLsb' 9 15 = 0#15)) := by
  rw [decode_eq_none_iff, not_iff_not]
  simp only [Port.table, List.mem_cons, List.not_mem_nil, or_false, exists_eq_or_imp, exists_eq_left, row_hits_iff]
  simp only [Mnemonic.row, operandBits, BitVec.reduceExtractLsb', Nat.sub_zero, Nat.reduceSub,
    BitVec.extractLsb'_eq_zero, and_true]
  tauto

/-- The illegal words of the consumer port, row by row: SETCH reserves bits 23:8, the others the whole operand area. -/
theorem decode_consumer_eq_none_iff (w : Word) :
    decode .consumer w = none ↔
      ¬ ((w.extractLsb' 24 8 ∈ [0x80#8, 0x81#8] ∧ w.extractLsb' 0 24 = 0#24) ∨
          (w.extractLsb' 24 8 = 0x82#8 ∧ w.extractLsb' 8 16 = 0#16)) := by
  rw [decode_eq_none_iff, not_iff_not]
  simp only [Port.table, List.mem_cons, List.not_mem_nil, or_false, exists_eq_or_imp, exists_eq_left, row_hits_iff]
  simp only [Mnemonic.row, operandBits, BitVec.reduceExtractLsb', Nat.sub_zero, Nat.reduceSub]
  tauto

/-- An illegal word on the producer port raises ILLEGAL_CMD (R96). -/
theorem runProducerWord_of_illegal {w : Word} (hw : decode .producer w = none) (s : State) :
    runProducerWord w s = .next (raiseFault s .illegalCmd 0#3) := by
  simp only [runProducerWord, hw]

/-- An illegal word on the consumer port raises C_ILLEGAL_CMD (R96). -/
theorem runConsumerWord_of_illegal {w : Word} (hw : decode .consumer w = none) (s : State) :
    runConsumerWord w s = .next (raiseCFault s .illegalCmd) := by
  simp only [runConsumerWord, hw]

/-- PROD waiting in IDLE runs the word it is offered (R110). -/
theorem prodTurn_of_offered {w : Word} {s : State} (hstream : s.prod.stream = .none) (hphase : s.prod.phase = .idle)
    (hw : (takeCmd s).1 = some w) : prodTurn s = runProducerWord w (takeCmd s).2 := by
  simp only [prodTurn, hstream, hphase, idleTurn, hw]

/-- CONS runs the word it is offered (R193). -/
theorem consTurn_of_offered {w : Word} {s : State} (hw : (takeCcmd s).1 = some w) :
    consTurn s = runConsumerWord w (takeCcmd s).2 := by
  simp only [consTurn, hw]

/-- Settles O4: the illegal words are those that hit no row by its fields, and a turn at which one is offered runs it,
which raises the port's fault and does nothing else. -/
theorem illegalWordsFault : Obligations.IllegalWordsFault := by
  refine ⟨decode_producer_eq_none_iff, decode_consumer_eq_none_iff, ?zero, ?runProducer, ?runConsumer, ?prodTurn,
    ?consTurn⟩
  case zero => intro p; cases p <;> decide
  case runProducer => exact fun w s hw => runProducerWord_of_illegal hw s
  case runConsumer => exact fun w s hw => runConsumerWord_of_illegal hw s
  case prodTurn =>
    intro w s hw hstream hphase hoffer
    rw [prodTurn_of_offered hstream hphase hoffer]
    exact runProducerWord_of_illegal hw _
  case consTurn =>
    intro w s hw hoffer
    rw [consTurn_of_offered hoffer]
    exact runConsumerWord_of_illegal hw _

end Sys2Proof.Machine

namespace Sys2Proof.Machine

/-! ## The phases of a step (spec/40_stepper.md R113 to R116, R121, R123, R125, R126)

Which phase PROD runs, then one equation per outcome of a phase; the rules of the phases are read off these. -/

/-- Settles O11: each command makes its one call and hands PROD back to IDLE, where it was. -/
theorem resetAndSetbtnCallOut : Obligations.ResetAndSetbtnCallOut := by
  intro s hs
  have hidle : { s.prod with phase := .idle } = s.prod := by rw [← ((accepting_iff s).1 hs).1]
  constructor
  · calc exec .reset s = .next ((procReset s).setPhase .idle) := onAccept_accepting hs fun s => (procReset s).setPhase .idle
      _ = .next ((procReset s).setProd s.prod) := by rw [State.setPhase, procReset_prod, hidle]
  · intro p b
    calc exec (.setbtn p b) s = .next ((btnWrite s p b).setPhase .idle) :=
          onAccept_accepting hs fun s => (btnWrite s p b).setPhase .idle
      _ = .next ((btnWrite s p b).setProd s.prod) := by rw [State.setPhase, btnWrite_prod, hidle]

/-! ### The turn of PROD in a phase of a step -/

theorem prodTurn_of_cpu {s : State} (hstream : s.prod.stream = .none) (hphase : s.prod.phase = .cpu) :
    prodTurn s = cpuPhase s := by simp only [prodTurn, hstream, hphase]

theorem prodTurn_of_vid {s : State} (hstream : s.prod.stream = .none) (hphase : s.prod.phase = .vid) :
    prodTurn s = vidPhase s := by simp only [prodTurn, hstream, hphase]

theorem prodTurn_of_aud {s : State} (hstream : s.prod.stream = .none) (hphase : s.prod.phase = .aud) :
    prodTurn s = audPhase s := by simp only [prodTurn, hstream, hphase]

theorem prodTurn_of_stepEnd {s : State} (hstream : s.prod.stream = .none) (hphase : s.prod.phase = .stepEnd) :
    prodTurn s = endPhase s := by simp only [prodTurn, hstream, hphase]

/-! ### CPU -/

theorem cpuPhase_of_fault {s : State} (hf : (procStep s).1.fault = true) :
    cpuPhase s = .next (raiseFault (procStep s).2 .subsystemFault 0#3) := by
  simp only [cpuPhase, hf, if_true]

theorem cpuPhase_of_zero {s : State} (hf : (procStep s).1.fault = false) (hc : (procStep s).1.c = 0#8) :
    cpuPhase s = .next (raiseFault (procStep s).2 .zeroTick 0#3) := by
  simp [cpuPhase, hf, hc]

theorem cpuPhase_of_ticks {s : State} (hf : (procStep s).1.fault = false) (hc : (procStep s).1.c ≠ 0#8) :
    cpuPhase s = .next ((procStep s).2.setProd
      { s.prod with
        curC := (procStep s).1.c
        k := BitVec.ofNat 10 (3 * (procStep s).1.c.toNat)
        phase := .vid }) := by
  simp [cpuPhase, hf, hc]

/-- Settles O22, by the processor's reply: faulting, of no tick, or of some ticks. The largest `3 * c`, 765, fits `k`. -/
theorem cpuPhaseRule : Obligations.CpuPhaseRule := by
  rintro s r hstream hphase rfl
  rw [prodTurn_of_cpu hstream hphase]
  cases hf : (procStep s).1.fault with
  | true => exact ⟨_, cpuPhase_of_fault hf, rfl, rfl, rfl, rfl, fun _ => rfl, by simp, by simp⟩
  | false =>
    by_cases hc : (procStep s).1.c = 0#8
    · exact ⟨_, cpuPhase_of_zero hf hc, rfl, rfl, rfl, rfl, by simp, fun _ _ => rfl, fun _ h => absurd hc h⟩
    · have hk : (BitVec.ofNat 10 (3 * (procStep s).1.c.toNat)).toNat = 3 * (procStep s).1.c.toNat := by
        rw [BitVec.toNat_ofNat]
        omega
      exact ⟨_, cpuPhase_of_ticks hf hc, rfl, rfl, rfl, rfl, by simp, fun _ h => absurd h hc, fun _ _ => ⟨rfl, hk⟩⟩

/-! ### VID and AUD -/

/-- One tick fewer is left of some. -/
theorem toNat_ticks_sub_one {k : BitVec 10} (hk : 1 ≤ k.toNat) : (k - 1#10).toNat = k.toNat - 1 :=
  BitVec.toNat_sub_of_le (y := 1#10) hk

/-- No tick is left after the last one, and only then. -/
theorem ticks_sub_one_eq_zero_iff {k : BitVec 10} (hk : 1 ≤ k.toNat) : k - 1#10 = 0#10 ↔ k.toNat = 1 := by
  rw [← BitVec.toNat_inj, toNat_ticks_sub_one hk, BitVec.toNat_zero]
  omega

theorem ticks_ne_zero {k : BitVec 10} (hk : 1 ≤ k.toNat) : k ≠ 0#10 := by
  rintro rfl
  simp at hk

theorem vidPhase_of_ppuFault {s : State} (hk : 1 ≤ s.prod.k.toNat) (hf : (ppuTick s).1 = true) :
    vidPhase s = .next (raiseFault (ppuTick s).2 .subsystemFault 1#3) := by
  simp only [vidPhase, ticks_ne_zero hk, hf, if_true, if_false]

theorem vidPhase_of_mapperFault {s : State} (hk : 1 ≤ s.prod.k.toNat) (hf : (ppuTick s).1 = false)
    (hg : (mapperTick (ppuTick s).2).1 = true) :
    vidPhase s = .next (raiseFault (mapperTick (ppuTick s).2).2 .subsystemFault 2#3) := by
  simp [vidPhase, ticks_ne_zero hk, hf, hg]

/-- A fault-free pair: after the last one the audio ticks are loaded. -/
theorem vidPhase_of_pair {s : State} (hk : 1 ≤ s.prod.k.toNat) (hf : (ppuTick s).1 = false)
    (hg : (mapperTick (ppuTick s).2).1 = false) :
    vidPhase s = .next ((mapperTick (ppuTick s).2).2.setProd
      (if s.prod.k.toNat = 1 then { s.prod with k := s.prod.curC.setWidth 10, phase := .aud }
        else { s.prod with k := s.prod.k - 1#10 })) := by
  simp only [vidPhase, ticks_ne_zero hk, hf, hg, mapperTick_prod, ppuTick_prod, ticks_sub_one_eq_zero_iff hk,
    Bool.false_eq_true, if_false]
  split <;> rfl

/-- Settles O23, by the replies of the two units, and by whether the pair is the last one. -/
theorem vidPhaseRule : Obligations.VidPhaseRule := by
  rintro s f g hstream hphase hk hf hg
  rw [prodTurn_of_vid hstream hphase]
  have hppu : (ppuTick s).2.out = { s.out with calls := s.out.calls ++ [.ppuTick f] } := by rw [hf]; rfl
  have hpair : (mapperTick (ppuTick s).2).2.out =
      { s.out with calls := s.out.calls ++ [.ppuTick f, .mapperTick g] } := by
    rw [mapperTick_out, hppu, ← hg, List.append_assoc, List.singleton_append]
  cases f with
  | true =>
    exact ⟨_, vidPhase_of_ppuFault hk hf.symm, rfl, rfl, rfl, fun _ => ⟨rfl, hppu⟩, by simp, by simp, by simp, by simp⟩
  | false =>
    cases g with
    | true =>
      exact ⟨_, vidPhase_of_mapperFault hk hf.symm hg.symm, rfl, rfl, rfl, by simp, fun _ => hpair, fun _ _ => rfl,
        by simp, by simp⟩
    | false =>
      refine ⟨_, vidPhase_of_pair hk hf.symm hg.symm, rfl, rfl, rfl, by simp, fun _ => hpair, by simp, ?more, ?last⟩
      case more =>
        intro _ _ hmore
        rw [State.setProd_prod, if_neg (by omega)]
        exact ⟨rfl, toNat_ticks_sub_one hk⟩
      case last =>
        intro _ _ hlast
        rw [State.setProd_prod, if_pos hlast]
        exact ⟨rfl, BitVec.toNat_setWidth_of_le (by decide)⟩

theorem audPhase_of_fault {s : State} (hk : 1 ≤ s.prod.k.toNat) (hf : (apuTick s).1 = true) :
    audPhase s = .next (raiseFault (apuTick s).2 .subsystemFault 3#3) := by
  simp only [audPhase, ticks_ne_zero hk, hf, if_true, if_false]

theorem audPhase_of_tick {s : State} (hk : 1 ≤ s.prod.k.toNat) (hf : (apuTick s).1 = false) :
    audPhase s = andThen (samplePath (apuTick s).2) fun t => .next (countTick t) := by
  simp [audPhase, ticks_ne_zero hk, hf]

/-- An audio tick leaves the sequencing state of the step in progress alone (R165). -/
theorem samplePath_seq {s t : State} (h : samplePath s = .next t) :
    t.prod.phase = s.prod.phase ∧ t.prod.k = s.prod.k ∧ t.prod.curC = s.prod.curC ∧
      t.prod.stream = s.prod.stream := by
  obtain ⟨a, f, w, hprod⟩ := samplePath_prod h
  rw [hprod]
  exact ⟨rfl, rfl, rfl, rfl⟩

/-- Settles O24: a faulting tick ends the turn; else the sample path runs and touches neither `k` nor the phase, so that
the count after it is of the ticks left before it. -/
theorem audPhaseRule : Obligations.AudPhaseRule := by
  intro s hstream hphase hk
  rw [prodTurn_of_aud hstream hphase]
  refine ⟨fun hf => ⟨_, audPhase_of_fault hk hf, rfl, by simp [hf], rfl, rfl, rfl⟩, fun hf u hu => ?_⟩
  obtain ⟨huphase, huk, -, -⟩ := samplePath_seq hu
  rw [apuTick_prod] at huphase huk
  refine ⟨countTick u, by rw [audPhase_of_tick hk hf, hu, andThen_next], rfl, rfl, rfl, rfl, rfl, rfl, ?left, ?phase⟩
  case left => rw [← toNat_ticks_sub_one hk, ← huk]; rfl
  case phase => simp only [countTick, State.setProd_prod, huk, huphase, hphase, ticks_sub_one_eq_zero_iff hk]

/-! ### END -/

theorem endPhase_of_single {s : State} (hm : s.prod.mode = .single) :
    endPhase s = .next (s.setProd { s.prod with lastC := s.prod.curC, phase := .idle }) := by
  simp [endPhase, hm, State.setPhase, State.setProd]

theorem endPhase_of_frame {s : State} (hm : s.prod.mode = .frame) :
    endPhase s = .next (frameEnd (s.setProd { s.prod with lastC := s.prod.curC })) := by
  simp only [endPhase, State.setProd_prod, hm]

theorem endPhase_of_seconds {s : State} (hm : s.prod.mode = .seconds) :
    endPhase s = secondsEnd (s.setProd { s.prod with lastC := s.prod.curC }) := by
  simp only [endPhase, State.setProd_prod, hm]

/-- STEPSEC at END where the budget left fits BUDGET: the subtraction is exact (R123). -/
theorem secondsEnd_of_fits {s : State} (hb : -2 ^ 63 + 255 ≤ s.prod.budget.toInt) :
    ∃ b : BitVec 64, b.toInt = s.prod.budget.toInt - s.prod.curC.toNat ∧
      secondsEnd s = .next (s.setProd
        { s.prod with budget := b, phase := if 0 < b.toInt then .cpu else .idle }) := by
  have hc := s.prod.curC.isLt
  have hmax := BitVec.toInt_lt (x := s.prod.budget)
  have hexact : (BitVec.ofInt 64 (s.prod.budget.toInt - s.prod.curC.toNat)).toInt =
      s.prod.budget.toInt - s.prod.curC.toNat :=
    BitVec.toInt_ofInt_eq_self (by decide) (by omega) (by omega)
  refine ⟨_, hexact, ?_⟩
  rw [hexact, secondsEnd, if_neg (by omega)]

/-- STEPSEC where PROD takes it: the budget is loaded whole (R122). -/
theorem exec_stepsec_of_accepting {s : State} (us : BitVec 24) (hs : accepting s = true) :
    exec (.stepsec us) s = .next (s.setProd
      { s.prod with
        mode := .seconds
        budget := BitVec.ofNat 64 (tickBudget s.params.fcpu us)
        phase := if 0 < tickBudget s.params.fcpu us then .cpu else .idle }) := by
  simp only [exec, execStepsec, onAccept_accepting hs]

/-- Settles O25, by the mode of the command; STEPSEC's own load of BUDGET overwrites what it held. -/
theorem endPhaseRule : Obligations.EndPhaseRule := by
  refine ⟨fun s hstream hphase => ?_, fun s us b hs => ?_⟩
  · rw [prodTurn_of_stepEnd hstream hphase]
    refine ⟨endPhase_of_single, fun hm => ?_, fun hm hb => ?_⟩
    · exact ⟨_, endPhase_of_frame hm, rfl, rfl, rfl, rfl, rfl, by simp [frameEnd]⟩
    · obtain ⟨b, hexact, hend⟩ := secondsEnd_of_fits (s := s.setProd { s.prod with lastC := s.prod.curC }) hb
      exact ⟨b, (endPhase_of_seconds hm).trans hend, hexact⟩
  · have hs' : accepting (s.setProd { s.prod with budget := b }) = true := hs
    exact (exec_stepsec_of_accepting us hs').trans (exec_stepsec_of_accepting us hs).symm

end Sys2Proof.Machine

namespace Sys2Proof.Machine

/-! ## The tick-count law (spec/40_stepper.md R117)

In every state of a step the tick requests it has issued and those it has still to issue make up one fault-free step,
and none of them stops it. A turn of PROD issues the next of them; one that faults has issued the next one with its
fault flag set, or, in the CPU phase, a processor step of no tick. -/

/-- The tick requests among the calls made so far, oldest first. -/
def State.ticks (s : State) : List ExtCall := s.out.calls.filter isTick

/-- Calls that are all tick requests come after those made before. -/
theorem ticks_of_out {s t : State} {cs : List ExtCall} (hout : t.out = { s.out with calls := s.out.calls ++ cs })
    (hcs : cs.filter isTick = cs) : t.ticks = s.ticks ++ cs := by
  rw [State.ticks, hout, List.filter_append, hcs]
  rfl

/-- The sample path requests no tick: it reads the audio unit's output at most (R165). -/
theorem ticks_of_samplePath {s t : State} (h : samplePath s = .next t) : t.ticks = s.ticks := by
  obtain ⟨-, rfl⟩ | ⟨-, -, rfl⟩ | ⟨-, -, -, rfl⟩ := samplePath_cases h
  · rfl
  · rfl
  · simp [State.ticks, isTick]

/-! ### The tick requests of a fault-free step -/

theorem eq_of_mem_pairCalls {n : Nat} {c : ExtCall} (h : c ∈ pairCalls n) :
    c = .ppuTick false ∨ c = .mapperTick false := by
  induction n with
  | zero => simp [pairCalls] at h
  | succ n ih =>
    obtain rfl | h := List.mem_cons.1 h
    · exact .inl rfl
    obtain rfl | h := List.mem_cons.1 h
    · exact .inr rfl
    exact ih h

/-- No tick request of a fault-free step of some ticks stops it. -/
theorem stopsStep_of_mem_stepCalls {r : ProcReply} (hf : r.fault = false) (hc : 0 < r.c.toNat) {c : ExtCall}
    (h : c ∈ stepCalls r) : stopsStep c = false := by
  obtain rfl | h := List.mem_cons.1 h
  · have hne : r.c ≠ 0#8 := by rintro h0; simp [h0] at hc
    simp [stopsStep, hf, hne]
  obtain h | h := List.mem_append.1 h
  · obtain rfl | rfl := eq_of_mem_pairCalls h <;> rfl
  · rw [List.eq_of_mem_replicate h]
    rfl

/-- The tick requests that a step past its CPU phase has still to issue: the pairs left and all its audio ticks, or
the audio ticks left (R114, R115). -/
def callsLeft (p : Producer) : List ExtCall :=
  match p.phase with
  | .vid => pairCalls p.k.toNat ++ List.replicate p.curC.toNat (.apuTick false)
  | .aud => List.replicate p.k.toNat (.apuTick false)
  | .idle | .cpu | .stepEnd | .halt => []

theorem callsLeft_vid {p : Producer} (hphase : p.phase = .vid) :
    callsLeft p = pairCalls p.k.toNat ++ List.replicate p.curC.toNat (.apuTick false) := by
  simp only [callsLeft, hphase]

theorem callsLeft_aud {p : Producer} (hphase : p.phase = .aud) :
    callsLeft p = List.replicate p.k.toNat (.apuTick false) := by
  simp only [callsLeft, hphase]

theorem callsLeft_stepEnd {p : Producer} (hphase : p.phase = .stepEnd) : callsLeft p = [] := by
  simp only [callsLeft, hphase]

/-- In VID a pair comes next. -/
theorem callsLeft_vid_pair {p : Producer} (hphase : p.phase = .vid) (hk : 1 ≤ p.k.toNat) :
    callsLeft p = .ppuTick false :: .mapperTick false ::
      (pairCalls (p.k.toNat - 1) ++ List.replicate p.curC.toNat (.apuTick false)) := by
  obtain ⟨n, hn⟩ := Nat.exists_eq_add_of_le' hk
  rw [callsLeft_vid hphase, hn]
  rfl

/-- In AUD an audio tick comes next. -/
theorem callsLeft_aud_tick {p : Producer} (hphase : p.phase = .aud) (hk : 1 ≤ p.k.toNat) :
    callsLeft p = .apuTick false :: List.replicate (p.k.toNat - 1) (.apuTick false) := by
  obtain ⟨n, hn⟩ := Nat.exists_eq_add_of_le' hk
  rw [callsLeft_aud hphase, hn]
  rfl

/-! ### A step in progress -/

/-- A step begun after the tick requests `before` is past its CPU phase and has met no fault: what it issued and what it
has still to issue are the tick requests of one fault-free step. -/
def InStep (before : List ExtCall) (s : State) : Prop :=
  ∃ (r : ProcReply) (done : List ExtCall), r.fault = false ∧ 0 < r.c.toNat ∧ s.prod.curC = r.c ∧
    s.ticks = before ++ done ∧ done ++ callsLeft s.prod = stepCalls r

/-- A step begun after the tick requests `before` has stopped with a fault (R117): its last tick request, and no other,
stops a step, and but for that fault it issued the first of a fault-free step's in order. -/
def StoppedByFault (before : List ExtCall) (s : State) : Prop :=
  ∃ (r : ProcReply) (done : List ExtCall) (last : ExtCall),
    s.ticks = before ++ (done ++ [last]) ∧ (done ++ [withoutFault last]) <+: stepCalls r ∧
    (∀ c ∈ done, stopsStep c = false) ∧ stopsStep last = true

/-- How far a step begun after the tick requests `before` has come, by PROD's phase. No stream command is in flight. -/
def StepSoFar (before : List ExtCall) (s : State) : Prop :=
  s.prod.stream = .none ∧
  match s.prod.phase with
  | .cpu => s.ticks = before
  | .vid | .aud | .stepEnd => InStep before s
  | .halt => StoppedByFault before s
  | .idle => False

section StepInProgress

variable {before : List ExtCall} {s t : State}

theorem stepSoFar_of_cpu (hstream : s.prod.stream = .none) (hphase : s.prod.phase = .cpu) (h : s.ticks = before) :
    StepSoFar before s := by
  simpa only [StepSoFar, hstream, hphase, true_and] using h

theorem stepSoFar_of_inStep (hstream : s.prod.stream = .none)
    (hphase : s.prod.phase = .vid ∨ s.prod.phase = .aud ∨ s.prod.phase = .stepEnd) (h : InStep before s) :
    StepSoFar before s := by
  obtain hphase | hphase | hphase := hphase <;> simpa only [StepSoFar, hstream, hphase, true_and] using h

theorem stepSoFar_of_stopped (hstream : s.prod.stream = .none) (hphase : s.prod.phase = .halt)
    (h : StoppedByFault before s) : StepSoFar before s := by
  simpa only [StepSoFar, hstream, hphase, true_and] using h

/-- A step goes on where what it issues is what it had to issue next. -/
theorem InStep.goes_on (h : InStep before s) (issued : List ExtCall) (hcur : t.prod.curC = s.prod.curC)
    (hticks : t.ticks = s.ticks ++ issued) (hleft : callsLeft s.prod = issued ++ callsLeft t.prod) :
    InStep before t := by
  obtain ⟨r, done, hf, hc, hr, hdone, hall⟩ := h
  refine ⟨r, done ++ issued, hf, hc, hcur.trans hr, ?_, ?_⟩
  · rw [hticks, hdone, List.append_assoc]
  · rw [List.append_assoc, ← hleft, hall]

/-- A step stops where the last tick request it issues carries a fault and is otherwise the next it had to issue. -/
theorem InStep.stops (h : InStep before s) (issued : List ExtCall) {last : ExtCall} {left : List ExtCall}
    (hticks : t.ticks = s.ticks ++ (issued ++ [last])) (hleft : callsLeft s.prod = issued ++ withoutFault last :: left)
    (hlast : stopsStep last = true) : StoppedByFault before t := by
  obtain ⟨r, done, hf, hc, -, hdone, hall⟩ := h
  have hissued : (done ++ issued ++ [withoutFault last]) ++ left = stepCalls r := by
    rw [← hall, hleft]
    simp
  refine ⟨r, done ++ issued, last, ?_, ⟨left, hissued⟩, fun c hc' => ?_, hlast⟩
  · rw [hticks, hdone]
    simp
  · refine stopsStep_of_mem_stepCalls hf hc ?_
    rw [← hissued]
    exact List.mem_append_left _ (List.mem_append_left _ hc')

/-! ### The turns of PROD -/

/-- The CPU phase makes the first request of a step, which stops it or makes it one of `c` ticks (R113). -/
theorem stepSoFar_cpuTurn (hstream : s.prod.stream = .none) (hphase : s.prod.phase = .cpu) (hs : s.ticks = before)
    (h : prodTurn s = .next t) : StepSoFar before t := by
  obtain ⟨t', ht', -, -, -, hout, hfault, hzero, hgo⟩ := cpuPhaseRule s _ hstream hphase rfl
  cases ht'.symm.trans h
  have hticks := ticks_of_out hout rfl
  rw [hs] at hticks
  have hstop : stopsStep (.procStep (procStep s).1) = true → StoppedByFault before t := fun hlast =>
    ⟨{ (procStep s).1 with fault := false }, [], _, hticks, ⟨_, rfl⟩, by simp, hlast⟩
  cases hf : (procStep s).1.fault with
  | true =>
    have hprod := hfault hf
    exact stepSoFar_of_stopped (by rw [hprod, hstream]) (by rw [hprod]) (hstop (by simp [stopsStep, hf]))
  | false =>
    by_cases hc : (procStep s).1.c = 0#8
    · have hprod := hzero hf hc
      exact stepSoFar_of_stopped (by rw [hprod, hstream]) (by rw [hprod]) (hstop (by simp [stopsStep, hc]))
    · obtain ⟨hprod, hk⟩ := hgo hf hc
      have hvid : t.prod.phase = .vid := by rw [hprod]
      have hcur : t.prod.curC = (procStep s).1.c := by rw [hprod]
      refine stepSoFar_of_inStep (by rw [hprod, hstream]) (.inl hvid)
        ⟨_, _, hf, ?_, hcur, hticks, ?_⟩
      · exact Nat.pos_of_ne_zero fun h0 => hc (BitVec.toNat_inj.1 h0)
      · rw [callsLeft_vid hvid, hk, hcur]
        rfl

theorem one_le_k_of_vidPhase (h : vidPhase s = .next t) : 1 ≤ s.prod.k.toNat := by
  refine Nat.one_le_iff_ne_zero.2 fun h0 => ?_
  have hk : s.prod.k = 0#10 := BitVec.toNat_inj.1 h0
  simp [vidPhase, hk] at h

theorem one_le_k_of_audPhase (h : audPhase s = .next t) : 1 ≤ s.prod.k.toNat := by
  refine Nat.one_le_iff_ne_zero.2 fun h0 => ?_
  have hk : s.prod.k = 0#10 := BitVec.toNat_inj.1 h0
  simp [audPhase, hk] at h

/-- The VID phase issues the next pair, or stops in it (R114). -/
theorem stepSoFar_vidTurn (hstream : s.prod.stream = .none) (hphase : s.prod.phase = .vid) (hs : InStep before s)
    (h : prodTurn s = .next t) : StepSoFar before t := by
  have hk : 1 ≤ s.prod.k.toNat := one_le_k_of_vidPhase ((prodTurn_of_vid hstream hphase).symm.trans h)
  obtain ⟨t', ht', -, -, -, hppu, hpair, hmapper, hmore, hlast⟩ := vidPhaseRule s _ _ hstream hphase hk rfl rfl
  cases ht'.symm.trans h
  have hleft := callsLeft_vid_pair hphase hk
  cases hf : (ppuTick s).1 with
  | true =>
    obtain ⟨hprod, hout⟩ := hppu hf
    exact stepSoFar_of_stopped (by rw [hprod, hstream]) (by rw [hprod])
      (hs.stops [] (ticks_of_out hout rfl) hleft rfl)
  | false =>
    have hticks := ticks_of_out (hpair hf) rfl
    cases hg : (mapperTick (ppuTick s).2).1 with
    | true =>
      have hprod := hmapper hf hg
      exact stepSoFar_of_stopped (by rw [hprod, hstream]) (by rw [hprod])
        (hs.stops [.ppuTick false] (last := .mapperTick true) (hticks.trans (by rw [hg]; rfl)) hleft rfl)
    | false =>
      rw [hg] at hticks
      by_cases hone : s.prod.k.toNat = 1
      · obtain ⟨hprod, hkt⟩ := hlast hf hg hone
        have haud : t.prod.phase = .aud := by rw [hprod]
        refine stepSoFar_of_inStep (by rw [hprod, hstream]) (.inr (.inl haud))
          (hs.goes_on _ (by rw [hprod]) hticks ?_)
        rw [hleft, callsLeft_aud haud, hkt, hone]
        rfl
      · obtain ⟨hprod, hkt⟩ := hmore hf hg (by omega)
        have hvid : t.prod.phase = .vid := by rw [hprod, hphase]
        have hcur : t.prod.curC = s.prod.curC := by rw [hprod]
        refine stepSoFar_of_inStep (by rw [hprod, hstream]) (.inl hvid) (hs.goes_on _ hcur hticks ?_)
        rw [hleft, callsLeft_vid hvid, hkt, hcur]
        rfl

/-- The AUD phase issues the next audio tick, or stops at it (R115). -/
theorem stepSoFar_audTurn (hstream : s.prod.stream = .none) (hphase : s.prod.phase = .aud) (hs : InStep before s)
    (h : prodTurn s = .next t) : StepSoFar before t := by
  have haud := (prodTurn_of_aud hstream hphase).symm.trans h
  have hk : 1 ≤ s.prod.k.toNat := one_le_k_of_audPhase haud
  obtain ⟨hfault, htick⟩ := audPhaseRule s hstream hphase hk
  have hleft := callsLeft_aud_tick hphase hk
  cases hf : (apuTick s).1 with
  | true =>
    obtain ⟨t', ht', hprod, hout, -⟩ := hfault hf
    cases ht'.symm.trans h
    exact stepSoFar_of_stopped (by rw [hprod, hstream]) (by rw [hprod])
      (hs.stops [] (ticks_of_out hout rfl) hleft rfl)
  | false =>
    rw [audPhase_of_tick hk hf] at haud
    obtain ⟨u, hu, -⟩ := andThen_eq_next haud
    obtain ⟨t', ht', hout, -, -, -, -, hprod, hkt, hphaset⟩ := htick hf u hu
    cases ht'.symm.trans h
    obtain ⟨-, -, hcuru, hstreamu⟩ := samplePath_seq hu
    have hticks : t.ticks = s.ticks ++ [.apuTick false] := by
      calc t.ticks = u.ticks := by rw [State.ticks, State.ticks, hout]
        _ = (apuTick s).2.ticks := ticks_of_samplePath hu
        _ = s.ticks ++ [.apuTick false] := by rw [← hf]; exact ticks_of_out (apuTick_out s) rfl
    have hcur : t.prod.curC = s.prod.curC := by rw [hprod]; exact hcuru
    have hstreamt : t.prod.stream = .none := by rw [hprod]; exact hstreamu.trans hstream
    by_cases hone : s.prod.k.toNat = 1
    · have hend : t.prod.phase = .stepEnd := by rw [hphaset, if_pos hone]
      refine stepSoFar_of_inStep hstreamt (.inr (.inr hend)) (hs.goes_on _ hcur hticks ?_)
      rw [hleft, callsLeft_stepEnd hend, hone]
      rfl
    · have haudt : t.prod.phase = .aud := by rw [hphaset, if_neg hone]
      refine stepSoFar_of_inStep hstreamt (.inr (.inl haudt)) (hs.goes_on _ hcur hticks ?_)
      rw [hleft, callsLeft_aud haudt, hkt]
      rfl

/-! ### The turns of the other agents (R118) -/

/-- A command of the consumer port touches no register of the producer domain and calls no unit (R82). -/
theorem exec_consumer_frame {i : Instr} (hi : i.mnemonic.port = .consumer) (h : exec i s = .next t) :
    t.prod = s.prod ∧ t.out.calls = s.out.calls := by
  cases i with
  | frame =>
    simp only [exec, execFrame] at h
    split at h <;> cases h
    · exact ⟨rfl, rfl⟩
    · exact ⟨playFrame_prod s, by unfold playFrame; split <;> rfl⟩
  | flush => cases h; exact ⟨rfl, rfl⟩
  | setch n =>
    simp only [exec, execSetch] at h
    split at h <;> cases h <;> exact ⟨rfl, rfl⟩
  | step | stepframe | stepsec _ | reset | setbtn _ _ | config _ | disable | attach | detach | snapshot | restore =>
    cases hi

/-- A turn of CONS touches no register of the producer domain and calls no unit (R82). -/
theorem consTurn_frame (h : consTurn s = .next t) : t.prod = s.prod ∧ t.out.calls = s.out.calls := by
  simp only [consTurn, runConsumerWord] at h
  split at h
  · cases h; exact ⟨rfl, rfl⟩
  · split at h
    next => cases h; exact ⟨rfl, rfl⟩
    next hd => exact exec_consumer_frame (s := (takeCcmd s).2) (port_of_decode hd) h

/-- A turn of an agent other than PROD changes at most RD_SYNC of the producer domain and calls no unit. -/
theorem agentTurn_frame_of_ne_prod {a : Agent} (ha : a ≠ .prod) (h : agentTurn a s = .next t) :
    t.prod = { s.prod with rdSync := t.prod.rdSync } ∧ t.out.calls = s.out.calls := by
  cases a with
  | prod => exact absurd rfl ha
  | cons =>
    obtain ⟨hprod, hcalls⟩ := consTurn_frame h
    exact ⟨by rw [hprod], hcalls⟩
  | syncW => cases h; exact ⟨rfl, rfl⟩
  | syncR => cases h; exact ⟨rfl, rfl⟩

/-- How far a step has come depends on neither RD_SYNC nor anything outside the producer domain and the calls. -/
theorem StepSoFar.of_same (h : StepSoFar before s) (hprod : t.prod = { s.prod with rdSync := t.prod.rdSync })
    (hcalls : t.out.calls = s.out.calls) : StepSoFar before t := by
  unfold StepSoFar InStep StoppedByFault State.ticks at *
  rw [hprod, hcalls]
  exact h

/-! ### Runs of a step -/

/-- Every turn of a step in progress takes it on. -/
theorem stepSoFar_agentTurn {a : Agent} (hs : StepSoFar before s) (hticking : ticking s = true)
    (h : agentTurn a s = .next t) : StepSoFar before t := by
  by_cases ha : a = .prod
  · subst ha
    obtain ⟨hstream, hs⟩ := hs
    cases hphase : s.prod.phase <;> simp only [hphase] at hs
    case cpu => exact stepSoFar_cpuTurn hstream hphase hs h
    case vid => exact stepSoFar_vidTurn hstream hphase hs h
    case aud => exact stepSoFar_audTurn hstream hphase hs h
    case stepEnd | halt => simp [ticking, hphase] at hticking
  · obtain ⟨hprod, hcalls⟩ := agentTurn_frame_of_ne_prod ha h
    exact hs.of_same hprod hcalls

theorem stepSoFar_runStep {turns : List Agent} (hs : StepSoFar before s) (h : runStep turns s = .next t) :
    StepSoFar before t := by
  induction turns generalizing s with
  | nil => cases h; exact hs
  | cons a rest ih =>
    simp only [runStep] at h
    split at h
    next hticking =>
      obtain ⟨u, hu, hrest⟩ := andThen_eq_next h
      exact ih (stepSoFar_agentTurn hs hticking hu) hrest
    next => cases h; exact hs

end StepInProgress

/-- In a state of the invariant a stream command is in flight in IDLE only (R252). -/
theorem stream_eq_none_of_inv {s : State} (hinv : Inv s) (hphase : s.prod.phase ≠ .idle) : s.prod.stream = .none := by
  obtain ⟨-, ⟨-, -, -, -, -, hstream⟩, -⟩ := hinv
  unfold streamOk at hstream
  split at hstream
  next h => exact h
  next => exact absurd hstream.1 hphase
  next => exact absurd hstream.1 hphase

/-- Settles O26, by induction on the schedule: every turn keeps the account of what the step has issued. -/
theorem tickCountLaw : Obligations.TickCountLaw := by
  intro s t turns hinv hphase hrun
  have hstart : StepSoFar s.ticks s :=
    stepSoFar_of_cpu (stream_eq_none_of_inv hinv (by simp [hphase])) hphase rfl
  obtain ⟨-, hso⟩ := stepSoFar_runStep hstart hrun
  refine ⟨fun hend => ?_, fun hhalt => ?_⟩
  · simp only [hend] at hso
    obtain ⟨r, done, hf, hc, hcur, hticks, hall⟩ := hso
    rw [callsLeft_stepEnd hend, List.append_nil] at hall
    exact ⟨r, hf, hc, hcur, hall ▸ hticks⟩
  · simp only [hhalt] at hso
    exact hso

end Sys2Proof.Machine

namespace Sys2Proof.Machine

/-! ## The bridge record (spec/41_state_codec.md R140, R142 to R144)

Both ways of a field: a byte of the record SNAPSHOT writes is a digit in base 256 of its register, and a register that
RESTORE commits is the number its four bytes stand for. -/

/-- The number of a filter stage in the record's offsets (R140). -/
def Stage.number : Stage → Nat
  | .s0 => 0
  | .s1 => 1
  | .s2 => 2

/-! ### The record that SNAPSHOT writes -/

/-- The bytes of a field are its digits in base 256, the lowest first. -/
theorem byteAt_of_fieldAt (rec : List Byte) (i : Nat) {j : Nat} (hj : j < 4) :
    (byteAt rec (i + j)).toNat = (fieldAt rec i).toNat / 256 ^ j % 256 := by
  have h0 := (byteAt rec i).isLt
  have h1 := (byteAt rec (i + 1)).isLt
  have h2 := (byteAt rec (i + 2)).isLt
  have h3 := (byteAt rec (i + 3)).isLt
  rw [fieldAt_toNat, leValue]
  obtain rfl | rfl | rfl | rfl : j = 0 ∨ j = 1 ∨ j = 2 ∨ j = 3 := by omega
  · rw [Nat.add_zero]; omega
  all_goals omega

/-- Byte `j` of the record's word number `k`. -/
theorem bridgeRecord_byte (x : SamplePath) {k i j : Nat} {w : Word} (hw : (recordWords x)[k]? = some w)
    (hi : i = 2 + 4 * k) (hj : j < 4) : (byteAt (bridgeRecord x) (i + j)).toNat = w.toNat / 256 ^ j % 256 := by
  rw [byteAt_of_fieldAt _ _ hj, bridgeRecord_field x k i w hw hi]

/-- The words of a stage: its coefficients from word `2 + 3*n`, its state from word `11 + 2*n` (R140). -/
theorem recordWords_stage (x : SamplePath) (i : Stage) :
    (recordWords x)[2 + 3 * i.number]? = some (x.coef.get i).b0 ∧
    (recordWords x)[3 + 3 * i.number]? = some (x.coef.get i).b1 ∧
    (recordWords x)[4 + 3 * i.number]? = some (x.coef.get i).a1 ∧
    (recordWords x)[11 + 2 * i.number]? = some (x.fstate.get i).x1 ∧
    (recordWords x)[12 + 2 * i.number]? = some (x.fstate.get i).y1 := by
  cases i <;> exact ⟨rfl, rfl, rfl, rfl, rfl⟩

/-- Settles O47: every register is one of the record's seventeen words, and a word's bytes are its digits. -/
theorem recordLayout : Obligations.RecordLayout := by
  intro x
  refine ⟨bridgeRecord_length x, rfl, rfl, rfl, fun j hj => ⟨?rate, ?acc⟩, ?stage⟩
  case rate => rw [bridgeRecord_byte x (k := 0) rfl rfl hj, BitVec.toNat_setWidth_of_le (by decide)]
  case acc => exact bridgeRecord_byte x (k := 1) rfl rfl hj
  case stage =>
    intro i n j hn hj
    obtain rfl : n = i.number := hn
    obtain ⟨hb0, hb1, ha1, hx1, hy1⟩ := recordWords_stage x i
    exact ⟨bridgeRecord_byte x hb0 (by omega) hj, bridgeRecord_byte x hb1 (by omega) hj,
      bridgeRecord_byte x ha1 (by omega) hj, bridgeRecord_byte x hx1 (by omega) hj,
      bridgeRecord_byte x hy1 (by omega) hj⟩

/-! ### The record that RESTORE reads -/

/-- `Valid(rec)` (R144) by the numbers that the record's fields stand for. -/
theorem recordValid_iff (fcpu : Nat) (rec : List Byte) :
    recordValid fcpu rec = true ↔
      byteAt rec 0 = 0x01#8 ∧ (byteAt rec 1 = 0x00#8 ∨ byteAt rec 1 = 0x01#8) ∧ leValue rec 2 < 2 ^ 24 ∧
        leValue rec 6 < fcpu ∧ (byteAt rec 1 = 0x01#8 → 1 ≤ leValue rec 2 ∧ leValue rec 2 ≤ fcpu) := by
  simp only [recordValid, fieldAt_toNat, Bool.and_eq_true, Bool.or_eq_true, Bool.not_eq_true', decide_eq_true_eq,
    decide_eq_false_iff_not, and_assoc, imp_iff_not_or]

/-- The registers of a stage that a record gives (R143). -/
theorem recordPath_stage (rec : List Byte) (i : Stage) :
    (recordPath rec).coef.get i = coefAt rec i.number ∧ (recordPath rec).fstate.get i = fstateAt rec i.number := by
  cases i <;> exact ⟨rfl, rfl⟩

/-- A RATE that `Valid` admits fits its register. -/
theorem recordPath_rate_toNat {rec : List Byte} (h : leValue rec 2 < 2 ^ 24) :
    (recordPath rec).rate.toNat = leValue rec 2 := by
  rw [← fieldAt_toNat] at h ⊢
  exact (BitVec.toNat_setWidth ..).trans (Nat.mod_eq_of_lt h)

/-- From a source that gives a whole record, RESTORE reads just that record and goes on to its check (R142). -/
theorem exec_restore_of_source {s : State} {rec : List Byte} {rest : List SourceItem} (hs : accepting s = true)
    (hsource : s.world.source = rec.map .byte ++ rest) (hlen : rec.length = 71) :
    exec .restore s = .next (finishRestore (s.tookBytes .none rec rest) rec) := by
  have hread : readBytes 71 [] s = finishRestore (s.tookBytes .none rec rest) rec := by
    rw [← hlen]
    exact readBytes_complete rec [] s rest hsource
  exact (onAccept_accepting hs (readBytes 71 [])).trans (congrArg _ hread)

/-- A record with a good sentinel that is `Valid` is committed (R143). -/
theorem finishRestore_of_valid {s : State} {rec : List Byte} (hsentinel : byteAt rec 70 = 0x01#8)
    (hvalid : recordValid s.params.fcpu rec = true) :
    finishRestore s rec = (s.setPath (recordPath rec)).setPhase .idle := by
  rw [finishRestore, if_neg (not_not.2 hsentinel), if_pos hvalid]

/-- Settles O15: RESTORE reads the record, finds it `Valid` and commits its registers; PROD was in IDLE with no stream
command in flight, and is so again. -/
theorem restoreCommits : Obligations.RestoreCommits := by
  intro s rec rest hs hsource hlen hsentinel hversion hcfg hrate hacc hconfigured
  have hvalid := (recordValid_iff s.params.fcpu rec).2 ⟨hversion, hcfg, hrate, hacc, hconfigured⟩
  obtain ⟨hphase, hstream⟩ := (accepting_iff s).1 hs
  have hexec := exec_restore_of_source hs hsource hlen
  rw [finishRestore_of_valid (s := s.tookBytes .none rec rest) hsentinel hvalid] at hexec
  refine ⟨_, hexec, rfl, ?prod, decide_eq_true_iff, recordPath_rate_toNat hrate, fieldAt_toNat rec 6, ?stage,
    rfl, rfl, rfl, rfl⟩
  case prod =>
    show { s.prod with path := recordPath rec, stream := .none, phase := .idle } =
      { s.prod with path := recordPath rec }
    rw [← hphase, ← hstream]
  case stage =>
    intro i n hn
    obtain rfl : n = i.number := hn
    obtain ⟨hcoef, hfstate⟩ := recordPath_stage rec i
    simp only [State.setPhase_prod, State.setPath_prod, hcoef, hfstate]
    exact ⟨fieldAt_toNat .., fieldAt_toNat .., fieldAt_toNat .., fieldAt_toNat .., fieldAt_toNat ..⟩

end Sys2Proof.Machine

namespace Sys2Proof.Machine

/-! ## The sample path (spec/42_sample_path.md R160 to R163, R165, R169, R173 to R175)

What the four commands do where PROD takes them, one equation per outcome of the audio tick, of the push and of a
filter stage. -/

/-! ### The commands -/

theorem rateLegal_iff (fcpu : Nat) (rate : BitVec 24) :
    rateLegal fcpu rate = true ↔ 1 ≤ rate.toNat ∧ rate.toNat ≤ fcpu := by
  simp [rateLegal]

theorem configure_of_legal {s : State} {rate : BitVec 24} (h : 1 ≤ rate.toNat ∧ rate.toNat ≤ s.params.fcpu) :
    configure rate s = s.setPath
      { cfgValid := true, rate := rate, acc := 0#32, coef := designAll s.params rate, fstate := clearedFilters } :=
  if_pos ((rateLegal_iff ..).2 h)

theorem configure_of_illegal {s : State} {rate : BitVec 24} (h : rate.toNat = 0 ∨ s.params.fcpu < rate.toNat) :
    configure rate s = raiseFault s .badConfig 0#3 :=
  if_neg fun hlegal => by
    have hrange := (rateLegal_iff ..).1 hlegal
    omega

/-- Settles O12, by whether the rate is legal; ERROR's word of BAD_CONFIG is 2. -/
theorem configLoadsOrRefuses : Obligations.ConfigLoadsOrRefuses := by
  intro s rate hs
  have hexec : exec (.config rate) s = .next (configure rate s) := onAccept_accepting hs (configure rate)
  constructor
  · intro hillegal
    rw [hexec, configure_of_illegal hillegal]
    rfl
  · intro hlegal
    rw [hexec, configure_of_legal hlegal]
    rfl

/-- Settles O13: PROD takes each of the three commands, whose effect is one assignment. -/
theorem disableAttachDetach : Obligations.DisableAttachDetach := by
  intro s hs
  simp only [exec, execDisable, execAttach, execDetach, onAccept_accepting hs]
  exact ⟨rfl, rfl, rfl⟩

/-! ### The push -/

/-- Settles O37, by whether the producer's view of the FIFO is full. -/
theorem pushRule : Obligations.PushRule := by
  refine fun s y => ⟨push_full y, fun hroom => ?_⟩
  rw [push_room y hroom]
  exact ⟨rfl, memRead_write_same .., fun i hi => Memory.cell_write_other _ y hi, rfl, rfl, rfl, rfl⟩

/-! ### A filter stage -/

/-- A NaN is a pattern with all exponent bits and some fraction bit set. -/
theorem isNaN_iff (w : F32) :
    isNaN w = true ↔ (w.extractLsb' 23 8).toNat = 255 ∧ (w.extractLsb' 0 23).toNat ≠ 0 := by
  simp only [isNaN, viewF32]
  split_ifs <;> simp [*, -BitVec.extractLsb'_toNat]

theorem quietNaN_toNat (bits : BitVec 23) :
    (quietNaN bits).toNat =
      (bits.extractLsb' 22 1).toNat * 2 ^ 31 + (0x1FF * 2 ^ 22 + (bits.extractLsb' 0 22).toNat) := by
  simp only [quietNaN, toNat_append_arith]
  rfl

/-- Whatever bits are drawn, the result is a NaN with the quiet bit set (R175). -/
theorem quietNaN_isNaN (bits : BitVec 23) : isNaN (quietNaN bits) = true := by
  have hpayload := (bits.extractLsb' 0 22).isLt
  rw [isNaN_iff]
  simp only [BitVec.extractLsb'_toNat, Nat.shiftRight_eq_div_pow, quietNaN_toNat]
  omega

theorem quietNaN_quietBit (bits : BitVec 23) : (quietNaN bits).getLsbD 22 = true := by
  have hpayload := (bits.extractLsb' 0 22).isLt
  rw [BitVec.getLsbD, Nat.testBit_eq_decide_div_mod_eq, quietNaN_toNat, decide_eq_true_eq]
  omega

/-- A NaN result of the default arithmetic is answered by a drawn quiet NaN (R175). -/
theorem stageArith_nan {s : State} {c : Coef} {st : StageState} {x : F32} (ha : s.params.arith = .unfused)
    (h : isNaN (stageValue s.params.arith c st x) = true) :
    stageArith s c st x =
      (quietNaN (Config.nanBits s.world.fresh), s.setWorld { s.world with fresh := s.world.fresh + 1 }) :=
  if_pos (by rw [drawsNaN, h, ha]; rfl)

theorem stageStep_value (i : Stage) (x : F32) (s : State) :
    (stageStep i x s).1 = (stageArith s (s.prod.path.coef.get i) (s.prod.path.fstate.get i) x).1 := rfl

/-- Settles O32: the stage's frame, and its answer by whether its value is a NaN. -/
theorem stageRule : Obligations.StageRule := by
  rintro i x s c st v rfl rfl rfl
  refine ⟨stageStep_prod i x s, stageStep_cons i x s, stageStep_mem i x s, stageStep_out i x s, ?value, ?number, ?nan⟩
  case value =>
    intro ha
    rw [ha]
    rfl
  case number =>
    intro hnumber
    rw [stageStep_value, stageArith_number hnumber]
  case nan =>
    intro hnan ha
    rw [stageStep_value, stageArith_nan ha hnan]
    exact ⟨quietNaN_isNaN _, quietNaN_quietBit _⟩

/-! ### The audio tick -/

theorem samplePath_of_unconfigured {s : State} (h : s.prod.path.cfgValid = false) : samplePath s = .next s := by
  simp [samplePath, h]

/-- The divider counts on (R165). -/
theorem samplePath_of_counts {s : State} (hv : s.prod.path.cfgValid = true) (hc : s.params.fcpu < 2 ^ 31)
    (h : s.prod.path.acc.toNat + s.prod.path.rate.toNat < s.params.fcpu) :
    samplePath s = .next (setAcc s (s.prod.path.acc.toNat + s.prod.path.rate.toNat)) := by
  rw [samplePath, if_pos hv, if_neg (by omega), if_neg (by omega)]

/-- The divider fires (R165). -/
theorem samplePath_of_fires {s : State} (hv : s.prod.path.cfgValid = true)
    (hsum : s.prod.path.acc.toNat + s.prod.path.rate.toNat < 2 ^ 32)
    (h : s.params.fcpu ≤ s.prod.path.acc.toNat + s.prod.path.rate.toNat) :
    samplePath s =
      .next (emitSample (setAcc s (s.prod.path.acc.toNat + s.prod.path.rate.toNat - s.params.fcpu))) := by
  rw [samplePath, if_pos hv, if_neg (by omega), if_pos h]

@[simp] theorem chain_attached (x : F32) (s : State) : (chain x s).2.prod.attached = s.prod.attached := by
  obtain ⟨f, hf⟩ := chain_prod x s
  rw [hf]

/-- Whether a firing pushes is the ATTACHED it finds: the read and the chain leave it alone. -/
theorem emitSample_eq (s : State) :
    emitSample s =
      if s.prod.attached = true then
        push (chain (apuOut s).1 (apuOut s).2).2 (chain (apuOut s).1 (apuOut s).2).1
      else (chain (apuOut s).1 (apuOut s).2).2 := by
  simp only [emitSample, chain_attached, apuOut_prod]

/-- Settles O30, by whether the divider is configured and whether it fires; the new ACC is below `2^32` in both cases. -/
theorem audioTickRule : Obligations.AudioTickRule := by
  refine fun s => ⟨samplePath_of_unconfigured, fun hv hc _ _ hcount => ?counts, fun hv hc hacc hrate hfire => ?fires⟩
  case counts =>
    exact ⟨_, samplePath_of_counts hv hc hcount, (BitVec.toNat_ofNat ..).trans (Nat.mod_eq_of_lt (by omega))⟩
  case fires =>
    refine ⟨_, _, _, _, _, (BitVec.toNat_ofNat ..).trans (Nat.mod_eq_of_lt (by omega)), rfl, rfl, ?_⟩
    rw [samplePath_of_fires hv (by omega) hfire, emitSample_eq]
    rfl

end Sys2Proof.Machine

namespace Sys2Proof.Machine

/-! ## The consumer side (spec/43_consumer.md R190 to R192, R194)

What each of the three commands does, one equation per outcome, and what a callback of FRAME commands emits. -/

/-! ### FRAME -/

theorem exec_frame_of_unconfigured {s : State} (h : s.cons.channels = 0#8) :
    exec .frame s = .next (emitFrame (raiseCFault s .unconfigured) silence 0#8) :=
  if_pos h

theorem exec_frame_of_configured {s : State} (h : s.cons.channels ≠ 0#8) : exec .frame s = .next (playFrame s) :=
  if_neg h

theorem playFrame_of_empty {s : State} (h : s.cons.rdPtr = s.cons.wrSync) :
    playFrame s = emitFrame (s.setCons { s.cons with outSample := silence }) silence s.cons.channels :=
  if_pos h

theorem playFrame_of_nonempty {s : State} (h : s.cons.rdPtr ≠ s.cons.wrSync) :
    playFrame s = emitFrame
      (s.setCons { s.cons with
        rdPtr := ptrNext s.params.cap s.cons.rdPtr
        outSample := memRead s.mem (s.cons.rdPtr % s.params.cap) })
      (memRead s.mem (s.cons.rdPtr % s.params.cap)) s.cons.channels :=
  if_neg h

@[simp] theorem playFrame_channels (s : State) : (playFrame s).cons.channels = s.cons.channels := by
  unfold playFrame; split <;> rfl

/-- Settles O20, by whether a channel count is set and whether the consumer sees a sample. -/
theorem frameEmits : Obligations.FrameEmits := by
  refine fun s => ⟨fun h => ?unconfigured, fun h hempty => ?silent, fun h hsample v hv => ?popped⟩
  case unconfigured => rw [exec_frame_of_unconfigured h]; rfl
  case silent => rw [exec_frame_of_configured h, playFrame_of_empty hempty]; rfl
  case popped => rw [exec_frame_of_configured h, playFrame_of_nonempty hsample, hv]; rfl

/-! ### FLUSH and SETCH -/

theorem exec_flush (s : State) : exec .flush s = .next (s.setCons { s.cons with rdPtr := s.cons.wrSync }) := rfl

theorem exec_setch_of_legal {n : BitVec 8} (s : State) (h : n ≠ 0#8) :
    exec (.setch n) s = .next (s.setCons { s.cons with channels := n }) :=
  if_pos (decide_eq_true h)

theorem exec_setch_zero (s : State) : exec (.setch 0#8) s = .next (raiseCFault s .badConfig) := rfl

/-- Settles O21: FLUSH is one assignment, which makes the two pointers of VEMPTY equal; SETCH by whether `n` is 0. -/
theorem flushAndSetch : Obligations.FlushAndSetch := by
  refine fun s => ⟨⟨_, exec_flush s, rfl, decide_eq_true rfl⟩, fun n => ⟨exec_setch_of_legal s, fun hn => ?refused⟩⟩
  case refused => rw [hn, exec_setch_zero]; rfl

/-! ### A callback (R194) -/

/-- The consumer's view holds no sample where its two pointers agree. -/
theorem countC_of_empty {s : State} (h : s.cons.rdPtr = s.cons.wrSync) : s.countC = 0 := by
  simp [State.countC, ptrDist, h]

/-- The consumer's view holds a sample where its two pointers differ. -/
theorem countC_pos_of_nonempty {s : State} (hs : FifoOk s) (h : s.cons.rdPtr ≠ s.cons.wrSync) : 0 < s.countC := by
  obtain ⟨-, -, hrd, hwrSync, -⟩ := hs
  exact ptrDist_pos_of_ne hwrSync hrd h

/-- A FRAME that sees a sample reads on over one. -/
theorem readsOn_playFrame {s : State} (h : s.cons.rdPtr ≠ s.cons.wrSync) : ReadsOn 1 s (playFrame s) := by
  rw [playFrame_of_nonempty h]
  exact ⟨rfl, rfl, rfl, rfl, rfl⟩

/-- A FRAME takes one sample out of the consumer's view, if there is one. -/
theorem playFrame_countC {s : State} (hs : FifoOk s) : (playFrame s).countC = s.countC - 1 := by
  by_cases h : s.cons.rdPtr = s.cons.wrSync
  · have hsame : (playFrame s).countC = s.countC := by rw [playFrame_of_empty h]; rfl
    rw [hsame, countC_of_empty h]
  · exact (readsOn_playFrame h).countC_eq hs (countC_pos_of_nonempty hs h)

/-- The frames of a callback of `n` frames from `s`: the oldest samples in the consumer's view, as far as they reach,
and then silence (R194). `callback_emits` says that these are what the model emits. -/
def callbackFrames (s : State) (n : Nat) : List Frame :=
  (queueFrom s.mem s.params.cap s.cons.rdPtr (min n s.countC)).map (fun v => ⟨v, s.cons.channels⟩) ++
    List.replicate (n - s.countC) ⟨silence, s.cons.channels⟩

@[simp] theorem callbackFrames_zero (s : State) : callbackFrames s 0 = [] := by simp [callbackFrames]

/-- A FRAME with an empty view leaves the view empty: one frame of silence, and as many as are left to come. -/
theorem callbackFrames_succ_of_empty {s : State} (n : Nat) (h : s.cons.rdPtr = s.cons.wrSync) :
    callbackFrames s (n + 1) = ⟨silence, s.cons.channels⟩ :: callbackFrames (playFrame s) n := by
  have hs : s.countC = 0 := countC_of_empty h
  have hplay : (playFrame s).countC = 0 := by rw [playFrame_of_empty h]; exact hs
  simp [callbackFrames, hs, hplay, List.replicate_succ]

/-- A FRAME that sees a sample emits the oldest and leaves the rest. -/
theorem callbackFrames_succ_of_nonempty {s : State} (n : Nat) (hs : FifoOk s) (h : s.cons.rdPtr ≠ s.cons.wrSync) :
    callbackFrames s (n + 1) =
      ⟨memRead s.mem (s.cons.rdPtr % s.params.cap), s.cons.channels⟩ :: callbackFrames (playFrame s) n := by
  have hrdPtr : (playFrame s).cons.rdPtr = ptrNext s.params.cap s.cons.rdPtr := (readsOn_playFrame h).rdPtr
  obtain ⟨m, hm⟩ := Nat.exists_eq_succ_of_ne_zero (countC_pos_of_nonempty hs h).ne'
  simp [callbackFrames, playFrame_countC hs, hrdPtr, hm, queueFrom_succ, Nat.succ_min_succ]

/-- The first FRAME of a callback emits the callback's first frame. -/
theorem playFrame_frames_append {s : State} (n : Nat) (hs : FifoOk s) :
    (playFrame s).out.frames ++ callbackFrames (playFrame s) n = s.out.frames ++ callbackFrames s (n + 1) := by
  by_cases h : s.cons.rdPtr = s.cons.wrSync
  · have hout : (playFrame s).out.frames = s.out.frames ++ [⟨silence, s.cons.channels⟩] := by
      rw [playFrame_of_empty h]; rfl
    rw [callbackFrames_succ_of_empty n h, hout, List.append_assoc, List.singleton_append]
  · have hout : (playFrame s).out.frames =
        s.out.frames ++ [⟨memRead s.mem (s.cons.rdPtr % s.params.cap), s.cons.channels⟩] := by
      rw [playFrame_of_nonempty h]; rfl
    rw [callbackFrames_succ_of_nonempty n hs h, hout, List.append_assoc, List.singleton_append]

/-- A callback, by induction on its frames: each FRAME keeps the FIFO's invariant and emits the first of the frames
that are left. -/
theorem callback_emits (n : Nat) {s : State} (hs : FifoOk s) (hch : s.cons.channels ≠ 0#8) :
    ∃ t, callback n s = .next t ∧ t.prod = s.prod ∧ t.mem = s.mem ∧ t.countC = s.countC - n ∧
      t.out.frames = s.out.frames ++ callbackFrames s n := by
  induction n generalizing s with
  | zero => exact ⟨s, rfl, rfl, rfl, rfl, by simp⟩
  | succ n ih =>
    have hplay : FifoOk (playFrame s) := (readsSeen_playFrame hs).fifoOk hs
    obtain ⟨t, ht, hprod, hmem, hcount, hframes⟩ := ih hplay (by simpa using hch)
    refine ⟨t, ?run, by simpa using hprod, by simpa using hmem, ?count, ?frames⟩
    case run => rw [callback, exec_frame_of_configured hch, andThen_next, ht]
    case count => rw [hcount, playFrame_countC hs]; omega
    case frames => rw [hframes, playFrame_frames_append n hs]

/-- The oldest samples of a stretch of the FIFO are a shorter stretch. -/
theorem queueFrom_take (m : Memory) (cap rd n k : Nat) :
    (queueFrom m cap rd n).take k = queueFrom m cap rd (min k n) := by
  induction n generalizing rd k with
  | zero => simp
  | succ n ih =>
    cases k with
    | zero => simp
    | succ k => simp [queueFrom_succ, ih, Nat.succ_min_succ]

/-- The samples in the consumer's view are the oldest in the FIFO (R79, R80). -/
theorem queue_take_view {s : State} (hs : FifoOk s) (n : Nat) :
    s.queue.take (min n s.countC) = queueFrom s.mem s.params.cap s.cons.rdPtr (min n s.countC) := by
  obtain ⟨-, -, -, -, hle, -⟩ := hs
  rw [State.queue, queueFrom_take, min_eq_left ((min_le_right _ _).trans hle)]

@[simp] theorem frameSamples_length (f : Frame) : (frameSamples f).length = f.channels.toNat := by simp [frameSamples]

theorem interleave_cons (f : Frame) (fs : List Frame) : interleave (f :: fs) = frameSamples f ++ interleave fs := rfl

/-- Where every frame has `ch` channels, frame `i` stands in the `ch` places from `i*ch` on (R194). -/
theorem interleave_getElem? {fs : List Frame} {ch : BitVec 8} {i j : Nat} {f : Frame}
    (hch : ∀ g ∈ fs, g.channels = ch) (hf : fs[i]? = some f) (hj : j < ch.toNat) :
    (interleave fs)[i * ch.toNat + j]? = some f.value := by
  induction fs generalizing i with
  | nil => simp at hf
  | cons g fs ih =>
    obtain ⟨hg, hfs⟩ := List.forall_mem_cons.1 hch
    have hlen : (frameSamples g).length = ch.toNat := by rw [frameSamples_length, hg]
    rw [interleave_cons]
    cases i with
    | zero =>
      obtain rfl : g = f := by simpa using hf
      rw [Nat.zero_mul, Nat.zero_add, List.getElem?_append_left (by omega)]
      exact List.getElem?_replicate_of_lt (hg ▸ hj)
    | succ i =>
      have hindex : (i + 1) * ch.toNat + j = ch.toNat + (i * ch.toNat + j) := by ring
      rw [hindex, ← hlen, List.getElem?_append_right (by omega), Nat.add_sub_cancel_left, hlen]
      exact ih hfs (by simpa using hf)

/-- Settles O41: the callback's frames are `callbackFrames`, whose samples are the oldest of the queue; the interleaved
buffer by induction on the frames. -/
theorem callbackLaw : Obligations.CallbackLaw := by
  refine ⟨fun s n hinv hch => ?emits, fun fs ch i j f => interleave_getElem?⟩
  obtain ⟨-, -, -, -, hs, -⟩ := hinv
  rw [queue_take_view hs n]
  exact callback_emits n hs hch

end Sys2Proof.Machine

namespace Sys2Proof.Machine

/-! ## Faults (spec/60_exceptions.md R214, R219, R220)

What raising a fault writes, what CONS keeps of a recorded fault, and what PROD does in HALT. -/

/-! ### Raising a fault -/

@[simp] theorem errorWord_code (c : FaultCode) (u : BitVec 3) : (errorWord c u).extractLsb' 0 8 = c.code := by
  rw [errorWord, BitVec.extractLsb'_append_eq_of_add_le (by decide), BitVec.extractLsb'_append_eq_right]

@[simp] theorem errorWord_unit (c : FaultCode) (u : BitVec 3) : (errorWord c u).extractLsb' 8 3 = u := by
  rw [errorWord, BitVec.extractLsb'_append_eq_of_add_le (by decide), BitVec.extractLsb'_append_eq_left]

@[simp] theorem errorWord_reserved (c : FaultCode) (u : BitVec 3) : (errorWord c u).extractLsb' 11 21 = 0#21 :=
  BitVec.extractLsb'_append_eq_left

theorem raiseCFault_cerror_of_recorded {s : State} (c : CFaultCode) (h : s.cons.cerror ≠ 0#32) :
    (raiseCFault s c).cons.cerror = s.cons.cerror :=
  if_neg h

theorem raiseCFault_cerror_of_zero {s : State} (c : CFaultCode) (h : s.cons.cerror = 0#32) :
    (raiseCFault s c).cons.cerror = c.code.setWidth 32 :=
  if_pos h

/-- Settles O45, by the three fields of ERROR and by whether CERROR is 0. -/
theorem faultsAreRecorded : Obligations.FaultsAreRecorded := by
  refine ⟨fun s c u => ⟨_, rfl, errorWord_code c u, errorWord_unit c u, errorWord_reserved c u⟩,
    fun s c => ⟨_, rfl, raiseCFault_cerror_of_recorded c, fun h => ?first⟩⟩
  case first =>
    calc (raiseCFault s c).cons.cerror.toNat = (c.code.setWidth 32).toNat := by rw [raiseCFault_cerror_of_zero c h]
      _ = c.code.toNat := BitVec.toNat_setWidth_of_le (by decide)

/-! ### CONS keeps a recorded fault -/

/-- From `c` to `d` no consumer fault is cleared and no recorded code changes (R220). -/
structure CFaultKept (c d : Consumer) : Prop where
  cfault : c.cfault = true → d.cfault = true
  cerror : c.cerror ≠ 0#32 → d.cerror = c.cerror

/-- What writes neither CFAULT nor CERROR keeps a recorded fault. -/
theorem CFaultKept.of_same {c d : Consumer} (hcfault : d.cfault = c.cfault) (hcerror : d.cerror = c.cerror) :
    CFaultKept c d :=
  ⟨hcfault.trans, fun _ => hcerror⟩

/-- A second consumer fault keeps the first (R219). -/
theorem cfaultKept_raiseCFault (s : State) (c : CFaultCode) : CFaultKept s.cons (raiseCFault s c).cons :=
  ⟨fun _ => rfl, raiseCFault_cerror_of_recorded c⟩

/-- FRAME with channels configured writes RD_PTR and OUT_SAMPLE at most, and hands out a frame (R190). -/
theorem playFrame_keeps (s : State) :
    (playFrame s).mem = s.mem ∧ (playFrame s).out.sink = s.out.sink ∧ CFaultKept s.cons (playFrame s).cons := by
  by_cases h : s.cons.rdPtr = s.cons.wrSync
  · rw [playFrame_of_empty h]; exact ⟨rfl, rfl, .of_same rfl rfl⟩
  · rw [playFrame_of_nonempty h]; exact ⟨rfl, rfl, .of_same rfl rfl⟩

/-- A command of the consumer port stores nothing, sends the sink nothing and keeps a recorded fault. -/
theorem exec_consumer_keeps {i : Instr} {s t : State} (hi : i.mnemonic.port = .consumer) (h : exec i s = .next t) :
    t.mem = s.mem ∧ t.out.sink = s.out.sink ∧ CFaultKept s.cons t.cons := by
  cases i with
  | frame =>
    by_cases hch : s.cons.channels = 0#8
    · rw [exec_frame_of_unconfigured hch] at h
      cases h
      exact ⟨rfl, rfl, cfaultKept_raiseCFault s _⟩
    · rw [exec_frame_of_configured hch] at h
      cases h
      exact playFrame_keeps s
  | flush => cases h; exact ⟨rfl, rfl, .of_same rfl rfl⟩
  | setch n =>
    by_cases hn : n = 0#8
    · rw [hn, exec_setch_zero] at h
      cases h
      exact ⟨rfl, rfl, cfaultKept_raiseCFault s _⟩
    · rw [exec_setch_of_legal s hn] at h
      cases h
      exact ⟨rfl, rfl, .of_same rfl rfl⟩
  | step | stepframe | stepsec _ | reset | setbtn _ _ | config _ | disable | attach | detach | snapshot | restore =>
    cases hi

/-- A turn of CONS stores nothing, sends the sink nothing and keeps a recorded fault. -/
theorem consTurn_keeps {s t : State} (h : consTurn s = .next t) :
    t.mem = s.mem ∧ t.out.sink = s.out.sink ∧ CFaultKept s.cons t.cons := by
  simp only [consTurn, runConsumerWord] at h
  split at h
  next => cases h; exact ⟨rfl, rfl, .of_same rfl rfl⟩
  next =>
    split at h
    next => cases h; exact ⟨rfl, rfl, cfaultKept_raiseCFault s _⟩
    next hd => exact exec_consumer_keeps (s := (takeCcmd s).2) (port_of_decode hd) h

/-- A turn of PROD touches no register of the consumer domain (R82). -/
theorem prodTurn_cons {s t : State} (h : prodTurn s = .next t) : t.cons = s.cons := by
  obtain hno | ⟨u, y, hu, ht⟩ := atMostOnePush_prodTurn h
  · exact hno.cons
  · rw [ht.cons, push_cons, hu.cons]

/-- No turn of any agent clears or changes a recorded consumer fault. -/
theorem agentTurn_keeps_cfault {a : Agent} {s t : State} (h : agentTurn a s = .next t) : CFaultKept s.cons t.cons := by
  cases a with
  | prod => rw [prodTurn_cons h]; exact .of_same rfl rfl
  | cons => obtain ⟨-, -, hkept⟩ := consTurn_keeps h; exact hkept
  | syncW | syncR => cases h; exact .of_same rfl rfl

/-! ### PROD in HALT -/

/-- PROD in HALT takes a word off its port, if there is one, and discards it (R111). -/
theorem prodTurn_of_halt {s : State} (hstream : s.prod.stream = .none) (hphase : s.prod.phase = .halt) :
    prodTurn s = .next (takeCmd s).2 := by
  simp only [prodTurn, hstream, hphase, haltTurn]

/-- With PROD in HALT no turn of any agent changes a register of the producer domain but RD_SYNC, stores a sample,
calls a unit or sends the sink a byte. -/
theorem agentTurn_of_halt {a : Agent} {s t : State} (hphase : s.prod.phase = .halt) (hstream : s.prod.stream = .none)
    (h : agentTurn a s = .next t) :
    t.prod = { s.prod with rdSync := t.prod.rdSync } ∧ t.out.calls = s.out.calls ∧ t.out.sink = s.out.sink ∧
      t.mem = s.mem := by
  cases a with
  | prod =>
    obtain rfl : (takeCmd s).2 = t := by simpa [agentTurn, prodTurn_of_halt hstream hphase] using h
    exact ⟨rfl, rfl, rfl, rfl⟩
  | cons =>
    obtain ⟨hprod, hcalls⟩ := consTurn_frame h
    obtain ⟨hmem, hsink, -⟩ := consTurn_keeps h
    exact ⟨by rw [hprod], hcalls, hsink, hmem⟩
  | syncW | syncR => cases h; exact ⟨rfl, rfl, rfl, rfl⟩

/-- Settles O46, agent by agent: PROD in HALT only discards, and CONS raises a fault only over what it keeps. -/
theorem faultsStay : Obligations.FaultsStay := by
  intro s t h
  have hturn := agentTurn_of_step h
  obtain ⟨hcfault, hcerror⟩ := agentTurn_keeps_cfault hturn
  exact ⟨fun hphase hstream => agentTurn_of_halt (s := (takeAgent s).2) hphase hstream hturn, hcfault, hcerror⟩

end Sys2Proof.Machine

namespace Sys2Proof.Machine

/-! ## Reset (spec/70_reset_and_hazards.md R240) -/

/-- A pointer at 0 reads zero, whatever `PTR_W` is. -/
@[simp] theorem ptrWord_zero (s : State) : ptrWord s 0 = 0#32 := by
  rw [ptrWord, Nat.zero_mod]

/-- The high word of a 64-bit register at 0 reads zero (R53). -/
theorem extractLsb'_high_zero : (0#64).extractLsb' 32 32 = 0#32 := by decide

/-- At power-on the producer read map reads zero at every address but those of F_CPU and CAP (R53, R240). -/
theorem prodRead_powerOn (p : Params) (w : World) {a : BitVec 8} (hfcpu : a.toNat ≠ 0x02) (hcap : a.toNat ≠ 0x03) :
    prodRead (.powerOn p w) a = 0#32 := by
  unfold prodRead
  split
  case h_1 => exact (statusViews.2 p w).1
  case h_3 => contradiction
  case h_4 => contradiction
  case h_9 => exact extractLsb'_high_zero
  case h_11 => exact extractLsb'_high_zero
  case h_12 => exact ptrWord_zero _
  case h_13 => exact ptrWord_zero _
  all_goals rfl

/-- At power-on the consumer read map reads zero at every address but that of CSTATUS (R54, R240). -/
theorem consRead_powerOn (p : Params) (w : World) {a : BitVec 8} (hcstatus : a.toNat ≠ 0x00) :
    consRead (.powerOn p w) a = 0#32 := by
  unfold consRead
  split
  case h_1 => contradiction
  case h_4 => exact ptrWord_zero _
  case h_5 => exact ptrWord_zero _
  all_goals rfl

/-- Settles O49: F_CPU and CAP fit the words that show them, CSTATUS shows VEMPTY alone, every other address reads
zero, and the rest of the table is the power-on state's own. -/
theorem powerOnValues : Obligations.PowerOnValues := by
  rintro p w hp s rfl
  obtain ⟨hfcpu, hcap⟩ := bounds_of_paramsValid hp
  refine ⟨fun a => prodRead_powerOn p w, ?fcpu, ?cap, (statusViews.2 p w).2, fun a => consRead_powerOn p w,
    rfl, rfl, rfl, rfl, rfl, rfl, rfl, rfl, rfl, rfl, ?memory⟩
  case fcpu => exact Nat.mod_eq_of_lt (hfcpu.trans (by decide))
  case cap => exact Nat.mod_eq_of_lt (hcap.trans_lt (by decide))
  case memory => exact Memory.cell_nil

end Sys2Proof.Machine

namespace Sys2Proof.Machine

/-! ## The decoder, the encoder and the assembler (spec/30_encoding.md R91 to R95, R99)

Two rows never share an opcode, so a word that hits a row decodes to that row's command; the operands of the command and
of its word are the same fields. -/

/-! ### Decoding the word of a command -/

/-- The opcode tells the rows of a table apart (R93, R94). -/
theorem table_opcode_injective {p : Port} {r q : OpRow} (hr : r ∈ p.table) (hq : q ∈ p.table)
    (h : r.bits.extractLsb' 24 8 = q.bits.extractLsb' 24 8) : r = q := by
  have key : ∀ r ∈ p.table, ∀ q ∈ p.table, r.bits.extractLsb' 24 8 = q.bits.extractLsb' 24 8 → r = q := by
    cases p <;> decide
  exact key r hr q hq h

theorem mem_table (m : Mnemonic) : m.row ∈ m.port.table := by cases m <;> decide

@[simp] theorem row_mnemonic (m : Mnemonic) : m.row.mnemonic = m := by cases m <;> rfl

/-- A word that hits a row is that row's command on the row's port: no other row of the table has its opcode. -/
theorem decode_of_row_hits {m : Mnemonic} {w : Word} (h : m.row.hits w = true) :
    decode m.port w = some (m.assembleWord w) := by
  obtain ⟨r, hr⟩ :=
    Option.isSome_iff_exists.1 ((List.find?_isSome (p := (OpRow.hits · w))).2 ⟨m.row, mem_table m, h⟩)
  have hmem := List.mem_of_find?_eq_some hr
  have hhits := List.find?_some (p := (OpRow.hits · w)) hr
  rw [← row_of_mem_table hmem] at hhits
  obtain ⟨hop, -⟩ := (row_hits_iff _ w).1 hhits
  obtain ⟨hopm, -⟩ := (row_hits_iff _ w).1 h
  rw [row_of_mem_table hmem] at hop
  obtain rfl : r = m.row := table_opcode_injective hmem (mem_table m) (hop.symm.trans hopm)
  rw [decode, hr, Option.map_some, row_mnemonic]

theorem imm24_append (op : BitVec 8) (v : BitVec 24) : imm24 (op ++ v) = v := BitVec.extractLsb'_append_eq_right

theorem imm8_append (a : BitVec 24) (v : BitVec 8) : imm8 (a ++ v) = v := BitVec.extractLsb'_append_eq_right

theorem imm8_of_imm24 (op : BitVec 8) (a : BitVec 16) (v : BitVec 8) : imm8 (op ++ (a ++ v)) = v := by
  rw [imm8, BitVec.extractLsb'_append_eq_of_add_le (by decide), BitVec.extractLsb'_append_eq_right]

/-- The word of SETBTN holds its operands in its two operand fields (R91, R92). -/
theorem setbtn_fields (p : Player) (b : BitVec 8) :
    playerBit (encode (.setbtn p b)) = p ∧ imm8 (encode (.setbtn p b)) = b := by
  constructor
  · have hbit : (encode (.setbtn p b)).getLsbD 8 = p.bit.getLsbD 0 := by
      simp only [encode, BitVec.getLsbD_append]
      rfl
    rw [playerBit, hbit]
    cases p <;> rfl
  · rw [imm8, encode, BitVec.extractLsb'_append_eq_of_add_le (by decide),
      BitVec.extractLsb'_append_eq_of_add_le (by decide), BitVec.extractLsb'_append_eq_right]

/-- A command's operands are assembled again from its word. -/
theorem assembleWord_encode (i : Instr) : i.mnemonic.assembleWord (encode i) = i := by
  cases i with
  | stepsec us => exact congrArg Instr.stepsec (imm24_append _ us)
  | config rate => exact congrArg Instr.config (imm24_append _ rate)
  | setch n => exact congrArg Instr.setch (imm8_of_imm24 _ _ n)
  | setbtn p b => exact congrArg₂ Instr.setbtn (setbtn_fields p b).1 (setbtn_fields p b).2
  | step | stepframe | reset | disable | attach | detach | snapshot | restore | frame | flush => rfl

/-- Settles O1: a command's word hits its own row, and the row's operands of the word are the command's. -/
theorem decodeOfEncode : Obligations.DecodeOfEncode := by
  intro i
  obtain ⟨hhits, -⟩ := opcodeRow_statement i
  rw [decode_of_row_hits hhits, assembleWord_encode]

/-! ### The command of a word -/

/-- A decoded command is assembled from the word by its own row. -/
theorem eq_assembleWord_of_decode {p : Port} {w : Word} {i : Instr} (h : decode p w = some i) :
    i = i.mnemonic.assembleWord w := by
  simp only [decode, Option.map_eq_some_iff] at h
  obtain ⟨r, -, rfl⟩ := h
  rw [mnemonic_assembleWord]

/-- The word of an assembled command has the operand bits it was assembled from. -/
theorem encode_assembleWord_operands (m : Mnemonic) (w : Word) :
    (encode (m.assembleWord w)).extractLsb' 0 (operandBits m) = w.extractLsb' 0 (operandBits m) := by
  cases m with
  | STEPSEC | CONFIG => exact imm24_append _ (imm24 w)
  | SETCH => exact imm8_of_imm24 _ _ (imm8 w)
  | SETBTN =>
    have hbit : (playerBit w).bit = w.extractLsb' 8 1 := by
      rw [playerBit]
      apply BitVec.eq_of_getLsbD_eq
      intro i hi
      obtain rfl : i = 0 := by omega
      cases h : w[8] <;> simp [Player.bit, h]
    show (encode (.setbtn (playerBit w) (imm8 w))).extractLsb' 0 9 = w.extractLsb' 0 (1 + 8)
    rw [encode, BitVec.extractLsb'_append_eq_of_add_le (by decide), BitVec.extractLsb'_append_eq_right, hbit, imm8,
      BitVec.extractLsb'_append_extractLsb'_eq_extractLsb' (Nat.zero_add 8).symm]
  | STEP | STEPFRAME | RESET | DISABLE | ATTACH | DETACH | SNAPSHOT | RESTORE | FRAME | FLUSH =>
    exact BitVec.eq_of_zero_length rfl

/-- Settles O2: a decoded word and the word of its command hit the same row, and so agree in the opcode and the reserved
bits; they have the same operand bits. -/
theorem encodeOfDecode : Obligations.EncodeOfDecode := by
  intro p w i h
  refine ⟨decide_eq_true (port_of_decode h), ?_⟩
  obtain ⟨hown, -⟩ := opcodeRow_statement i
  obtain ⟨hop, hreserved⟩ := (row_hits_iff _ _).1 hown
  obtain ⟨hopw, hreservedw⟩ := (row_hits_iff _ _).1 (row_hits_of_decode h)
  refine (word_eq_iff_fields (operandBits_le i.mnemonic) _ _).2
    ⟨hop.trans hopw.symm, hreserved.trans hreservedw.symm, ?_⟩
  have hoperands := encode_assembleWord_operands i.mnemonic w
  rwa [← eq_assembleWord_of_decode h] at hoperands

/-! ### Operands -/

theorem imm24_toNat (w : Word) : (imm24 w).toNat = w.toNat % 2 ^ 24 := by simp [imm24]

theorem imm8_toNat (w : Word) : (imm8 w).toNat = w.toNat % 2 ^ 8 := by simp [imm8]

/-- Bit 8 of a word selects the controller (R92). -/
theorem playerBit_eq (w : Word) : playerBit w = if w.toNat / 2 ^ 8 % 2 = 1 then .two else .one := by
  rw [playerBit, BitVec.getLsbD, Nat.testBit_eq_decide_div_mod_eq]
  simp

/-- Settles O5: the operands of a decoded command are the fields its row assembles. -/
theorem operandFields : Obligations.OperandFields := by
  refine ⟨fun w us h => ?stepsec, fun w rate h => ?config, fun w n h => ?setch, fun w p b h => ?setbtn⟩
  case stepsec =>
    obtain rfl : us = imm24 w := Instr.stepsec.inj (eq_assembleWord_of_decode h)
    exact imm24_toNat w
  case config =>
    obtain rfl : rate = imm24 w := Instr.config.inj (eq_assembleWord_of_decode h)
    exact imm24_toNat w
  case setch =>
    obtain rfl : n = imm8 w := Instr.setch.inj (eq_assembleWord_of_decode h)
    exact imm8_toNat w
  case setbtn =>
    obtain ⟨rfl, rfl⟩ : p = playerBit w ∧ b = imm8 w := Instr.setbtn.inj (eq_assembleWord_of_decode h)
    refine ⟨imm8_toNat w, fun h0 => ?_, fun h1 => ?_⟩
    · rw [playerBit_eq, if_neg (by omega)]
    · rw [playerBit_eq, if_pos h1]

/-- Settles O6: the nine words, each by its port's table. -/
theorem sampleWordsDecode : Obligations.SampleWordsDecode := by
  unfold Obligations.SampleWordsDecode
  decide

/-! ### The assembler (R99) -/

/-- The assembler answers where the operands fit, with a command of the mnemonic asked for. -/
theorem assemble_of_fits {m : Mnemonic} {ops : List Nat} (h : m.operandsFit ops = true) :
    ∃ i, assemble m ops = some i ∧ i.mnemonic = m := by
  unfold assemble
  rw [if_pos h]
  split
  case h_5 => exact ⟨_, rfl, mnemonic_assembleWord _ _⟩
  all_goals exact ⟨_, rfl, rfl⟩

theorem assemble_of_misfits {m : Mnemonic} {ops : List Nat} (h : m.operandsFit ops = false) : assemble m ops = none :=
  if_neg (Bool.eq_false_iff.1 h)

/-- Operands that the assembler takes fit their fields. -/
theorem fits_of_assemble {m : Mnemonic} {ops : List Nat} {i : Instr} (h : assemble m ops = some i) :
    m.operandsFit ops = true := by
  by_contra hmisfit
  rw [assemble_of_misfits (Bool.eq_false_iff.2 hmisfit)] at h
  cases h

/-- A number that fits a field is read back from it. -/
theorem toNat_ofNat_of_fits {n v : Nat} (h : decide (v < 2 ^ n) = true) : (BitVec.ofNat n v).toNat = v := by
  rw [BitVec.toNat_ofNat, Nat.mod_eq_of_lt (of_decide_eq_true h)]

/-- Settles O7, by whether the operands fit; where they do, each is below the size of the field that holds it. -/
theorem assemblerRefusesMisfits : Obligations.AssemblerRefusesMisfits := by
  refine ⟨fun m ops => ?answers, fun m ops i h => ?mnemonic, fun us v h => ?stepsec, fun rate v h => ?config,
    fun n v h => ?setch, fun p b q v h => ?setbtn⟩
  case answers =>
    cases hfit : m.operandsFit ops with
    | true => obtain ⟨i, hi, -⟩ := assemble_of_fits hfit; rw [hi]; rfl
    | false => rw [assemble_of_misfits hfit]; rfl
  case mnemonic =>
    obtain ⟨j, hj, hm⟩ := assemble_of_fits (fits_of_assemble h)
    cases hj.symm.trans h
    exact hm
  all_goals
    have hfit := fits_of_assemble h
    simp only [assemble, if_pos hfit, Option.some.injEq] at h
  case stepsec => obtain rfl := Instr.stepsec.inj h; exact toNat_ofNat_of_fits hfit
  case config => obtain rfl := Instr.config.inj h; exact toNat_ofNat_of_fits hfit
  case setch => obtain rfl := Instr.setch.inj h; exact toNat_ofNat_of_fits hfit
  case setbtn =>
    obtain ⟨rfl, rfl⟩ := Instr.setbtn.inj h
    obtain ⟨-, hb⟩ : decide (p < 2) = true ∧ decide (b < 2 ^ 8) = true := Bool.and_eq_true_iff.1 hfit
    refine ⟨toNat_ofNat_of_fits hb, fun h0 => if_pos h0, fun h1 => if_neg (by omega)⟩

end Sys2Proof.Machine

namespace Sys2Proof.Machine

/-! ## The commands at acceptance (spec/40_stepper.md R110 to R112, R120, R122, spec/41_state_codec.md R141 to R149)

What a producer command does where PROD takes it and where PROD does not, and how far the two stream commands come with
the host's next answers given. -/

/-! ### The producer commands as effects -/

/-- What a producer command does in a state that takes it (R110). `exec_eq_onAccept` ties it to the model; the commands
of the consumer port have no part in it. -/
def effect : Instr → State → State
  | .step, s => s.setProd { s.prod with mode := .single, phase := .cpu }
  | .stepframe, s =>
    (ppuFrame s).2.setProd { s.prod with mode := .frame, frame0 := (ppuFrame s).1, total := 0#64, phase := .cpu }
  | .stepsec us, s =>
    s.setProd
      { s.prod with
        mode := .seconds
        budget := BitVec.ofNat 64 (tickBudget s.params.fcpu us)
        phase := if 0 < tickBudget s.params.fcpu us then .cpu else .idle }
  | .reset, s => (procReset s).setPhase .idle
  | .setbtn p b, s => (btnWrite s p b).setPhase .idle
  | .config rate, s => configure rate s
  | .disable, s => s.setPath { s.prod.path with cfgValid := false, acc := 0#32, fstate := clearedFilters }
  | .attach, s => s.setProd { s.prod with attached := true }
  | .detach, s => s.setProd { s.prod with attached := false }
  | .snapshot, s => sendBytes (bridgeRecord s.prod.path) s
  | .restore, s => readBytes 71 [] s
  | .frame, s | .flush, s | .setch _, s => s

theorem exec_eq_onAccept {i : Instr} (hi : i.mnemonic.port = .producer) (s : State) :
    exec i s = onAccept s (effect i) := by
  cases i with
  | frame | flush | setch _ => cases hi
  | step | stepframe | stepsec _ | reset | setbtn _ _ | config _ | disable | attach | detach | snapshot | restore => rfl

/-- A producer command where PROD takes it. -/
theorem exec_of_accepting {i : Instr} {s : State} (hi : i.mnemonic.port = .producer) (hs : accepting s = true) :
    exec i s = .next (effect i s) :=
  (exec_eq_onAccept hi s).trans (onAccept_accepting hs _)

/-- A producer command where PROD does not take it (R25, R111). -/
theorem exec_of_not_accepting {i : Instr} {s : State} (hi : i.mnemonic.port = .producer) (hs : accepting s = false) :
    exec i s = .next s :=
  (exec_eq_onAccept hi s).trans (onAccept_not_accepting hs _)

/-- Everything a producer command can do: nothing where PROD does not take it, else its effect. -/
theorem exec_producer_cases {i : Instr} {s t : State} (hi : i.mnemonic.port = .producer) (h : exec i s = .next t) :
    t = s ∨ (accepting s = true ∧ t = effect i s) := by
  cases ha : accepting s with
  | true => rw [exec_of_accepting hi ha] at h; cases h; exact .inr ⟨rfl, rfl⟩
  | false => rw [exec_of_not_accepting hi ha] at h; cases h; exact .inl rfl

/-! ### STEP, STEPFRAME and STEPSEC -/

/-- Settles O8: PROD takes the command, whose effect is two assignments. -/
theorem stepBegins : Obligations.StepBegins :=
  fun _ hs => exec_of_accepting (i := .step) rfl hs

/-- A 64-bit value cut to its low `n` bits is its remainder modulo `2^n` (R24). -/
theorem lowBits_toNat (n : Nat) (v : BitVec 64) : (lowBits n v).toNat = v.toNat % 2 ^ n := by
  rw [lowBits, BitVec.toNat_ofNat]
  exact Nat.mod_eq_of_lt ((Nat.mod_le _ _).trans_lt v.isLt)

/-- A reading of the frame counter has `FRAME_W` bits (R24, R55). -/
theorem ppuFrame_lt (s : State) : (ppuFrame s).1.toNat < 2 ^ s.params.frameW :=
  (lowBits_toNat _ _).trans_lt (Nat.mod_lt _ (Nat.two_pow_pos _))

/-- Settles O9: PROD takes the command; the one reading of the counter is cut to `FRAME_W` bits. -/
theorem stepframeBegins : Obligations.StepframeBegins :=
  fun s hs _ => ⟨_, _, exec_of_accepting (i := .stepframe) rfl hs, rfl, ppuFrame_lt s, rfl, rfl, rfl, rfl, rfl⟩

/-- The largest budget, of the fastest clock and the longest time, is below `2^36` (R122). -/
theorem tickBudget_lt {fcpu : Nat} (h : fcpu < 2 ^ 31) (us : BitVec 24) : tickBudget fcpu us < 2 ^ 36 := by
  have hmul : fcpu * us.toNat ≤ 2 ^ 31 * 2 ^ 24 := Nat.mul_le_mul h.le us.isLt.le
  rw [tickBudget]
  omega

/-- A number below `2^36` is held in 64 bits as it is. -/
theorem toInt_ofNat_of_lt {b : Nat} (h : b < 2 ^ 36) : (BitVec.ofNat 64 b).toInt = b :=
  BitVec.toInt_ofInt_eq_self (w := 64) (n := b) (by decide) (by omega) (by omega)

/-- Settles O10: the budget is below `2^36`, so that BUDGET holds it exactly. -/
theorem stepsecBegins : Obligations.StepsecBegins := by
  intro s us hs hparams
  have hexact := toInt_ofNat_of_lt (tickBudget_lt (bounds_of_paramsValid hparams).1 us)
  refine ⟨_, exec_stepsec_of_accepting us hs, rfl, hexact, ?bound, ?phase⟩
  case bound =>
    have hlt := tickBudget_lt (bounds_of_paramsValid hparams).1 us
    show (BitVec.ofNat 64 (tickBudget s.params.fcpu us)).toInt < 2 ^ 36
    omega
  case phase =>
    show (if 0 < tickBudget s.params.fcpu us then Phase.cpu else .idle) =
      if 0 < (BitVec.ofNat 64 (tickBudget s.params.fcpu us)).toInt then .cpu else .idle
    simp only [hexact, Int.natCast_pos]

/-! ### SNAPSHOT -/

/-- An accepting state is in IDLE with no stream command in flight, whatever is written there again. -/
theorem prod_of_accepting {s : State} (hs : accepting s = true) :
    { s.prod with stream := .none, phase := .idle } = s.prod := by
  obtain ⟨hphase, hstream⟩ := (accepting_iff s).1 hs
  rw [← hphase, ← hstream]

theorem exec_snapshot_of_accepting {s : State} (hs : accepting s = true) :
    exec .snapshot s = .next (sendBytes (bridgeRecord s.prod.path) s) :=
  exec_of_accepting (i := .snapshot) rfl hs

theorem exec_restore_of_accepting {s : State} (hs : accepting s = true) :
    exec .restore s = .next (readBytes 71 [] s) :=
  exec_of_accepting (i := .restore) rfl hs

/-- Settles O14: the sink takes all 71 bytes, and PROD is in IDLE again. -/
theorem snapshotSendsRecord : Obligations.SnapshotSendsRecord := by
  intro s rest hs hsink
  rw [← bridgeRecord_length s.prod.path] at hsink
  refine ⟨_, exec_snapshot_of_accepting hs, ?_⟩
  rw [sendBytes_taken _ s rest hsink]
  exact ⟨rfl, prod_of_accepting hs, rfl, rfl, rfl, rfl, bridgeRecord_length _⟩

/-! ### RESTORE that fails -/

theorem finishRestore_of_badSentinel {s : State} {rec : List Byte} (h : byteAt rec 70 ≠ 0x01#8) :
    finishRestore s rec = failRestore s .restoreTruncated :=
  if_pos h

theorem finishRestore_of_invalid {s : State} {rec : List Byte} (hsentinel : byteAt rec 70 = 0x01#8)
    (hinvalid : recordValid s.params.fcpu rec = false) : finishRestore s rec = failRestore s .restoreMalformed := by
  rw [finishRestore, if_neg (not_not.2 hsentinel), if_neg (Bool.eq_false_iff.1 hinvalid)]

/-- A RESTORE that fails in an accepting state, after the bytes it took, changes the record's registers, ERROR and the
phase (R145). -/
theorem failRestore_tookBytes_prod {s : State} (hs : accepting s = true) (bytes : List Byte) (rest : List SourceItem)
    (c : FaultCode) :
    (failRestore (s.tookBytes .none bytes rest) c).prod =
      { s.prod with path := failedPath s.world.fresh, error := errorWord c 0#3, phase := .halt } := by
  obtain ⟨-, hstream⟩ := (accepting_iff s).1 hs
  show { s.prod with
    stream := .none, path := failedPath s.world.fresh, error := errorWord c 0#3, phase := .halt } = _
  rw [← hstream]

/-- Settles O16, by the sentinel and then by `Valid`, of which the listed conditions are the negation. -/
theorem restoreFailures : Obligations.RestoreFailures := by
  intro s rec rest hs hsource hlen
  have hexec := exec_restore_of_source hs hsource hlen
  have hprod := failRestore_tookBytes_prod hs rec rest
  constructor
  · intro hsentinel
    rw [finishRestore_of_badSentinel hsentinel] at hexec
    exact ⟨_, hexec, rfl, hprod .restoreTruncated, rfl, rfl, rfl⟩
  · intro hsentinel hbad
    have hinvalid : recordValid s.params.fcpu rec = false := by
      refine Bool.eq_false_iff.2 fun hvalid => ?_
      obtain ⟨hversion, hcfg, hrate, hacc, hconfigured⟩ := (recordValid_iff _ _).1 hvalid
      obtain h | ⟨h0, h1⟩ | h | h | ⟨h1, h⟩ := hbad
      · exact h hversion
      · exact hcfg.elim h0 h1
      · omega
      · omega
      · have := hconfigured h1
        omega
    rw [finishRestore_of_invalid (s := s.tookBytes .none rec rest) hsentinel hinvalid] at hexec
    exact ⟨_, hexec, rfl, hprod .restoreMalformed, rfl, rfl, rfl⟩

/-- Settles O17: the loop ends at `EOS` with too few bytes, whatever they are. -/
theorem truncatedRestoreFails : Obligations.TruncatedRestoreFails := by
  intro s bytes rest hs hsource hlen
  refine ⟨_, exec_restore_of_accepting hs, ?_⟩
  rw [readBytes_ended 71 bytes [] s rest hlen hsource]
  exact ⟨rfl, failRestore_tookBytes_prod hs bytes _ _, rfl, rfl, rfl⟩

/-! ### Transfers that wait and go on (R28, R252) -/

theorem prodTurn_of_snapshot {s : State} {left : List Byte} (h : s.prod.stream = .snapshot left) :
    prodTurn s = .next (sendBytes left s) := by
  simp only [prodTurn, h]

theorem prodTurn_of_restore {s : State} {got : List Byte} (h : s.prod.stream = .restore got) :
    prodTurn s = .next (readBytes (71 - got.length) got s) := by
  simp only [prodTurn, h]

/-- The port is not ready while a stream command is in flight (R252). -/
theorem cmdReady_of_stream {s : State} (h : s.prod.stream ≠ .none) : cmdReady s = false := by
  simp [cmdReady, accepting, h]

/-- The port is ready in IDLE (R25). -/
theorem cmdReady_of_idle {s : State} (hphase : s.prod.phase = .idle) (hstream : s.prod.stream = .none) :
    cmdReady s = true := by
  rw [cmdReady, (accepting_iff s).2 ⟨hphase, hstream⟩, Bool.true_or]

theorem stOutByte_of_snapshot {s : State} {left : List Byte} (h : s.prod.stream = .snapshot left) :
    stOutByte s = left.head? := by
  simp only [stOutByte, h]

theorem stInReady_of_restore {s : State} {got : List Byte} (h : s.prod.stream = .restore got) : stInReady s = true := by
  simp only [stInReady, h]

/-- Settles O18: three times SNAPSHOT's loop and three times RESTORE's, from acceptance and from where it was left. -/
theorem streamCommandsWait : Obligations.StreamCommandsWait := by
  refine ⟨fun s n rest hs hn hsink => ?snapshotWaits, fun s left n rest hstream hn hsink => ?snapshotWaitsAgain,
    fun s left rest hstream hphase hsink => ?snapshotDone, fun s bytes rest hs hsource hlen => ?restoreWaits,
    fun s got more rest hstream hsource hlen => ?restoreWaitsAgain,
    fun s got more rest hstream hphase hsource hlen hsentinel hvalid => ?restoreDone⟩
  case snapshotWaits =>
    refine ⟨_, exec_snapshot_of_accepting hs, ?_⟩
    rw [sendBytes_stopped _ s n rest (by rwa [bridgeRecord_length]) hsink]
    have hbyte : ((bridgeRecord s.prod.path).drop n).head? = (bridgeRecord s.prod.path)[n]? := List.head?_drop
    refine ⟨rfl, rfl, rfl, rfl, rfl, rfl, cmdReady_of_stream (by simp), ?_, (stOutByte_of_snapshot rfl).trans hbyte⟩
    rw [stOutValid, stOutByte_of_snapshot rfl, hbyte]
    simp [hn]
  case snapshotWaitsAgain =>
    refine ⟨_, prodTurn_of_snapshot hstream, ?_⟩
    rw [sendBytes_stopped left s n rest hn hsink]
    exact ⟨rfl, rfl, rfl, rfl, rfl⟩
  case snapshotDone =>
    refine ⟨_, prodTurn_of_snapshot hstream, ?_⟩
    rw [sendBytes_taken left s rest hsink]
    exact ⟨rfl, by rw [← hphase], cmdReady_of_idle rfl rfl, rfl, rfl, rfl⟩
  case restoreWaits =>
    refine ⟨_, exec_restore_of_accepting hs, ?_⟩
    rw [readBytes_waiting 71 bytes [] s rest hlen hsource]
    exact ⟨rfl, rfl, rfl, rfl, rfl, rfl, cmdReady_of_stream (by simp [State.tookBytes]), stInReady_of_restore rfl⟩
  case restoreWaitsAgain =>
    refine ⟨_, prodTurn_of_restore hstream, ?_⟩
    rw [readBytes_waiting _ more got s rest (by omega) hsource]
    exact ⟨rfl, rfl, rfl, rfl⟩
  case restoreDone =>
    refine ⟨_, prodTurn_of_restore hstream, ?_⟩
    rw [show 71 - got.length = more.length by omega, readBytes_complete more got s rest hsource,
      finishRestore_of_valid (s := s.tookBytes .none more rest) hsentinel hvalid]
    refine ⟨cmdReady_of_idle rfl rfl, rfl, ?_, rfl, rfl⟩
    show { s.prod with path := recordPath (got ++ more), stream := .none, phase := .idle } = _
    rw [← hphase]

/-! ### Commands that PROD does not take -/

/-- Settles O19: a command not taken is the identity, and HALT discards the word undecoded. -/
theorem notAcceptedChangesNothing : Obligations.NotAcceptedChangesNothing :=
  ⟨fun _ _ hi hs => exec_of_not_accepting hi hs, fun _ hphase hstream => ⟨_, prodTurn_of_halt hstream hphase⟩⟩

/-! ## What the commands leave unchanged -/

/-- From `s` to `t` the step in progress is left alone: its tick counts, LAST_C and the frames emitted. -/
structure SameStep (s t : State) : Prop where
  lastC : t.prod.lastC = s.prod.lastC
  curC : t.prod.curC = s.prod.curC
  k : t.prod.k = s.prod.k
  frames : t.out.frames = s.out.frames

theorem SameStep.refl (s : State) : SameStep s s := ⟨rfl, rfl, rfl, rfl⟩

theorem SameStep.trans {s t u : State} (h : SameStep s t) (k : SameStep t u) : SameStep s u :=
  ⟨k.lastC.trans h.lastC, k.curC.trans h.curC, k.k.trans h.k, k.frames.trans h.frames⟩

theorem sameStep_sendBytes (left : List Byte) (s : State) : SameStep s (sendBytes left s) := by
  obtain ⟨_, _, -, ho, -, -, -, -, ⟨-, h⟩ | ⟨-, h⟩⟩ := sendBytes_cases left s <;>
    exact ⟨by rw [h], by rw [h], by rw [h], by rw [ho]⟩

theorem sameStep_finishRestore (s : State) (rec : List Byte) : SameStep s (finishRestore s rec) := by
  obtain ⟨-, h⟩ | ⟨-, -, h⟩ | ⟨-, -, h⟩ := finishRestore_cases s rec <;> rw [h] <;> exact ⟨rfl, rfl, rfl, rfl⟩

theorem sameStep_readBytes (n : Nat) (got : List Byte) (s : State) : SameStep s (readBytes n got s) := by
  obtain ⟨more, u, _, -, -, -, -, hf, -, hr, h⟩ := readBytes_cases n got s
  have hu : SameStep s u := ⟨by rw [hr], by rw [hr], by rw [hr], hf⟩
  obtain ⟨-, e⟩ | ⟨-, e⟩ | ⟨-, e, -⟩ := h <;> rw [e]
  · exact hu.trans ((⟨rfl, rfl, rfl, rfl⟩ : SameStep u (u.setStream .none)).trans (sameStep_finishRestore _ _))
  · exact hu.trans ⟨rfl, rfl, rfl, rfl⟩
  · exact hu

theorem sameStep_configure (rate : BitVec 24) (s : State) : SameStep s (configure rate s) := by
  unfold configure; split <;> exact ⟨rfl, rfl, rfl, rfl⟩

/-- No producer command touches the step in progress or puts out a frame in the step that accepts it. -/
theorem sameStep_exec {i : Instr} {s t : State} (hi : i.mnemonic.port = .producer) (h : exec i s = .next t) :
    SameStep s t := by
  obtain rfl | ⟨-, rfl⟩ := exec_producer_cases hi h
  · exact .refl t
  cases i with
  | config rate => exact sameStep_configure rate s
  | snapshot => exact sameStep_sendBytes _ s
  | restore => exact sameStep_readBytes _ _ s
  | step | stepframe | stepsec _ | reset | setbtn _ _ | disable | attach | detach => exact ⟨rfl, rfl, rfl, rfl⟩
  | frame | flush | setch _ => exact .refl s

/-- Settles O56: a producer command pushes nothing, and leaves the step in progress and the frames alone. -/
theorem frameOfProducerCommands : Obligations.FrameOfProducerCommands := by
  intro i s t hi h
  obtain ⟨hparams, hcons, hmem, hwrPtr, hrdSync⟩ := noPush_exec hi h
  obtain ⟨hlastC, hcurC, hk, hframes⟩ := sameStep_exec hi h
  exact ⟨hparams, hcons, fun n => by rw [hmem], hwrPtr, hrdSync, hlastC, hcurC, hk, hframes⟩

/-- RESET and SETBTN change no register of the producer domain: PROD is back in IDLE, where it was (R125, R126). -/
theorem setPhase_idle_prod {s : State} (hs : accepting s = true) : { s.prod with phase := .idle } = s.prod := by
  rw [← ((accepting_iff s).1 hs).1]

/-- Settles O57, command by command: each effect assigns the registers its rule names. -/
theorem frameOfSteppingCommands : Obligations.FrameOfSteppingCommands := by
  intro i s t hi h
  simp only [List.mem_cons, List.not_mem_nil, or_false] at hi
  have hport : i.mnemonic.port = .producer := by
    obtain (rfl | rfl | rfl) | ⟨us, rfl⟩ | ⟨p, b, rfl⟩ := hi <;> rfl
  obtain rfl | ⟨hs, rfl⟩ := exec_producer_cases hport h
  · simp
  · obtain (rfl | rfl | rfl) | ⟨us, rfl⟩ | ⟨p, b, rfl⟩ := hi
    case inl.inl | inl.inr.inl | inr.inl => simp [effect, Instr.mnemonic]
    case inl.inr.inr | inr.inr => simp [effect, setPhase_idle_prod hs]

/-- Settles O58, command by command; CONFIG by whether it loads the rate or refuses it. -/
theorem frameOfSamplePathCommands : Obligations.FrameOfSamplePathCommands := by
  intro i s t hi h
  have hport : i.mnemonic.port = .producer := by
    revert hi
    cases i.mnemonic <;> decide
  obtain rfl | ⟨-, rfl⟩ := exec_producer_cases hport h
  · simp
  · cases i with
    | config rate =>
      simp only [effect, configure]
      split <;> simp [Instr.mnemonic]
    | disable | attach | detach => simp [effect, Instr.mnemonic]
    | step | stepframe | stepsec _ | reset | setbtn _ _ | snapshot | restore | frame | flush | setch _ =>
      simp [Instr.mnemonic] at hi

/-- SNAPSHOT taken in IDLE leaves PROD there, done or not (R141, R252). -/
theorem sendBytes_prod {s : State} (hs : s.prod.phase = .idle) (left : List Byte) :
    (sendBytes left s).prod = { s.prod with stream := (sendBytes left s).prod.stream } := by
  obtain ⟨_, _, -, -, -, -, -, -, ⟨-, h⟩ | ⟨-, h⟩⟩ := sendBytes_cases left s
  · rw [h, ← hs]
  · rw [h]

theorem finishRestore_frame (s : State) (rec : List Byte) :
    (finishRestore s rec).prod =
      { s.prod with
        path := (finishRestore s rec).prod.path
        error := (finishRestore s rec).prod.error
        phase := (finishRestore s rec).prod.phase } ∧
    (finishRestore s rec).out = s.out := by
  obtain ⟨-, h⟩ | ⟨-, -, h⟩ | ⟨-, -, h⟩ := finishRestore_cases s rec <;> rw [h] <;> exact ⟨rfl, rfl⟩

/-- RESTORE's loop changes the record's registers, ERROR, the phase and the command in flight, and sends no byte. -/
theorem readBytes_frame (n : Nat) (got : List Byte) (s : State) :
    (readBytes n got s).prod =
      { s.prod with
        path := (readBytes n got s).prod.path
        error := (readBytes n got s).prod.error
        phase := (readBytes n got s).prod.phase
        stream := (readBytes n got s).prod.stream } ∧
    (readBytes n got s).out.sink = s.out.sink := by
  obtain ⟨more, u, f, -, -, -, hsink, -, -, hu, ⟨-, e⟩ | ⟨-, e⟩ | ⟨-, e, -⟩⟩ := readBytes_cases n got s
  · obtain ⟨hprod, hout⟩ := finishRestore_frame (u.setStream .none) (got ++ more)
    rw [e, hout]
    refine ⟨?_, hsink⟩
    rw [hprod]
    simp [hu]
  · rw [e]
    exact ⟨by simp [hu], hsink⟩
  · rw [e]
    exact ⟨by rw [hu], hsink⟩

/-- Settles O59, by the frames of the two loops. -/
theorem frameOfStreamCommands : Obligations.FrameOfStreamCommands := by
  refine ⟨fun s t h => ?snapshot, fun s t h => ?restore⟩
  case snapshot =>
    obtain rfl | ⟨hs, rfl⟩ := exec_producer_cases rfl h
    · exact ⟨rfl, rfl⟩
    · obtain ⟨_, _, -, hout, -⟩ := sendBytes_cases (bridgeRecord s.prod.path) s
      exact ⟨sendBytes_prod ((accepting_iff s).1 hs).1 _, by rw [effect, hout]⟩
  case restore =>
    obtain rfl | ⟨-, rfl⟩ := exec_producer_cases rfl h
    · exact ⟨rfl, rfl⟩
    · exact readBytes_frame 71 [] s

/-- Settles O60: what no command of the consumer port touches, and then each command's own registers. -/
theorem frameOfConsumerCommands : Obligations.FrameOfConsumerCommands := by
  intro i s t hi h
  obtain ⟨hprod, hcalls⟩ := exec_consumer_frame hi h
  obtain ⟨hmem, hsink, -⟩ := exec_consumer_keeps hi h
  obtain ⟨hparams, -, hwrSync, -⟩ := sameCrossing_exec h
  refine ⟨hparams, hprod, fun n => by rw [hmem], hcalls, hsink, hwrSync, fun hm => ?flush, fun hm => ?setch,
    fun hm => ?frame⟩
  case flush =>
    cases i <;> cases hm
    cases h
    exact ⟨rfl, rfl⟩
  case setch =>
    cases i with
    | setch n =>
      simp only [exec, execSetch] at h
      split at h <;> cases h <;> exact ⟨rfl, rfl⟩
    | _ => cases hm
  case frame =>
    cases i <;> cases hm
    by_cases hch : s.cons.channels = 0#8
    · cases (exec_frame_of_unconfigured hch).symm.trans h
      rfl
    · cases (exec_frame_of_configured hch).symm.trans h
      exact playFrame_channels s

/-! ## A step and the command it runs (spec/00_scope.md R7, spec/40_stepper.md R110, spec/43_consumer.md R193) -/

theorem step_of_valid {s : State} (h : paramsValid s.params = true) : step s = agentTurn (takeAgent s).1 (takeAgent s).2 :=
  if_pos h

theorem runProducerWord_of_decode {w : Word} {i : Instr} (h : decode .producer w = some i) (s : State) :
    runProducerWord w s = exec i s := by
  simp only [runProducerWord, h]

theorem runConsumerWord_of_decode {w : Word} {i : Instr} (h : decode .consumer w = some i) (s : State) :
    runConsumerWord w s = exec i s := by
  simp only [runConsumerWord, h]

/-- A step in which PROD, waiting in IDLE, is offered a command's word runs the command. -/
theorem step_of_producer_offer {s : State} {w : Word} {i : Instr} (hparams : paramsValid s.params = true)
    (hagent : (takeAgent s).1 = .prod) (hs : accepting s = true) (hw : (takeCmd (takeAgent s).2).1 = some w)
    (hi : decode .producer w = some i) : step s = exec i (takeCmd (takeAgent s).2).2 := by
  obtain ⟨hphase, hstream⟩ := (accepting_iff s).1 hs
  calc step s = prodTurn (takeAgent s).2 := by rw [step_of_valid hparams, hagent]; rfl
    _ = runProducerWord w (takeCmd (takeAgent s).2).2 := prodTurn_of_offered hstream hphase hw
    _ = exec i (takeCmd (takeAgent s).2).2 := runProducerWord_of_decode hi _

/-- A step in which CONS is offered a command's word runs the command. -/
theorem step_of_consumer_offer {s : State} {w : Word} {i : Instr} (hparams : paramsValid s.params = true)
    (hagent : (takeAgent s).1 = .cons) (hw : (takeCcmd (takeAgent s).2).1 = some w)
    (hi : decode .consumer w = some i) : step s = exec i (takeCcmd (takeAgent s).2).2 := by
  calc step s = consTurn (takeAgent s).2 := by rw [step_of_valid hparams, hagent]; rfl
    _ = runConsumerWord w (takeCcmd (takeAgent s).2).2 := consTurn_of_offered hw
    _ = exec i (takeCcmd (takeAgent s).2).2 := runConsumerWord_of_decode hi _

/-- Settles O53: the step is the scheduled agent's turn, and the turn runs the word it is offered. -/
theorem stepRunsDecoded : Obligations.StepRunsDecoded :=
  ⟨fun _ => step_of_valid, fun _ _ _ => step_of_producer_offer, fun _ _ _ => step_of_consumer_offer,
    fun _ h => if_neg (Bool.eq_false_iff.1 h)⟩

/-- A command's word, written as a number of 32 bits and read again, is the word. -/
theorem withFetchWord_encode (s : State) (i : Instr) :
    s.withFetchWord 32 (encode i).toNat = offerWord s (encode i) := by
  rw [State.withFetchWord, Nat.mod_eq_of_lt (encode i).isLt, BitVec.ofNat_toNat, BitVec.setWidth_eq]

theorem offerWord_of_consumer {i : Instr} (hi : i.mnemonic.port = .consumer) (s : State) :
    offerWord s (encode i) = offerToConsumer s (encode i) := by
  have h := decodeOfEncode i
  rw [hi] at h
  simp only [offerWord, h]

theorem offerWord_of_producer {i : Instr} (hi : i.mnemonic.port = .producer) (s : State) :
    offerWord s (encode i) = offerToProducer s (encode i) := by
  have h := (portsDecodeOwnTable i .consumer (by rw [hi]; decide)).1 (encode i) rfl
  simp only [offerWord, h]

/-- Settles O54: the word goes to its own port, whose agent steps next and takes it, which leaves the state as it was
before the word was placed. -/
theorem placedWordRuns : Obligations.PlacedWordRuns := by
  intro s i hparams
  have hdecode := decodeOfEncode i
  constructor <;> intro hi <;> rw [hi] at hdecode
  · rw [withFetchWord_encode, offerWord_of_consumer hi,
      step_of_consumer_offer (s := offerToConsumer s (encode i)) hparams rfl rfl hdecode]
    rfl
  · rw [withFetchWord_encode, offerWord_of_producer hi,
      step_of_producer_offer (s := offerToProducer s (encode i)) hparams rfl rfl rfl hdecode]
    rfl

end Sys2Proof.Machine

namespace Sys2Proof.Machine

/-! ## The FIFO as a queue (spec/20_memory.md R80, R83)

A push adds its sample at the end of the queue, reading on over `k` samples takes the `k` oldest off its front, and
nothing else that a turn does touches the queue. -/

theorem queueFrom_succ_last (m : Memory) (cap rd n : Nat) :
    queueFrom m cap rd (n + 1) = queueFrom m cap rd n ++ [memRead m ((rd + n) % cap)] := by
  induction n generalizing rd with
  | zero => rfl
  | succ n ih => rw [queueFrom_succ, ih, queueFrom_succ, entry_ptrNext, List.cons_append]

/-- A stretch of the FIFO depends on its own entries only. -/
theorem queueFrom_congr {m m' : Memory} {cap rd n : Nat}
    (h : ∀ j < n, memRead m' ((rd + j) % cap) = memRead m ((rd + j) % cap)) :
    queueFrom m' cap rd n = queueFrom m cap rd n := by
  induction n with
  | zero => rfl
  | succ n ih =>
    rw [queueFrom_succ_last, queueFrom_succ_last, ih fun j hj => h j (by omega), h n (by omega)]

/-- The younger samples of a stretch of the FIFO are the stretch from a later read pointer. -/
theorem queueFrom_drop (m : Memory) (cap : Nat) {rd n k : Nat} (hk : k ≤ n) (hrd : rd < 2 * cap) :
    (queueFrom m cap rd n).drop k = queueFrom m cap ((rd + k) % (2 * cap)) (n - k) := by
  induction k generalizing rd n with
  | zero => simp [Nat.mod_eq_of_lt hrd]
  | succ k ih =>
    obtain ⟨n, rfl⟩ : ∃ m, n = m + 1 := ⟨n - 1, by omega⟩
    rw [queueFrom_succ, List.drop_succ_cons, ih (by omega) (ptrNext_lt (by omega)), ptrNext, Nat.mod_add_mod,
      Nat.add_right_comm, Nat.add_assoc, Nat.add_sub_add_right]

/-- What leaves the memory, both pointers and `CAP` alone leaves the queue alone. -/
theorem queue_of_same {s t : State} (hparams : t.params = s.params) (hmem : t.mem = s.mem)
    (hwrPtr : t.prod.wrPtr = s.prod.wrPtr) (hrdPtr : t.cons.rdPtr = s.cons.rdPtr) : t.queue = s.queue := by
  rw [State.queue, State.count, hparams, hmem, hwrPtr, hrdPtr]
  rfl

theorem NoPush.queue {s t : State} (h : NoPush s t) : t.queue = s.queue :=
  queue_of_same h.params h.mem h.wrPtr (by rw [h.cons])

/-- One entry further from the read pointer, where there is room (R78). -/
theorem ptrDist_ptrNext {cap a b : Nat} (ha : a < 2 * cap) (hb : b < 2 * cap) (h : ptrDist cap a b < cap) :
    ptrDist cap (ptrNext cap a) b = ptrDist cap a b + 1 := by
  rw [ptrDist_of_lt (ptrNext_lt (by omega)) hb, ptrNext_of_lt ha]
  rw [ptrDist_of_lt ha hb] at h ⊢
  split_ifs at h ⊢ <;> omega

/-- The entry behind the queue is the one that the next push writes. -/
theorem entry_behind_queue {cap a b : Nat} (ha : a < 2 * cap) (hb : b < 2 * cap) :
    (b + ptrDist cap a b) % cap = a % cap := by
  conv_rhs => rw [← add_ptrDist_mod ha hb]
  exact (Nat.mod_mod_of_dvd _ ⟨2, Nat.mul_comm 2 cap⟩).symm

/-- The entries that hold the queue are not the one the next push writes, as long as there is room. -/
theorem entry_ne_of_lt {cap a b j : Nat} (ha : a < 2 * cap) (hb : b < 2 * cap) (h : ptrDist cap a b < cap)
    (hj : j < ptrDist cap a b) : (b + j) % cap ≠ a % cap := by
  rw [← entry_behind_queue ha hb]
  intro heq
  obtain ⟨d, hd⟩ := (Nat.modEq_iff_dvd' (by omega)).1 heq
  have hd0 : d ≠ 0 := by rintro rfl; omega
  have := Nat.le_mul_of_pos_right cap (Nat.pos_of_ne_zero hd0)
  omega

/-- A push adds the sample at the end of the queue, or drops it (R80, R169). -/
theorem push_queue {s : State} (hs : FifoOk s) (y : F32) :
    (push s y).queue = s.queue ∨ (push s y).queue = s.queue ++ [y] := by
  by_cases hfull : s.countP = s.params.cap
  · rw [push_full y hfull]; exact .inl rfl
  obtain ⟨hwr, -, hrd, -, -, hle, hcap⟩ := hs
  have hroom : s.count < s.params.cap := by omega
  have hcount : (push s y).count = s.count + 1 := by
    rw [push_room y hfull]
    exact ptrDist_ptrNext hwr hrd hroom
  right
  rw [State.queue, hcount, push_room y hfull]
  show queueFrom (s.mem.write (s.prod.wrPtr % s.params.cap) y) s.params.cap s.cons.rdPtr (s.count + 1) = s.queue ++ [y]
  rw [queueFrom_succ_last, State.count, entry_behind_queue hwr hrd, memRead_write_same]
  congr 1
  exact queueFrom_congr fun j hj => memRead_write_other s.mem y (entry_ne_of_lt hwr hrd hroom hj)

theorem AtMostOnePush.queue {s t : State} (h : AtMostOnePush s t) (hs : FifoOk s) :
    t.queue = s.queue ∨ ∃ y, t.queue = s.queue ++ [y] := by
  obtain h | ⟨u, y, hu, ht⟩ := h
  · exact .inl h.queue
  · rw [ht.queue, ← hu.queue]
    exact (push_queue (hu.fifoOk hs) y).imp_right fun h => ⟨y, h⟩

/-- Reading on over `k` samples takes the `k` oldest off the queue. -/
theorem ReadsOn.queue {k : Nat} {s t : State} (h : ReadsOn k s t) (hs : FifoOk s) (hk : k ≤ s.count) :
    t.queue = s.queue.drop k := by
  have hcount := h.count_eq hs hk
  obtain ⟨-, -, hrd, -⟩ := hs
  rw [State.queue, hcount, h.params, h.mem, h.rdPtr]
  exact (queueFrom_drop s.mem s.params.cap hk hrd).symm

/-- The consumer sees no more than there is (R79). -/
theorem FifoOk.countC_le_count {s : State} (h : FifoOk s) : s.countC ≤ s.count := by
  obtain ⟨-, -, -, -, hle, -⟩ := h
  exact hle

/-- Settles O38, agent by agent: PROD pushes at most once, CONS reads on over samples it sees, and a synchroniser writes
only its copy of a pointer. -/
theorem fifoRefinesQueue : Obligations.FifoRefinesQueue := by
  rintro a s t ⟨-, -, -, -, hs, -⟩ h
  refine ⟨?prod, ?cons, ?sync⟩
  case prod =>
    rintro rfl
    exact (atMostOnePush_prodTurn h).queue hs
  case cons =>
    rintro rfl
    obtain ⟨k, hk, hreads⟩ := readsSeen_consTurn hs h
    exact ⟨k, hk, hreads.queue hs (hk.trans hs.countC_le_count)⟩
  case sync =>
    rintro (rfl | rfl) <;> cases h <;> exact queue_of_same rfl rfl rfl rfl

/-- Settles O39: FRAME reads on over one sample, the head of the queue. -/
theorem popTakesOldest : Obligations.PopTakesOldest := by
  rintro s ⟨-, -, -, -, hs, -⟩ hch hne
  have hcount : 0 < s.count := (countC_pos_of_nonempty hs hne).trans_le hs.countC_le_count
  have hqueue := (readsOn_playFrame hne).queue hs hcount
  refine ⟨playFrame s, memRead s.mem (s.cons.rdPtr % s.params.cap), exec_frame_of_configured hch, ?queue, ?sample, ?frame⟩
  case queue =>
    obtain ⟨n, hn⟩ := Nat.exists_eq_succ_of_ne_zero hcount.ne'
    rw [hqueue, State.queue, hn, queueFrom_succ, List.drop_succ_cons, List.drop_zero]
  case sample | frame => rw [playFrame_of_nonempty hne]; rfl

end Sys2Proof.Machine

namespace Sys2Proof.Machine

/-! ## Saving and restoring (spec/41_state_codec.md R147) -/

/-- SNAPSHOT with nothing left to send has sent the whole record. -/
theorem sink_of_snapshot_done {a t : State} (ha : accepting a = true) (h : exec .snapshot a = .next t)
    (hdone : t.prod.stream = .none) : t.out.sink = a.out.sink ++ bridgeRecord a.prod.path := by
  rw [exec_snapshot_of_accepting ha] at h
  cases h
  obtain ⟨moved, rest, hmoved, hout, -, -, -, -, ⟨rfl, -⟩ | ⟨-, hprod⟩⟩ := sendBytes_cases (bridgeRecord a.prod.path) a
  · rw [hout, hmoved, List.append_nil]
  · simp [hprod] at hdone

/-- The record of a divider in range is `Valid` (R140, R144). -/
theorem recordValid_bridgeRecord {fcpu : Nat} {x : SamplePath} (hacc : x.acc.toNat < fcpu)
    (hrate : x.cfgValid = true → rateLegal fcpu x.rate = true) : recordValid fcpu (bridgeRecord x) = true := by
  obtain ⟨-, hversion, hcfg, -⟩ := recordLayout x
  have hrate' : leValue (bridgeRecord x) 2 = x.rate.toNat := by
    rw [← fieldAt_toNat, bridgeRecord_field x 0 2 _ rfl rfl, BitVec.toNat_setWidth_of_le (by decide)]
  have hacc' : leValue (bridgeRecord x) 6 = x.acc.toNat := by
    rw [← fieldAt_toNat, bridgeRecord_field x 1 6 _ rfl rfl]
  rw [recordValid_iff, hrate', hacc', hcfg]
  refine ⟨hversion, ?_, x.rate.isLt, hacc, fun hone => ?_⟩
  · cases x.cfgValid <;> simp
  · refine (rateLegal_iff _ _).1 (hrate ?_)
    cases hv : x.cfgValid <;> simp [hv] at hone ⊢

/-- Settles O48: the bytes are the record of A's registers, which is `Valid` in B, and reading it back gives them. -/
theorem saveRestoreRoundTrip : Obligations.SaveRestoreRoundTrip := by
  intro a ta b bytes rest hinv ha hsnapshot hdone hsink hb hfcpu hsource
  obtain rfl : bytes = bridgeRecord a.prod.path :=
    List.append_cancel_left (hsink.symm.trans (sink_of_snapshot_done ha hsnapshot hdone))
  obtain ⟨-, -, hpath, -⟩ := hinv
  obtain ⟨hacc, hrate⟩ := hpath (by rw [((accepting_iff a).1 ha).1]; decide)
  have hvalid := recordValid_bridgeRecord hacc hrate
  rw [← hfcpu] at hvalid
  obtain ⟨-, -, -, hsentinel, -⟩ := recordLayout a.prod.path
  refine ⟨_, exec_restore_of_source hb hsource (bridgeRecord_length _), ?_⟩
  rw [finishRestore_of_valid (s := b.tookBytes .none (bridgeRecord a.prod.path) rest) hsentinel hvalid,
    recordPath_bridgeRecord]
  refine ⟨?_, rfl, rfl, rfl⟩
  obtain ⟨hphase, hstream⟩ := (accepting_iff b).1 hb
  show { b.prod with path := a.prod.path, stream := .none, phase := .idle } = { b.prod with path := a.prod.path }
  rw [← hphase, ← hstream]

end Sys2Proof.Machine

namespace Sys2Proof.Machine

/-! ## The divider (spec/42_sample_path.md R167) -/

/-- How often the divider has fired: one reading of the audio unit's output per firing (R165). -/
def State.firings (s : State) : Nat := (s.out.calls.filter isSampleRead).length

/-- A sum below twice the divisor, divided: the quotient is 0 or 1. -/
theorem div_mod_of_lt_two_mul {a f : Nat} (h : a < 2 * f) :
    (a % f = if f ≤ a then a - f else a) ∧ (a / f = if f ≤ a then 1 else 0) := by
  split
  next hle =>
    rw [Nat.mod_eq_sub_mod hle, Nat.mod_eq_of_lt (by omega)]
    exact ⟨rfl, Nat.div_eq_of_lt_le (by omega) (by omega)⟩
  next hlt => exact ⟨Nat.mod_eq_of_lt (by omega), Nat.div_eq_of_lt (by omega)⟩

/-- From `s` to `t` the divider took `n` ticks: the sum of `ACC` and `n` rates is split into the firings and the new
ACC, and its configuration stays. -/
structure DividerTicks (n : Nat) (s t : State) : Prop where
  params : t.params = s.params
  cfgValid : t.prod.path.cfgValid = s.prod.path.cfgValid
  rate : t.prod.path.rate = s.prod.path.rate
  acc : t.prod.path.acc.toNat = (s.prod.path.acc.toNat + n * s.prod.path.rate.toNat) % s.params.fcpu
  firings : t.firings = s.firings + (s.prod.path.acc.toNat + n * s.prod.path.rate.toNat) / s.params.fcpu

/-- One audio tick of a configured divider in range (R165). -/
theorem dividerTicks_samplePath {s t : State} (hc : s.params.fcpu < 2 ^ 31)
    (hacc : s.prod.path.acc.toNat < s.params.fcpu) (hv : s.prod.path.cfgValid = true)
    (hrate : s.prod.path.rate.toNat ≤ s.params.fcpu) (h : samplePath s = .next t) : DividerTicks 1 s t := by
  obtain ⟨hmod, hdiv⟩ := div_mod_of_lt_two_mul
    (show s.prod.path.acc.toNat + 1 * s.prod.path.rate.toNat < 2 * s.params.fcpu by omega)
  obtain ⟨hu, -⟩ | ⟨-, hlt, rfl⟩ | ⟨-, hle, -, rfl⟩ := samplePath_cases h
  · simp [hv] at hu
  · rw [if_neg (by omega)] at hmod hdiv
    refine ⟨rfl, rfl, rfl, ?_, ?_⟩
    · rw [hmod, Nat.one_mul]
      exact (BitVec.toNat_ofNat ..).trans (Nat.mod_eq_of_lt (by omega))
    · rw [hdiv]
      rfl
  · rw [if_pos (by omega)] at hmod hdiv
    obtain ⟨f, w, hprod⟩ :=
      emitSample_prod (setAcc s (s.prod.path.acc.toNat + s.prod.path.rate.toNat - s.params.fcpu))
    refine ⟨by simp, by rw [hprod]; rfl, by rw [hprod]; rfl, ?_, ?_⟩
    · rw [hmod, hprod, Nat.one_mul]
      exact (BitVec.toNat_ofNat ..).trans (Nat.mod_eq_of_lt (by omega))
    · rw [hdiv]
      simp only [State.firings, emitSample_out, List.filter_append, List.length_append]
      rfl

/-- Ticks after ticks: the remainder of the first ones is carried into the next. -/
theorem DividerTicks.trans {m n : Nat} {s t u : State} (h : DividerTicks m s t) (k : DividerTicks n t u)
    (hc : 0 < s.params.fcpu) : DividerTicks (m + n) s u := by
  refine ⟨k.params.trans h.params, k.cfgValid.trans h.cfgValid, k.rate.trans h.rate, ?acc, ?firings⟩
  case acc =>
    rw [k.acc, h.acc, h.rate, h.params, Nat.mod_add_mod]
    ring_nf
  case firings =>
    have hsplit := Nat.div_add_mod (s.prod.path.acc.toNat + m * s.prod.path.rate.toNat) s.params.fcpu
    have hsum : s.prod.path.acc.toNat + (m + n) * s.prod.path.rate.toNat =
        (s.prod.path.acc.toNat + m * s.prod.path.rate.toNat) % s.params.fcpu + n * s.prod.path.rate.toNat +
          s.params.fcpu * ((s.prod.path.acc.toNat + m * s.prod.path.rate.toNat) / s.params.fcpu) := by
      rw [Nat.add_mul]
      omega
    rw [k.firings, h.firings, h.acc, h.rate, h.params, hsum, Nat.add_mul_div_left _ _ hc]
    omega

/-- `n` audio ticks, by induction on `n`. -/
theorem dividerTicks_audioTicks {n : Nat} {s t : State} (hc : s.params.fcpu < 2 ^ 31)
    (hacc : s.prod.path.acc.toNat < s.params.fcpu) (hv : s.prod.path.cfgValid = true)
    (hrate : s.prod.path.rate.toNat ≤ s.params.fcpu) (h : audioTicks n s = .next t) : DividerTicks n s t := by
  induction n generalizing s with
  | zero =>
    cases h
    exact ⟨rfl, rfl, rfl, by rw [Nat.zero_mul, Nat.add_zero, Nat.mod_eq_of_lt hacc],
      by rw [Nat.zero_mul, Nat.add_zero, Nat.div_eq_of_lt hacc, Nat.add_zero]⟩
  | succ n ih =>
    obtain ⟨u, hu, hrest⟩ := andThen_eq_next h
    have hfirst := dividerTicks_samplePath hc hacc hv hrate hu
    have haccu : u.prod.path.acc.toNat < s.params.fcpu := hfirst.acc ▸ Nat.mod_lt _ (by omega)
    rw [Nat.add_comm]
    refine hfirst.trans (ih ?_ ?_ ?_ ?_ hrest) (by omega)
    · rwa [hfirst.params]
    · rwa [hfirst.params]
    · rwa [hfirst.cfgValid]
    · rwa [hfirst.rate, hfirst.params]

/-- Settles O31, by induction on the ticks; `F_CPU` of them add whole multiples of `F_CPU`. -/
theorem dividerLaw : Obligations.DividerLaw := by
  intro s t n hc hacc hv hlegal h
  have hticks := dividerTicks_audioTicks hc hacc hv ((rateLegal_iff _ _).1 hlegal).2 h
  refine ⟨hticks.acc, hticks.firings, ?_⟩
  rintro rfl
  refine ⟨BitVec.eq_of_toNat_eq ?_, hticks.firings.trans ?_⟩
  · rw [hticks.acc, Nat.add_mul_mod_self_left, Nat.mod_eq_of_lt hacc]
  · rw [Nat.add_mul_div_left _ _ (by omega), Nat.div_eq_of_lt hacc, Nat.zero_add]
    rfl

end Sys2Proof.Machine

namespace Sys2Proof.Machine

/-! ## The two domains (spec/20_memory.md R82, R85)

What a turn leaves alone of the other domain; and that replacing the other domain before a turn or after it is the
same, which is shown of every operation a turn is made of. -/

/-! ### What a turn leaves alone -/

/-- A push writes no entry but `WR_PTR mod CAP` (R169). -/
theorem AtMostOnePush.cell_eq {s t : State} (h : AtMostOnePush s t) {i : Nat}
    (hi : i ≠ s.prod.wrPtr % s.params.cap) : t.mem.cell i = s.mem.cell i := by
  obtain h | ⟨u, y, hu, ht⟩ := h
  · rw [h.mem]
  · rw [← hu.wrPtr, ← hu.params] at hi
    rw [ht.mem, ← hu.mem]
    by_cases hfull : u.countP = u.params.cap
    · rw [push_full y hfull]
    · rw [push_room y hfull]
      exact Memory.cell_write_other u.mem y hi

/-- A phase of a step puts out no frame (R29). -/
theorem phases_frames {s t : State}
    (h : cpuPhase s = .next t ∨ vidPhase s = .next t ∨ audPhase s = .next t ∨ endPhase s = .next t) :
    t.out.frames = s.out.frames := by
  obtain h | h | h | h := h
  · simp only [cpuPhase] at h
    split_ifs at h <;> cases h <;> rfl
  · simp only [vidPhase] at h
    split_ifs at h <;> cases h <;> rfl
  · simp only [audPhase] at h
    split_ifs at h
    · cases h; rfl
    · obtain ⟨u, hu, hn⟩ := andThen_eq_next h
      cases hn
      obtain ⟨-, rfl⟩ | ⟨-, -, rfl⟩ | ⟨-, -, -, rfl⟩ := samplePath_cases hu <;> simp
  · simp only [endPhase, secondsEnd] at h
    split at h
    · cases h; rfl
    · cases h; rfl
    · split_ifs at h <;> cases h <;> rfl

/-- A turn of PROD puts out no frame (R29). -/
theorem prodTurn_frames {s t : State} (h : prodTurn s = .next t) : t.out.frames = s.out.frames := by
  simp only [prodTurn] at h
  split at h
  · cases h; exact (sameStep_sendBytes _ _).frames
  · cases h; exact (sameStep_readBytes _ _ _).frames
  · split at h
    · simp only [idleTurn, runProducerWord] at h
      split at h
      · cases h; rfl
      · split at h
        next => cases h; rfl
        next hd => exact (sameStep_exec (s := (takeCmd s).2) (port_of_decode hd) h).frames
    · exact phases_frames (.inl h)
    · exact phases_frames (.inr (.inl h))
    · exact phases_frames (.inr (.inr (.inl h)))
    · exact phases_frames (.inr (.inr (.inr h)))
    · cases h; rfl

/-- Settles O43: PROD pushes at most one sample and puts out no frame; CONS writes its own registers and puts out a
frame at most. -/
theorem domainsIsolated : Obligations.DomainsIsolated := by
  refine ⟨fun s t h => ⟨(sameCrossing_prodTurn h).params, fun i hi => (atMostOnePush_prodTurn h).cell_eq hi,
    prodTurn_cons h, prodTurn_frames h⟩, fun s t h => ?cons⟩
  case cons =>
    obtain ⟨hprod, hcalls⟩ := consTurn_frame h
    obtain ⟨hmem, hsink, -⟩ := consTurn_keeps h
    exact ⟨(sameCrossing_consTurn h).params, hmem, hprod, hcalls, hsink⟩

/-! ### Replacing the other domain -/

/-- A change of the state after an outcome, where there is a state. -/
def mapNext (g : State → State) : Host.Outcome State Fault Refusal → Host.Outcome State Fault Refusal
  | .next s => .next (g s)
  | .fault r => .fault r
  | .refused r => .refused r

/-- A change made before an outcome and the same change made after it. -/
theorem mapNext_ite (g : State → State) (p : Prop) [Decidable p] (a b : Host.Outcome State Fault Refusal) :
    mapNext g (if p then a else b) = if p then mapNext g a else mapNext g b := by
  split <;> rfl

theorem setCons_ite (p : Prop) [Decidable p] (a b : State) (c : Consumer) :
    (if p then a else b).setCons c = if p then a.setCons c else b.setCons c := by
  split <;> rfl

/-! CONS does not see the producer domain. -/

theorem playFrame_setProd (s : State) (p : Producer) : playFrame (s.setProd p) = (playFrame s).setProd p := by
  by_cases h : s.cons.rdPtr = s.cons.wrSync
  · rw [playFrame_of_empty h, playFrame_of_empty (s := s.setProd p) h]; rfl
  · rw [playFrame_of_nonempty h, playFrame_of_nonempty (s := s.setProd p) h]; rfl

theorem exec_consumer_setProd {i : Instr} (hi : i.mnemonic.port = .consumer) (s : State) (p : Producer) :
    exec i (s.setProd p) = mapNext (·.setProd p) (exec i s) := by
  cases i with
  | frame =>
    by_cases h : s.cons.channels = 0#8
    · rw [exec_frame_of_unconfigured h, exec_frame_of_unconfigured (s := s.setProd p) h]; rfl
    · rw [exec_frame_of_configured h, exec_frame_of_configured (s := s.setProd p) h, playFrame_setProd]; rfl
  | flush => rfl
  | setch n =>
    by_cases h : n = 0#8
    · rw [h, exec_setch_zero, exec_setch_zero]; rfl
    · rw [exec_setch_of_legal _ h, exec_setch_of_legal _ h]; rfl
  | step | stepframe | stepsec _ | reset | setbtn _ _ | config _ | disable | attach | detach | snapshot | restore =>
    cases hi

theorem runConsumerWord_setProd (w : Word) (s : State) (p : Producer) :
    runConsumerWord w (s.setProd p) = mapNext (·.setProd p) (runConsumerWord w s) := by
  cases hd : decode .consumer w with
  | none => rw [runConsumerWord_of_illegal hd, runConsumerWord_of_illegal hd]; rfl
  | some i =>
    rw [runConsumerWord_of_decode hd, runConsumerWord_of_decode hd]
    exact exec_consumer_setProd (port_of_decode hd) s p

theorem consTurn_of_nothing {s : State} (h : (takeCcmd s).1 = none) : consTurn s = .next (takeCcmd s).2 := by
  simp only [consTurn, h]

theorem consTurn_setProd (s : State) (p : Producer) :
    consTurn (s.setProd p) = mapNext (·.setProd p) (consTurn s) := by
  cases hw : (takeCcmd s).1 with
  | none => rw [consTurn_of_nothing hw, consTurn_of_nothing (s := s.setProd p) hw]; rfl
  | some w =>
    rw [consTurn_of_offered hw, consTurn_of_offered (s := s.setProd p) hw]
    exact runConsumerWord_setProd w (takeCcmd s).2 p

/-! PROD does not see the consumer domain. -/

section Consumer

variable (s : State) (c : Consumer)

theorem sendBytes_setCons (left : List Byte) : sendBytes left (s.setCons c) = (sendBytes left s).setCons c := by
  induction left generalizing s with
  | nil => rfl
  | cons b left ih =>
    simp only [sendBytes, setCons_ite]
    exact ite_congr rfl (fun _ => ih (sinkPut (sinkReady (s.setStream (.snapshot (b :: left)))).2 b)) fun _ => rfl

theorem finishRestore_setCons (rec : List Byte) : finishRestore (s.setCons c) rec = (finishRestore s rec).setCons c := by
  simp only [finishRestore, setCons_ite]
  rfl

theorem sourceGet_setCons : sourceGet (s.setCons c) = ((sourceGet s).1, (sourceGet s).2.setCons c) := by
  simp only [sourceGet, State.setCons_world]
  split <;> rfl

theorem readBytes_setCons (n : Nat) (got : List Byte) :
    readBytes n got (s.setCons c) = (readBytes n got s).setCons c := by
  induction n generalizing got s with
  | zero => exact finishRestore_setCons (s.setStream .none) c got
  | succ n ih =>
    have hget := sourceGet_setCons (s.setStream (.restore got)) c
    simp only [readBytes]
    rw [show (s.setCons c).setStream (.restore got) = (s.setStream (.restore got)).setCons c from rfl, hget]
    cases (sourceGet (s.setStream (.restore got))).1 with
    | byte b => exact ih (sourceGet (s.setStream (.restore got))).2 (got ++ [b])
    | eos | silent => rfl

theorem configure_setCons (rate : BitVec 24) : configure rate (s.setCons c) = (configure rate s).setCons c := by
  simp only [configure, setCons_ite]
  rfl

theorem effect_setCons (i : Instr) : effect i (s.setCons c) = (effect i s).setCons c := by
  cases i with
  | config rate => exact configure_setCons s c rate
  | snapshot => exact sendBytes_setCons s c (bridgeRecord s.prod.path)
  | restore => exact readBytes_setCons s c 71 []
  | step | stepframe | stepsec _ | reset | setbtn _ _ | disable | attach | detach | frame | flush | setch _ => rfl

theorem exec_producer_setCons {i : Instr} (hi : i.mnemonic.port = .producer) :
    exec i (s.setCons c) = mapNext (·.setCons c) (exec i s) := by
  rw [exec_eq_onAccept hi, exec_eq_onAccept hi, onAccept, onAccept, mapNext_ite, effect_setCons]
  rfl

theorem runProducerWord_setCons (w : Word) :
    runProducerWord w (s.setCons c) = mapNext (·.setCons c) (runProducerWord w s) := by
  cases hd : decode .producer w with
  | none => rw [runProducerWord_of_illegal hd, runProducerWord_of_illegal hd]; rfl
  | some i =>
    rw [runProducerWord_of_decode hd, runProducerWord_of_decode hd]
    exact exec_producer_setCons s c (port_of_decode hd)

theorem idleTurn_setCons : idleTurn (s.setCons c) = mapNext (·.setCons c) (idleTurn s) := by
  have htake : takeCmd (s.setCons c) = ((takeCmd s).1, (takeCmd s).2.setCons c) := rfl
  simp only [idleTurn, htake]
  cases (takeCmd s).1 with
  | none => rfl
  | some w => exact runProducerWord_setCons (takeCmd s).2 c w

theorem cpuPhase_setCons : cpuPhase (s.setCons c) = mapNext (·.setCons c) (cpuPhase s) := by
  simp only [cpuPhase, mapNext_ite]
  rfl

theorem vidPhase_setCons : vidPhase (s.setCons c) = mapNext (·.setCons c) (vidPhase s) := by
  simp only [vidPhase, mapNext_ite]
  rfl

theorem stageArith_setCons (co : Coef) (st : StageState) (x : F32) :
    stageArith (s.setCons c) co st x = ((stageArith s co st x).1, (stageArith s co st x).2.setCons c) := by
  by_cases h : drawsNaN s.params.arith (stageValue s.params.arith co st x) = true
  · exact (if_pos h).trans (by rw [stageArith, if_pos h]; rfl)
  · exact (if_neg h).trans (by rw [stageArith, if_neg h]; rfl)

theorem stageStep_setCons (i : Stage) (x : F32) :
    stageStep i x (s.setCons c) = ((stageStep i x s).1, (stageStep i x s).2.setCons c) := by
  simp only [stageStep, State.setCons_prod, stageArith_setCons]
  rfl

theorem chain_setCons (x : F32) : chain x (s.setCons c) = ((chain x s).1, (chain x s).2.setCons c) := by
  simp only [chain, stageStep_setCons]

theorem push_setCons (y : F32) : push (s.setCons c) y = (push s y).setCons c := by
  simp only [push, setCons_ite]
  rfl

theorem emitSample_setCons : emitSample (s.setCons c) = (emitSample s).setCons c := by
  have hout : apuOut (s.setCons c) = ((apuOut s).1, (apuOut s).2.setCons c) := rfl
  rw [emitSample_eq, emitSample_eq, hout, chain_setCons, push_setCons, setCons_ite]
  rfl

theorem samplePath_setCons : samplePath (s.setCons c) = mapNext (·.setCons c) (samplePath s) := by
  have hacc : ∀ a, setAcc (s.setCons c) a = (setAcc s a).setCons c := fun _ => rfl
  simp only [samplePath, mapNext_ite, hacc, emitSample_setCons]
  rfl

theorem audPhase_setCons : audPhase (s.setCons c) = mapNext (·.setCons c) (audPhase s) := by
  have htick : apuTick (s.setCons c) = ((apuTick s).1, (apuTick s).2.setCons c) := rfl
  simp only [audPhase, mapNext_ite, htick, samplePath_setCons]
  cases samplePath (apuTick s).2 <;> rfl

theorem endPhase_setCons : endPhase (s.setCons c) = mapNext (·.setCons c) (endPhase s) := by
  cases hm : s.prod.mode with
  | single => rw [endPhase_of_single hm, endPhase_of_single (s := s.setCons c) hm]; rfl
  | frame => rw [endPhase_of_frame hm, endPhase_of_frame (s := s.setCons c) hm]; rfl
  | seconds =>
    rw [endPhase_of_seconds hm, endPhase_of_seconds (s := s.setCons c) hm]
    simp only [secondsEnd, mapNext_ite]
    rfl

theorem prodTurn_setCons : prodTurn (s.setCons c) = mapNext (·.setCons c) (prodTurn s) := by
  cases hstream : s.prod.stream with
  | snapshot left =>
    rw [prodTurn_of_snapshot hstream, prodTurn_of_snapshot (s := s.setCons c) hstream, sendBytes_setCons]; rfl
  | restore got =>
    rw [prodTurn_of_restore hstream, prodTurn_of_restore (s := s.setCons c) hstream, readBytes_setCons]; rfl
  | none =>
    simp only [prodTurn, State.setCons_prod, hstream]
    cases s.prod.phase with
    | idle => exact idleTurn_setCons s c
    | cpu => exact cpuPhase_setCons s c
    | vid => exact vidPhase_setCons s c
    | aud => exact audPhase_setCons s c
    | stepEnd => exact endPhase_setCons s c
    | halt => rfl

end Consumer

/-- Settles O44: a replaced domain is carried through the other agent's turn. -/
theorem domainsDoNotSeeEachOther : Obligations.DomainsDoNotSeeEachOther := by
  refine ⟨fun s t p h => ?_, fun s t c h => ?_⟩
  · exact (consTurn_setProd s p).trans (by rw [h]; rfl)
  · exact (prodTurn_setCons s c).trans (by rw [h]; rfl)

end Sys2Proof.Machine

namespace Sys2Proof.Machine

/-! ## The invariant (spec/10_state.md R32, R35, R38, R46, R55, spec/20_memory.md R72, R79)

The FIFO's part is kept because PROD pushes at most once and CONS reads only what it sees; the producer's part is gone
through phase by phase and effect by effect, in three shapes: IDLE, a phase of a step, and HALT. -/

/-! ### The stored samples -/

theorem NoPush.storedOk {s t : State} (h : NoPush s t) (hs : StoredOk s) : StoredOk t :=
  StoredOk.of_same h.params h.wrPtr (by rw [h.cons]) h.mem hs

theorem AtMostOnePush.storedOk {s t : State} (h : AtMostOnePush s t) (hf : FifoOk s) (hs : StoredOk s) : StoredOk t := by
  obtain h | ⟨u, y, hu, ht⟩ := h
  · exact h.storedOk hs
  · exact ht.storedOk (push_keeps_stored y (hu.fifoOk hf) (hu.storedOk hs))

/-- The samples that are left after reading on were stored before. -/
theorem ReadsSeen.storedOk {s t : State} (h : ReadsSeen s t) (hf : FifoOk s) (hs : StoredOk s) : StoredOk t := by
  obtain ⟨k, hk, h⟩ := h
  have hcount := h.count_eq hf (hk.trans hf.countC_le_count)
  obtain ⟨hwf, hbelow, hlisted⟩ := hs
  refine ⟨h.mem ▸ hwf, fun i v hi => ?below, fun j hj => ?listed⟩
  case below =>
    rw [h.mem] at hi
    exact h.params ▸ hbelow i v hi
  case listed =>
    have hentry : ((s.cons.rdPtr + k) % (2 * s.params.cap) + j) % s.params.cap = (s.cons.rdPtr + (k + j)) % s.params.cap := by
      rw [Nat.add_mod, Nat.mod_mod_of_dvd _ ⟨2, Nat.mul_comm 2 _⟩, ← Nat.add_mod, Nat.add_assoc]
    rw [h.mem, h.params, h.rdPtr, hentry]
    exact hlisted (k + j) (by omega)

/-- No turn of an agent loses a stored sample (R72). -/
theorem agentTurn_keeps_stored {a : Agent} {s t : State} (hf : FifoOk s) (hs : StoredOk s)
    (h : agentTurn a s = .next t) : StoredOk t := by
  cases a with
  | prod => exact (atMostOnePush_prodTurn h).storedOk hf hs
  | cons => exact (readsSeen_consTurn hf h).storedOk hf hs
  | syncW | syncR => cases h; exact .of_same rfl rfl rfl rfl hs

/-! ### The consumer's fault registers -/

/-- The consumer's part of the fault registers' invariant (R46, R50). -/
def ConsumerOk (c : Consumer) : Prop := c.cerror ∈ cerrorValues ∧ (c.cerror = 0#32 ↔ c.cfault = false)

/-- What writes neither CFAULT nor CERROR keeps the consumer's part. -/
theorem ConsumerOk.of_same {c d : Consumer} (h : ConsumerOk c) (hcerror : d.cerror = c.cerror)
    (hcfault : d.cfault = c.cfault) : ConsumerOk d := by
  rwa [ConsumerOk, hcerror, hcfault]

/-- A consumer fault leaves a listed code other than 0 (R211, R219). -/
theorem consumerOk_raiseCFault {s : State} (h : ConsumerOk s.cons) (c : CFaultCode) :
    ConsumerOk (raiseCFault s c).cons := by
  obtain ⟨hmem, -⟩ := h
  by_cases h0 : s.cons.cerror = 0#32
  · have hcode : c.code.setWidth 32 ∈ cerrorValues ∧ c.code.setWidth 32 ≠ 0#32 := by cases c <;> decide
    rw [ConsumerOk, raiseCFault_cerror_of_zero c h0, raiseCFault_cons]
    exact ⟨hcode.1, by simp [hcode.2]⟩
  · rw [ConsumerOk, raiseCFault_cerror_of_recorded c h0, raiseCFault_cons]
    exact ⟨hmem, by simp [h0]⟩

theorem consumerOk_playFrame {s : State} (h : ConsumerOk s.cons) : ConsumerOk (playFrame s).cons := by
  by_cases hempty : s.cons.rdPtr = s.cons.wrSync
  · rw [playFrame_of_empty hempty]; exact h.of_same rfl rfl
  · rw [playFrame_of_nonempty hempty]; exact h.of_same rfl rfl

/-- A command of the consumer port answers a next state and keeps the consumer's part. -/
theorem consumerOk_exec {i : Instr} {s : State} (hi : i.mnemonic.port = .consumer) (h : ConsumerOk s.cons) :
    ∃ t, exec i s = .next t ∧ ConsumerOk t.cons := by
  cases i with
  | frame =>
    by_cases hch : s.cons.channels = 0#8
    · exact ⟨_, exec_frame_of_unconfigured hch, consumerOk_raiseCFault h _⟩
    · exact ⟨_, exec_frame_of_configured hch, consumerOk_playFrame h⟩
  | flush => exact ⟨_, rfl, h.of_same rfl rfl⟩
  | setch n =>
    by_cases hn : n = 0#8
    · exact ⟨_, hn ▸ exec_setch_zero s, consumerOk_raiseCFault h _⟩
    · exact ⟨_, exec_setch_of_legal s hn, h.of_same rfl rfl⟩
  | step | stepframe | stepsec _ | reset | setbtn _ _ | config _ | disable | attach | detach | snapshot | restore =>
    cases hi

/-- CONS always takes its turn, and keeps the consumer's part. -/
theorem consumerOk_consTurn {s : State} (h : ConsumerOk s.cons) : ∃ t, consTurn s = .next t ∧ ConsumerOk t.cons := by
  cases hw : (takeCcmd s).1 with
  | none => exact ⟨_, consTurn_of_nothing hw, h⟩
  | some w =>
    rw [consTurn_of_offered hw]
    cases hd : decode .consumer w with
    | none => exact ⟨_, runConsumerWord_of_illegal hd _, consumerOk_raiseCFault (s := (takeCcmd s).2) h _⟩
    | some i =>
      rw [runConsumerWord_of_decode hd]
      exact consumerOk_exec (s := (takeCcmd s).2) (port_of_decode hd) h

/-! ### The producer domain -/

/-- The bounds that hold of BUDGET and `frame0` in every phase (R38, R55). -/
def CountersOk (p : Params) (q : Producer) : Prop :=
  -254 ≤ q.budget.toInt ∧ q.budget.toInt < 2 ^ 36 ∧ q.frame0.toNat < 2 ^ p.frameW

/-- The divider is in range (R34, R35). -/
def DividerOk (fcpu : Nat) (x : SamplePath) : Prop :=
  x.acc.toNat < fcpu ∧ (x.cfgValid = true → rateLegal fcpu x.rate = true)

/-- What holds of the producer domain outside HALT, whatever the phase: the counters and the divider are in range and
ERROR is 0. -/
def WorkingOk (p : Params) (q : Producer) : Prop := CountersOk p q ∧ DividerOk p.fcpu q.path ∧ q.error = 0#32

/-- The producer's part of the invariant, by PROD's phase: waiting in IDLE, perhaps with a stream command in flight; in a
step; or halted by a fault. `inv_iff` ties it to the invariant. -/
def ProducerOk (p : Params) (q : Producer) : Prop :=
  match q.phase with
  | .idle => WorkingOk p q ∧ streamOk q
  | .cpu | .vid | .aud | .stepEnd =>
    WorkingOk p q ∧ q.stream = .none ∧ ticksOk q ∧ (q.mode = .seconds → 0 < q.budget.toInt)
  | .halt => CountersOk p q ∧ q.stream = .none ∧ q.error ∈ errorValues ∧ q.error ≠ 0#32

theorem busy_iff (s : State) :
    busy s = true ↔
      s.prod.phase = .cpu ∨ s.prod.phase = .vid ∨ s.prod.phase = .aud ∨ s.prod.phase = .stepEnd := by
  rw [busy_eq_decide, decide_eq_true_eq]

/-- Outside IDLE the stream's part of the invariant says that no stream command is in flight. -/
theorem streamOk_iff_of_ne_idle {q : Producer} (h : q.phase ≠ .idle) : streamOk q ↔ q.stream = .none := by
  unfold streamOk
  split <;> simp_all

/-- The producer's part is what the invariant says of the sequencing state, the divider and ERROR. -/
theorem producerOk_iff (s : State) :
    ProducerOk s.params s.prod ↔
      SeqOk s ∧ PathOk s ∧ s.prod.error ∈ errorValues ∧ (s.prod.error = 0#32 ↔ s.prod.phase ≠ .halt) := by
  have hzero : s.prod.error = 0#32 → s.prod.error ∈ errorValues := by
    intro h
    rw [h]
    decide
  unfold SeqOk PathOk ProducerOk WorkingOk CountersOk DividerOk
  rw [busy_iff]
  cases hphase : s.prod.phase <;>
    simp only [hphase, ticksOk, streamOk_iff_of_ne_idle, ne_eq, reduceCtorEq, not_false_eq_true, not_true_eq_false,
      or_false, or_true, forall_const, false_implies, iff_true, iff_false, true_and] <;>
    tauto

/-- The invariant by the parts of the state (R32, R35, R38, R46, R55, R72, R79). -/
theorem inv_iff (s : State) :
    Inv s ↔ paramsValid s.params = true ∧ ProducerOk s.params s.prod ∧ ConsumerOk s.cons ∧ FifoOk s ∧ StoredOk s := by
  rw [producerOk_iff, Inv, FaultOk, ConsumerOk]
  tauto

/-! ### The three shapes -/

section Shapes

variable {p : Params} {q : Producer}

theorem producerOk_of_idle (hphase : q.phase = .idle) (hw : WorkingOk p q) (hstream : streamOk q) : ProducerOk p q := by
  simp only [ProducerOk, hphase]
  exact ⟨hw, hstream⟩

theorem streamOk_of_none (h : q.stream = .none) : streamOk q := by
  simp only [streamOk, h]

/-- PROD in a phase of a step. -/
theorem producerOk_of_busy (hphase : q.phase = .cpu ∨ q.phase = .vid ∨ q.phase = .aud ∨ q.phase = .stepEnd)
    (hw : WorkingOk p q) (hstream : q.stream = .none) (hticks : ticksOk q)
    (hbudget : q.mode = .seconds → 0 < q.budget.toInt) : ProducerOk p q := by
  obtain hphase | hphase | hphase | hphase := hphase <;> simp only [ProducerOk, hphase] <;>
    exact ⟨hw, hstream, hticks, hbudget⟩

theorem ProducerOk.idle (h : ProducerOk p q) (hphase : q.phase = .idle) : WorkingOk p q ∧ streamOk q := by
  simpa only [ProducerOk, hphase] using h

theorem ProducerOk.busy (h : ProducerOk p q)
    (hphase : q.phase = .cpu ∨ q.phase = .vid ∨ q.phase = .aud ∨ q.phase = .stepEnd) :
    WorkingOk p q ∧ q.stream = .none ∧ ticksOk q ∧ (q.mode = .seconds → 0 < q.budget.toInt) := by
  obtain hphase | hphase | hphase | hphase := hphase <;> simpa only [ProducerOk, hphase] using h

theorem ticksOk_of_cpu (h : q.phase = .cpu) : ticksOk q := by simp only [ticksOk, h]

theorem ticksOk_vid (h : q.phase = .vid) : ticksOk q ↔ 1 ≤ q.k.toNat ∧ q.k.toNat ≤ 3 * q.curC.toNat := by
  simp only [ticksOk, h]

theorem ticksOk_aud (h : q.phase = .aud) : ticksOk q ↔ 1 ≤ q.k.toNat ∧ q.k.toNat ≤ q.curC.toNat := by
  simp only [ticksOk, h]

theorem ticksOk_stepEnd (h : q.phase = .stepEnd) : ticksOk q ↔ 1 ≤ q.curC.toNat := by
  simp only [ticksOk, h]

end Shapes

/-- A fault that R210 lists, raised with no stream command in flight, halts PROD (R214). -/
theorem producerOk_raiseFault {s : State} (hcounters : CountersOk s.params s.prod) (hstream : s.prod.stream = .none)
    {c : FaultCode} {u : BitVec 3} (hlisted : errorWord c u ∈ errorValues) (hne : errorWord c u ≠ 0#32) :
    ProducerOk (raiseFault s c u).params (raiseFault s c u).prod :=
  ⟨hcounters, hstream, hlisted, hne⟩

/-! ### The phases of a step -/

section Phases

variable {s : State}

theorem producerOk_cpuPhase (h : ProducerOk s.params s.prod) (hphase : s.prod.phase = .cpu) :
    ∃ t, cpuPhase s = .next t ∧ ProducerOk t.params t.prod := by
  obtain ⟨hw, hstream, -, hbudget⟩ := h.busy (.inl hphase)
  cases hf : (procStep s).1.fault with
  | true => exact ⟨_, cpuPhase_of_fault hf, producerOk_raiseFault (s := (procStep s).2) hw.1 hstream (by decide) (by decide)⟩
  | false =>
    by_cases hc : (procStep s).1.c = 0#8
    · exact ⟨_, cpuPhase_of_zero hf hc,
        producerOk_raiseFault (s := (procStep s).2) hw.1 hstream (by decide) (by decide)⟩
    · have hpos : 0 < (procStep s).1.c.toNat := Nat.pos_of_ne_zero fun h0 => hc (BitVec.toNat_inj.1 h0)
      refine ⟨_, cpuPhase_of_ticks hf hc, producerOk_of_busy (.inr (.inl rfl)) hw hstream ?_ hbudget⟩
      rw [ticksOk_vid rfl]
      simp only [State.setProd_prod, BitVec.toNat_ofNat]
      omega

theorem producerOk_vidPhase (h : ProducerOk s.params s.prod) (hphase : s.prod.phase = .vid) :
    ∃ t, vidPhase s = .next t ∧ ProducerOk t.params t.prod := by
  obtain ⟨hw, hstream, hticks, hbudget⟩ := h.busy (.inr (.inl hphase))
  obtain ⟨hk, hmax⟩ := (ticksOk_vid hphase).1 hticks
  cases hf : (ppuTick s).1 with
  | true => exact ⟨_, vidPhase_of_ppuFault hk hf,
      producerOk_raiseFault (s := (ppuTick s).2) hw.1 hstream (by decide) (by decide)⟩
  | false =>
    cases hg : (mapperTick (ppuTick s).2).1 with
    | true => exact ⟨_, vidPhase_of_mapperFault hk hf hg,
        producerOk_raiseFault (s := (mapperTick (ppuTick s).2).2) hw.1 hstream (by decide) (by decide)⟩
    | false =>
      refine ⟨_, vidPhase_of_pair hk hf hg, ?_⟩
      rw [State.setProd_prod]
      split
      next hone =>
        refine producerOk_of_busy (.inr (.inr (.inl rfl))) hw hstream ?_ hbudget
        rw [ticksOk_aud rfl, BitVec.toNat_setWidth_of_le (by decide)]
        exact ⟨by omega, le_rfl⟩
      next hmore =>
        refine producerOk_of_busy (.inr (.inl hphase)) hw hstream
          ((ticksOk_vid (q := { s.prod with k := s.prod.k - 1#10 }) hphase).2 ?_) hbudget
        rw [toNat_ticks_sub_one hk]
        exact ⟨by omega, (Nat.sub_le _ _).trans hmax⟩

/-- An audio tick keeps the divider in range (R35). -/
theorem dividerOk_samplePath {t : State} (hc : s.params.fcpu < 2 ^ 31) (h : DividerOk s.params.fcpu s.prod.path)
    (ht : samplePath s = .next t) : DividerOk s.params.fcpu t.prod.path := by
  obtain ⟨hacc, hrate⟩ := h
  cases hv : s.prod.path.cfgValid with
  | false =>
    rw [samplePath_of_unconfigured hv] at ht
    cases ht
    exact ⟨hacc, hrate⟩
  | true =>
    have hlegal := hrate hv
    have htick := dividerTicks_samplePath hc hacc hv ((rateLegal_iff _ _).1 hlegal).2 ht
    exact ⟨htick.acc ▸ Nat.mod_lt _ (by omega), fun _ => by rwa [htick.rate]⟩

theorem producerOk_audPhase (hparams : paramsValid s.params = true) (h : ProducerOk s.params s.prod)
    (hphase : s.prod.phase = .aud) : ∃ t, audPhase s = .next t ∧ ProducerOk t.params t.prod := by
  obtain ⟨hw, hstream, hticks, hbudget⟩ := h.busy (.inr (.inr (.inl hphase)))
  obtain ⟨hcounters, hdivider, herror⟩ := hw
  obtain ⟨hk, hmax⟩ := (ticksOk_aud hphase).1 hticks
  have hfcpu := (bounds_of_paramsValid hparams).1
  cases hf : (apuTick s).1 with
  | true => exact ⟨_, audPhase_of_fault hk hf,
      producerOk_raiseFault (s := (apuTick s).2) hcounters hstream (by decide) (by decide)⟩
  | false =>
    obtain ⟨u, hu⟩ := samplePath_next (s := (apuTick s).2) hfcpu hdivider.1 hdivider.2
    have hudivider := dividerOk_samplePath (s := (apuTick s).2) hfcpu hdivider hu
    obtain ⟨a, f, w, huprod⟩ := samplePath_prod hu
    have huparams : u.params = s.params := (samplePath_frame hu).1
    refine ⟨countTick u, by rw [audPhase_of_tick hk hf, hu, andThen_next], ?_⟩
    rw [huprod] at hudivider
    rw [countTick_params, huparams, countTick, State.setProd_prod, huprod]
    simp only [apuTick_prod, ticks_sub_one_eq_zero_iff hk]
    have hw : WorkingOk s.params
        { s.prod with path := { s.prod.path with acc := a, fstate := f }, wrPtr := w } :=
      ⟨hcounters, hudivider, herror⟩
    split
    · refine producerOk_of_busy (.inr (.inr (.inr rfl))) hw hstream ((ticksOk_stepEnd rfl).2 ?_) hbudget
      exact hk.trans hmax
    · refine producerOk_of_busy (.inr (.inr (.inl hphase))) hw hstream
        ((ticksOk_aud (q := { s.prod with path := _, wrPtr := w, k := _ }) hphase).2 ?_) hbudget
      rw [toNat_ticks_sub_one hk]
      exact ⟨by omega, (Nat.sub_le _ _).trans hmax⟩

/-- After a step PROD goes on with the next one or back to IDLE. -/
theorem producerOk_of_next_step {p : Params} {q : Producer} {b : Prop} [Decidable b]
    (hphase : q.phase = if b then .cpu else .idle) (hw : WorkingOk p q) (hstream : q.stream = .none)
    (hbudget : b → q.mode = .seconds → 0 < q.budget.toInt) : ProducerOk p q := by
  split at hphase
  next hb => exact producerOk_of_busy (.inl hphase) hw hstream (ticksOk_of_cpu hphase) (hbudget hb)
  next => exact producerOk_of_idle hphase hw (streamOk_of_none hstream)

theorem producerOk_endPhase (h : ProducerOk s.params s.prod) (hphase : s.prod.phase = .stepEnd) :
    ∃ t, endPhase s = .next t ∧ ProducerOk t.params t.prod := by
  obtain ⟨hw, hstream, hticks, hbudget⟩ := h.busy (.inr (.inr (.inr hphase)))
  cases hm : s.prod.mode with
  | single => exact ⟨_, endPhase_of_single hm, producerOk_of_idle rfl hw (streamOk_of_none hstream)⟩
  | frame =>
    refine ⟨_, endPhase_of_frame hm, producerOk_of_next_step rfl hw hstream fun _ hseconds => ?_⟩
    cases hm.symm.trans hseconds
  | seconds =>
    obtain ⟨⟨-, hhigh, hframe0⟩, hdivider, herror⟩ := hw
    have hpos := hbudget hm
    have hc := s.prod.curC.isLt
    obtain ⟨b, hb, hend⟩ :=
      secondsEnd_of_fits (s := s.setProd { s.prod with lastC := s.prod.curC }) (by simp only [State.setProd_prod]; omega)
    simp only [State.setProd_prod] at hb
    refine ⟨_, (endPhase_of_seconds hm).trans hend, producerOk_of_next_step rfl ?_ hstream fun hgo _ => hgo⟩
    exact ⟨⟨by show -254 ≤ b.toInt; omega, by show b.toInt < 2 ^ 36; omega, hframe0⟩, hdivider, herror⟩

end Phases

/-! ### The stream commands -/

/-- SNAPSHOT's loop from bytes that end the record of the registers as they stand. -/
theorem producerOk_sendBytes {s : State} {left : List Byte} (hphase : s.prod.phase = .idle)
    (hw : WorkingOk s.params s.prod) (hleft : left <:+ bridgeRecord s.prod.path) :
    ProducerOk (sendBytes left s).params (sendBytes left s).prod := by
  obtain ⟨moved, rest, rfl, -, hparams, -, -, -, ⟨-, hprod⟩ | ⟨hne, hprod⟩⟩ := sendBytes_cases left s
  · rw [hparams, hprod]
    exact producerOk_of_idle rfl hw trivial
  · rw [hparams, hprod]
    exact producerOk_of_idle hphase hw ⟨hphase, hne, (List.suffix_append moved rest).trans hleft⟩

/-- A RESTORE that fails halts PROD (R145). -/
theorem producerOk_failRestore {s : State} (hcounters : CountersOk s.params s.prod) (hstream : s.prod.stream = .none)
    {c : FaultCode} (hlisted : errorWord c 0#3 ∈ errorValues) (hne : errorWord c 0#3 ≠ 0#32) :
    ProducerOk (failRestore s c).params (failRestore s c).prod :=
  ⟨hcounters, hstream, hlisted, hne⟩

/-- A `Valid` record gives a divider in range (R144). -/
theorem dividerOk_recordPath {fcpu : Nat} {rec : List Byte} (h : recordValid fcpu rec = true) :
    DividerOk fcpu (recordPath rec) := by
  obtain ⟨-, -, hrate, hacc, hconfigured⟩ := (recordValid_iff _ _).1 h
  refine ⟨(fieldAt_toNat rec 6).trans_lt hacc, fun hv => ?_⟩
  rw [rateLegal_iff, recordPath_rate_toNat hrate]
  exact hconfigured (of_decide_eq_true hv)

theorem producerOk_finishRestore {s : State} {rec : List Byte} (hw : WorkingOk s.params s.prod)
    (hstream : s.prod.stream = .none) : ProducerOk (finishRestore s rec).params (finishRestore s rec).prod := by
  obtain ⟨-, e⟩ | ⟨-, hvalid, e⟩ | ⟨-, -, e⟩ := finishRestore_cases s rec <;> rw [e]
  · exact producerOk_failRestore hw.1 hstream (by decide) (by decide)
  · exact producerOk_of_idle rfl ⟨hw.1, dividerOk_recordPath hvalid, hw.2.2⟩ (streamOk_of_none hstream)
  · exact producerOk_failRestore hw.1 hstream (by decide) (by decide)

/-- RESTORE's loop with as many bytes to ask for as it lacks. -/
theorem producerOk_readBytes {s : State} {n : Nat} {got : List Byte} (hphase : s.prod.phase = .idle)
    (hw : WorkingOk s.params s.prod) (hn : got.length + n = 71) :
    ProducerOk (readBytes n got s).params (readBytes n got s).prod := by
  obtain ⟨more, u, f, hparams, -, -, -, -, -, hprod, h⟩ := readBytes_cases n got s
  have hwu : WorkingOk (u.setStream .none).params (u.setStream .none).prod := by
    rw [State.setStream_params, State.setStream_prod, hparams, hprod]
    exact hw
  obtain ⟨-, e⟩ | ⟨-, e⟩ | ⟨hlen, e, rfl⟩ := h <;> rw [e]
  · exact producerOk_finishRestore hwu rfl
  · exact producerOk_failRestore hwu.1 rfl (by decide) (by decide)
  · rw [hparams, hprod]
    refine producerOk_of_idle hphase hw ⟨hphase, ?_⟩
    rw [List.length_append]
    omega

/-! ### The effects of the producer commands -/

theorem dividerOk_of_acc_zero {p : Params} (hp : paramsValid p = true) {x : SamplePath} (hacc : x.acc = 0#32)
    (hrate : x.cfgValid = true → rateLegal p.fcpu x.rate = true) : DividerOk p.fcpu x := by
  refine ⟨?_, hrate⟩
  simp only [paramsValid, Bool.and_eq_true, decide_eq_true_eq] at hp
  rw [hacc, BitVec.toNat_zero]
  tauto

theorem producerOk_configure {s : State} (hparams : paramsValid s.params = true) (hphase : s.prod.phase = .idle)
    (hstream : s.prod.stream = .none) (hw : WorkingOk s.params s.prod) (rate : BitVec 24) :
    ProducerOk (configure rate s).params (configure rate s).prod := by
  by_cases hlegal : 1 ≤ rate.toNat ∧ rate.toNat ≤ s.params.fcpu
  · rw [configure_of_legal hlegal]
    refine producerOk_of_idle hphase ⟨hw.1, ?_, hw.2.2⟩ (streamOk_of_none hstream)
    exact dividerOk_of_acc_zero hparams rfl fun _ => (rateLegal_iff _ _).2 hlegal
  · rw [configure_of_illegal (by omega)]
    exact producerOk_raiseFault hw.1 hstream (by decide) (by decide)

/-- Every producer command's effect keeps the producer's part. -/
theorem producerOk_effect {s : State} (hparams : paramsValid s.params = true) (ha : accepting s = true)
    (h : ProducerOk s.params s.prod) (i : Instr) : ProducerOk (effect i s).params (effect i s).prod := by
  obtain ⟨hphase, hstream⟩ := (accepting_iff s).1 ha
  obtain ⟨hw, -⟩ := h.idle hphase
  obtain ⟨⟨hlow, hhigh, hframe0⟩, hdivider, herror⟩ := id hw
  cases i with
  | step => exact producerOk_of_busy (.inl rfl) hw hstream (ticksOk_of_cpu rfl) (by simp [effect])
  | stepframe =>
    exact producerOk_of_busy (.inl rfl) ⟨⟨hlow, hhigh, ppuFrame_lt s⟩, hdivider, herror⟩ hstream (ticksOk_of_cpu rfl)
      (by simp [effect])
  | stepsec us =>
    have hlt := tickBudget_lt (bounds_of_paramsValid hparams).1 us
    have hbudget := toInt_ofNat_of_lt hlt
    refine producerOk_of_next_step rfl ⟨⟨?_, ?_, hframe0⟩, hdivider, herror⟩ hstream fun hpos _ => ?_
    all_goals
      simp only [effect, State.setProd_prod, hbudget]
      omega
  | reset | setbtn _ _ => exact producerOk_of_idle rfl hw (streamOk_of_none hstream)
  | config rate => exact producerOk_configure hparams hphase hstream hw rate
  | disable =>
    have hcleared : DividerOk s.params.fcpu (effect .disable s).prod.path :=
      dividerOk_of_acc_zero hparams rfl (by simp [effect])
    exact producerOk_of_idle hphase ⟨hw.1, hcleared, herror⟩ (streamOk_of_none hstream)
  | attach | detach => exact producerOk_of_idle hphase hw (streamOk_of_none hstream)
  | snapshot => exact producerOk_sendBytes hphase hw (List.suffix_refl _)
  | restore => exact producerOk_readBytes hphase hw rfl
  | frame | flush | setch _ => exact h

/-! ### The turn of PROD -/

theorem prodTurn_of_nothing {s : State} (hstream : s.prod.stream = .none) (hphase : s.prod.phase = .idle)
    (h : (takeCmd s).1 = none) : prodTurn s = .next (takeCmd s).2 := by
  simp only [prodTurn, hstream, hphase, idleTurn, h]

/-- PROD waiting in IDLE keeps the producer's part, whatever it is offered. -/
theorem producerOk_idleTurn {s : State} (hparams : paramsValid s.params = true) (h : ProducerOk s.params s.prod)
    (hphase : s.prod.phase = .idle) (hstream : s.prod.stream = .none) :
    ∃ t, prodTurn s = .next t ∧ ProducerOk t.params t.prod := by
  cases hw : (takeCmd s).1 with
  | none => exact ⟨_, prodTurn_of_nothing hstream hphase hw, h⟩
  | some w =>
    rw [prodTurn_of_offered hstream hphase hw]
    cases hd : decode .producer w with
    | none =>
      exact ⟨_, runProducerWord_of_illegal hd _,
        producerOk_raiseFault (s := (takeCmd s).2) (h.idle hphase).1.1 hstream (by decide) (by decide)⟩
    | some i =>
      have ha : accepting (takeCmd s).2 = true := (accepting_iff _).2 ⟨hphase, hstream⟩
      rw [runProducerWord_of_decode hd, exec_of_accepting (port_of_decode hd) ha]
      exact ⟨_, rfl, producerOk_effect (s := (takeCmd s).2) hparams ha h i⟩

/-- PROD always takes its turn, and keeps the producer's part. -/
theorem producerOk_prodTurn {s : State} (hparams : paramsValid s.params = true) (h : ProducerOk s.params s.prod) :
    ∃ t, prodTurn s = .next t ∧ ProducerOk t.params t.prod := by
  cases hphase : s.prod.phase
  case idle =>
    obtain ⟨hw, hstreamOk⟩ := h.idle hphase
    cases hstream : s.prod.stream <;> simp only [streamOk, hstream] at hstreamOk
    case none => exact producerOk_idleTurn hparams h hphase hstream
    case snapshot left =>
      obtain ⟨-, -, hleft⟩ := hstreamOk
      exact ⟨_, prodTurn_of_snapshot hstream, producerOk_sendBytes hphase hw hleft⟩
    case restore got =>
      obtain ⟨-, hlen⟩ := hstreamOk
      exact ⟨_, prodTurn_of_restore hstream, producerOk_readBytes hphase hw (by omega)⟩
  case halt =>
    have hstream : s.prod.stream = .none := by
      simp only [ProducerOk, hphase] at h
      obtain ⟨-, hstream, -⟩ := h
      exact hstream
    exact ⟨_, prodTurn_of_halt hstream hphase, h⟩
  all_goals obtain ⟨-, hstream, -⟩ := h.busy (by simp [hphase])
  case cpu => rw [prodTurn_of_cpu hstream hphase]; exact producerOk_cpuPhase h hphase
  case vid => rw [prodTurn_of_vid hstream hphase]; exact producerOk_vidPhase h hphase
  case aud => rw [prodTurn_of_aud hstream hphase]; exact producerOk_audPhase hparams h hphase
  case stepEnd => rw [prodTurn_of_stepEnd hstream hphase]; exact producerOk_endPhase h hphase

/-! ### Every step -/

/-- Every turn of every agent answers a next state and keeps the invariant. -/
theorem agentTurn_keeps_inv (a : Agent) {s : State} (h : Inv s) : ∃ t, agentTurn a s = .next t ∧ Inv t := by
  obtain ⟨hparams, hprod, hcons, hfifo, hstored⟩ := (inv_iff s).1 h
  have hturn : ∃ t, agentTurn a s = .next t ∧ ProducerOk t.params t.prod ∧ ConsumerOk t.cons := by
    cases a with
    | prod =>
      obtain ⟨t, ht, hok⟩ := producerOk_prodTurn hparams hprod
      exact ⟨t, ht, hok, by rwa [prodTurn_cons ht]⟩
    | cons =>
      obtain ⟨t, ht, hok⟩ := consumerOk_consTurn hcons
      exact ⟨t, ht, by rwa [(sameCrossing_consTurn ht).params, (consTurn_frame ht).1], hok⟩
    | syncW => exact ⟨_, rfl, hprod, hcons.of_same rfl rfl⟩
    | syncR => exact ⟨_, rfl, hprod, hcons⟩
  obtain ⟨t, ht, htprod, htcons⟩ := hturn
  obtain ⟨htparams, -⟩ := agentTurn_crossing ht
  exact ⟨t, ht, (inv_iff t).2 ⟨htparams ▸ hparams, htprod, htcons, agentTurn_keeps_fifo hfifo ht,
    agentTurn_keeps_stored hfifo hstored ht⟩⟩

/-- Settles O55: under legal parameters a step is a turn of the agent the schedule names. -/
theorem stepKeepsInvariant : Obligations.StepKeepsInvariant := by
  intro s h
  have hs : Inv (takeAgent s).2 := h
  obtain ⟨t, ht, hinv⟩ := agentTurn_keeps_inv (takeAgent s).1 hs
  obtain ⟨hparams, -⟩ := agentTurn_crossing ht
  exact ⟨t, (step_of_valid h.1).trans ht, hinv, hparams⟩

/-! ### Power-on (spec/70_reset_and_hazards.md R240, R261) -/

theorem inv_powerOn {p : Params} (w : World) (hp : paramsValid p = true) : Inv (State.powerOn p w) := by
  have hcounters : CountersOk p .powerOn := ⟨by decide, by decide, Nat.two_pow_pos _⟩
  have hconsumer : ConsumerOk .powerOn := by unfold ConsumerOk; decide
  refine (inv_iff _).2 ⟨hp, producerOk_of_idle rfl ⟨hcounters, ?divider, rfl⟩ trivial, hconsumer, fifoOk_powerOn w hp,
    rfl, by simp [State.powerOn], fun j hj => ?empty⟩
  case divider => exact dividerOk_of_acc_zero hp rfl (by simp [State.powerOn, Producer.powerOn, SamplePath.powerOn])
  case empty =>
    have hcount : (State.powerOn p w).count = 0 := by simp [State.count, ptrDist, State.powerOn, Producer.powerOn, Consumer.powerOn]
    omega

/-- Settles O50: the power-on state is IDLE with empty views, and the suggested parameters are legal. -/
theorem powerOnIsClean : Obligations.PowerOnIsClean := by
  refine ⟨fun p w hp => ⟨?clean, inv_powerOn w hp⟩, inv_powerOn _ (by decide)⟩
  obtain ⟨-, -, hpath, -, hfifo, -⟩ := inv_powerOn w hp
  obtain ⟨hacc, hrate⟩ := hpath (by simp [State.powerOn, Producer.powerOn])
  exact ⟨rfl, rfl, rfl, rfl, hfifo, ⟨rfl, rfl⟩, hacc, hrate, rfl⟩

end Sys2Proof.Machine

namespace Sys2Proof.Machine

/-! ## Runs of the stepping commands (spec/40_stepper.md R110, R118, R124, spec/70_reset_and_hazards.md R253)

A step takes one turn of PROD in CPU, one per picture-unit pair, one per audio tick and one in END. Every turn of PROD
takes one off what is left of it, unless a fault stops it, and no turn of another agent touches that. -/

/-! ### The turns that a step still needs -/

/-- The turns of PROD that the step in progress needs until it is over, if no fault stops it. In the CPU phase its ticks
are still to come: `c` of them. -/
def turnsToEnd (c : Nat) (q : Producer) : Nat :=
  match q.phase with
  | .cpu => 2 + 4 * c
  | .vid => q.k.toNat + q.curC.toNat + 1
  | .aud => q.k.toNat + 1
  | .stepEnd => 1
  | .idle | .halt => 0

section TurnsToEnd

variable {q : Producer}

theorem turnsToEnd_cpu (c : Nat) (h : q.phase = .cpu) : turnsToEnd c q = 2 + 4 * c := by simp only [turnsToEnd, h]

theorem turnsToEnd_vid (c : Nat) (h : q.phase = .vid) : turnsToEnd c q = q.k.toNat + q.curC.toNat + 1 := by
  simp only [turnsToEnd, h]

theorem turnsToEnd_aud (c : Nat) (h : q.phase = .aud) : turnsToEnd c q = q.k.toNat + 1 := by simp only [turnsToEnd, h]

theorem turnsToEnd_stepEnd (c : Nat) (h : q.phase = .stepEnd) : turnsToEnd c q = 1 := by simp only [turnsToEnd, h]

theorem turnsToEnd_idle (c : Nat) (h : q.phase = .idle) : turnsToEnd c q = 0 := by simp only [turnsToEnd, h]

end TurnsToEnd

/-- PROD is busy exactly while a step needs turns. -/
theorem turnsToEnd_pos_iff (c : Nat) (s : State) : 0 < turnsToEnd c s.prod ↔ busy s = true := by
  unfold turnsToEnd busy
  cases s.prod.phase <;> simp

/-- Once the processor has stepped, what is left does not depend on a reply to come. -/
theorem turnsToEnd_past_cpu (b c : Nat) {q : Producer} (h : q.phase ≠ .cpu) : turnsToEnd b q = turnsToEnd c q := by
  unfold turnsToEnd
  split
  next hcpu => exact absurd hcpu h
  all_goals rfl

theorem turnsToEnd_mono {b c : Nat} (h : b ≤ c) (q : Producer) : turnsToEnd b q ≤ turnsToEnd c q := by
  by_cases hq : q.phase = .cpu
  · rw [turnsToEnd_cpu b hq, turnsToEnd_cpu c hq]
    omega
  · exact (turnsToEnd_past_cpu b c hq).le

/-! ### A turn of PROD in a step -/

/-- A step goes on from `s` to `t`, past the CPU phase, with one turn fewer to come. -/
def GoesOn (s t : State) : Prop :=
  (t.prod.phase = .vid ∨ t.prod.phase = .aud ∨ t.prod.phase = .stepEnd) ∧
    ∀ c, (s.prod.phase = .cpu → c = (procStep s).1.c.toNat) → turnsToEnd c s.prod = turnsToEnd c t.prod + 1

section Turn

variable {s t : State}

theorem goesOn_or_halts_cpu (hstream : s.prod.stream = .none) (hphase : s.prod.phase = .cpu)
    (h : prodTurn s = .next t) :
    t.prod.mode = s.prod.mode ∧ t.prod.budget = s.prod.budget ∧ (t.prod.phase = .halt ∨ GoesOn s t) := by
  obtain ⟨t', ht', -, -, -, -, hfault, hzero, hgo⟩ := cpuPhaseRule s _ hstream hphase rfl
  cases ht'.symm.trans h
  cases hf : (procStep s).1.fault with
  | true => rw [hfault hf]; exact ⟨rfl, rfl, .inl rfl⟩
  | false =>
    by_cases hc : (procStep s).1.c = 0#8
    · rw [hzero hf hc]; exact ⟨rfl, rfl, .inl rfl⟩
    · obtain ⟨hprod, hk⟩ := hgo hf hc
      have hvid : t.prod.phase = .vid := by rw [hprod]
      have hcur : t.prod.curC = (procStep s).1.c := by rw [hprod]
      refine ⟨by rw [hprod], by rw [hprod], .inr ⟨.inl hvid, fun c hcpu => ?_⟩⟩
      rw [turnsToEnd_cpu c hphase, turnsToEnd_vid c hvid, hk, hcur, hcpu hphase]
      omega

theorem goesOn_or_halts_vid (hstream : s.prod.stream = .none) (hphase : s.prod.phase = .vid)
    (h : prodTurn s = .next t) :
    t.prod.mode = s.prod.mode ∧ t.prod.budget = s.prod.budget ∧ (t.prod.phase = .halt ∨ GoesOn s t) := by
  have hk : 1 ≤ s.prod.k.toNat := one_le_k_of_vidPhase ((prodTurn_of_vid hstream hphase).symm.trans h)
  obtain ⟨t', ht', -, -, -, hppu, -, hmapper, hmore, hlast⟩ := vidPhaseRule s _ _ hstream hphase hk rfl rfl
  cases ht'.symm.trans h
  cases hf : (ppuTick s).1 with
  | true => rw [(hppu hf).1]; exact ⟨rfl, rfl, .inl rfl⟩
  | false =>
    cases hg : (mapperTick (ppuTick s).2).1 with
    | true => rw [hmapper hf hg]; exact ⟨rfl, rfl, .inl rfl⟩
    | false =>
      by_cases hone : s.prod.k.toNat = 1
      · obtain ⟨hprod, hkt⟩ := hlast hf hg hone
        have haud : t.prod.phase = .aud := by rw [hprod]
        refine ⟨by rw [hprod], by rw [hprod], .inr ⟨.inr (.inl haud), fun c _ => ?_⟩⟩
        rw [turnsToEnd_vid c hphase, turnsToEnd_aud c haud, hkt]
        omega
      · obtain ⟨hprod, hkt⟩ := hmore hf hg (by omega)
        have hvid : t.prod.phase = .vid := by rw [hprod, hphase]
        have hcur : t.prod.curC = s.prod.curC := by rw [hprod]
        refine ⟨by rw [hprod], by rw [hprod], .inr ⟨.inl hvid, fun c _ => ?_⟩⟩
        rw [turnsToEnd_vid c hphase, turnsToEnd_vid c hvid, hkt, hcur]
        omega

/-- An audio tick leaves the command's mode and budget alone (R165). -/
theorem samplePath_mode_budget {u : State} (h : samplePath s = .next u) :
    u.prod.mode = s.prod.mode ∧ u.prod.budget = s.prod.budget := by
  obtain ⟨a, f, w, hprod⟩ := samplePath_prod h
  rw [hprod]
  exact ⟨rfl, rfl⟩

theorem goesOn_or_halts_aud (hstream : s.prod.stream = .none) (hphase : s.prod.phase = .aud)
    (h : prodTurn s = .next t) :
    t.prod.mode = s.prod.mode ∧ t.prod.budget = s.prod.budget ∧ (t.prod.phase = .halt ∨ GoesOn s t) := by
  have haud := (prodTurn_of_aud hstream hphase).symm.trans h
  have hk : 1 ≤ s.prod.k.toNat := one_le_k_of_audPhase haud
  obtain ⟨hfault, htick⟩ := audPhaseRule s hstream hphase hk
  cases hf : (apuTick s).1 with
  | true =>
    obtain ⟨t', ht', hprod, -⟩ := hfault hf
    cases ht'.symm.trans h
    rw [hprod]
    exact ⟨rfl, rfl, .inl rfl⟩
  | false =>
    rw [audPhase_of_tick hk hf] at haud
    obtain ⟨u, hu, -⟩ := andThen_eq_next haud
    obtain ⟨t', ht', -, -, -, -, -, hprod, hkt, hphaset⟩ := htick hf u hu
    cases ht'.symm.trans h
    obtain ⟨hmode, hbudget⟩ := samplePath_mode_budget hu
    refine ⟨by rw [hprod]; exact hmode, by rw [hprod]; exact hbudget, .inr ?_⟩
    split at hphaset
    next hone =>
      refine ⟨.inr (.inr hphaset), fun c _ => ?_⟩
      rw [turnsToEnd_aud c hphase, turnsToEnd_stepEnd c hphaset, hone]
    next =>
      refine ⟨.inr (.inl hphaset), fun c _ => ?_⟩
      rw [turnsToEnd_aud c hphase, turnsToEnd_aud c hphaset, hkt]
      omega

theorem ticking_iff (s : State) :
    ticking s = true ↔ s.prod.phase = .cpu ∨ s.prod.phase = .vid ∨ s.prod.phase = .aud := by
  simp [ticking, or_assoc]

/-- Everything a turn of PROD does to a step before its END: it goes on or halts, under the same command. -/
theorem goesOn_or_halts (hstream : s.prod.stream = .none) (hticking : ticking s = true) (h : prodTurn s = .next t) :
    t.prod.mode = s.prod.mode ∧ t.prod.budget = s.prod.budget ∧ (t.prod.phase = .halt ∨ GoesOn s t) := by
  obtain hphase | hphase | hphase := (ticking_iff s).1 hticking
  · exact goesOn_or_halts_cpu hstream hphase h
  · exact goesOn_or_halts_vid hstream hphase h
  · exact goesOn_or_halts_aud hstream hphase h

/-- STEPSEC's turn in END: the step's ticks come off the budget, and the next step begins while some is left (R123). -/
theorem seconds_stepEnd (hstream : s.prod.stream = .none) (hphase : s.prod.phase = .stepEnd)
    (hmode : s.prod.mode = .seconds) (hfits : -2 ^ 63 + 255 ≤ s.prod.budget.toInt) (h : prodTurn s = .next t) :
    t.prod.mode = .seconds ∧ t.prod.stream = .none ∧ t.out = s.out ∧
      t.prod.budget.toInt = s.prod.budget.toInt - s.prod.curC.toNat ∧
      t.prod.phase = if 0 < t.prod.budget.toInt then .cpu else .idle := by
  obtain ⟨-, -, hseconds⟩ := endPhaseRule.1 s hstream hphase
  obtain ⟨b, ht, hb⟩ := hseconds hmode hfits
  cases ht.symm.trans h
  exact ⟨hmode, hstream, rfl, hb, rfl⟩

/-- A busy state is before its step's END or in it. -/
theorem ticking_or_stepEnd (h : busy s = true) : ticking s = true ∨ s.prod.phase = .stepEnd := by
  rw [ticking_iff]
  obtain h | h | h | h := (busy_iff s).1 h <;> simp [h]

/-- In a busy state of the invariant no stream command is in flight. -/
theorem stream_eq_none_of_busy (hinv : Inv s) (hbusy : busy s = true) : s.prod.stream = .none :=
  stream_eq_none_of_inv hinv fun hidle => by simp [busy, hidle] at hbusy

end Turn

/-! ### Runs -/

/-- A producer command's effect keeps the invariant. -/
theorem inv_effect {i : Instr} {s : State} (hi : i.mnemonic.port = .producer) (h : Inv s) (ha : accepting s = true) :
    Inv (effect i s) := by
  obtain ⟨hparams, hprod, hcons, hfifo, hstored⟩ := (inv_iff s).1 h
  have hno := noPush_exec hi (exec_of_accepting hi ha)
  exact (inv_iff _).2 ⟨hno.params ▸ hparams, producerOk_effect hparams ha hprod i, hno.cons ▸ hcons, hno.fifoOk hfifo,
    hno.storedOk hstored⟩

theorem runCommand_of_idle {s : State} (turns : List Agent) (h : busy s = false) : runCommand turns s = .next s := by
  cases turns with
  | nil => rfl
  | cons a rest => exact if_neg (Bool.eq_false_iff.1 h)

theorem runCommand_cons {s t : State} {a : Agent} (rest : List Agent) (hbusy : busy s = true)
    (h : agentTurn a s = .next t) : runCommand (a :: rest) s = runCommand rest t := by
  rw [runCommand, if_pos hbusy, h, andThen_next]

/-- What every turn of a busy PROD keeps, a run of the command keeps. -/
theorem runCommand_keeps {P : State → Prop}
    (hstep : ∀ a s t, P s → busy s = true → agentTurn a s = .next t → P t) {turns : List Agent} {s t : State}
    (hs : P s) (h : runCommand turns s = .next t) : P t := by
  induction turns generalizing s with
  | nil => cases h; exact hs
  | cons a rest ih =>
    cases hbusy : busy s with
    | false => rw [runCommand_of_idle _ hbusy] at h; cases h; exact hs
    | true =>
      rw [runCommand, if_pos hbusy] at h
      obtain ⟨u, hu, hrest⟩ := andThen_eq_next h
      exact ih (hstep a s u hs hbusy hu) hrest

/-- A turn of another agent leaves what is left of a step, and the command's mode and budget, alone. -/
theorem same_step_of_ne_prod {a : Agent} {s t : State} (ha : a ≠ .prod) (h : agentTurn a s = .next t) (c : Nat) :
    turnsToEnd c t.prod = turnsToEnd c s.prod ∧ t.prod.mode = s.prod.mode ∧ t.prod.budget = s.prod.budget := by
  obtain ⟨hprod, -⟩ := agentTurn_frame_of_ne_prod ha h
  rw [hprod]
  exact ⟨rfl, rfl, rfl⟩

theorem agentTurn_prod (s : State) : agentTurn .prod s = prodTurn s := rfl

/-! ### STEP and STEPSEC end (R253) -/

/-- The most turns that the steps after the one in progress need: STEPSEC runs a step of at most 1022 turns per tick of
its budget, and each step uses up a tick at least. -/
def laterTurns (q : Producer) : Nat := if q.mode = .seconds then 1022 * (q.budget.toInt.toNat - 1) else 0

/-- The most turns of PROD that the command in progress needs: a step has 255 ticks at most. -/
def turnsBound (q : Producer) : Nat := if turnsToEnd 255 q = 0 then 0 else turnsToEnd 255 q + laterTurns q

theorem turnsBound_pos_iff (s : State) : 0 < turnsBound s.prod ↔ busy s = true := by
  rw [← turnsToEnd_pos_iff 255, turnsBound]
  split <;> omega

theorem turnsBound_of_not_busy {s : State} (h : busy s = false) : turnsBound s.prod = 0 := by
  have := turnsBound_pos_iff s
  simp only [h, Bool.false_eq_true, iff_false] at this
  omega

theorem turnsBound_le (q : Producer) : turnsBound q ≤ turnsToEnd 255 q + laterTurns q := by
  unfold turnsBound
  split <;> omega

theorem turnsBound_of_busy {s : State} (h : busy s = true) :
    turnsBound s.prod = turnsToEnd 255 s.prod + laterTurns s.prod :=
  if_neg ((turnsToEnd_pos_iff 255 s).2 h).ne'

/-- A turn before END brings STEP or STEPSEC nearer to its end. -/
theorem turnsBound_ticking {s t : State} (hstream : s.prod.stream = .none) (hticking : ticking s = true)
    (hbusy : busy s = true) (h : prodTurn s = .next t) :
    turnsBound t.prod < turnsBound s.prod ∧ t.prod.mode = s.prod.mode := by
  obtain ⟨hmode, hbudget, hhalt | ⟨hphase, hturns⟩⟩ := goesOn_or_halts hstream hticking h
  · have hpos := (turnsBound_pos_iff s).2 hbusy
    rw [turnsBound_of_not_busy (s := t) (by simp [busy, hhalt])]
    exact ⟨hpos, hmode⟩
  · have hnot : t.prod.phase ≠ .cpu := by obtain hphase | hphase | hphase := hphase <;> rw [hphase] <;> decide
    have hexact := hturns (procStep s).1.c.toNat fun _ => rfl
    have hmost := turnsToEnd_mono (Nat.le_of_lt_succ (procStep s).1.c.isLt) s.prod
    have hsame := turnsToEnd_past_cpu 255 (procStep s).1.c.toNat hnot
    have hlater : laterTurns t.prod = laterTurns s.prod := by rw [laterTurns, laterTurns, hmode, hbudget]
    have hle := turnsBound_le t.prod
    rw [turnsBound_of_busy hbusy]
    exact ⟨by omega, hmode⟩

/-- A turn in END brings STEP to its end, and STEPSEC to its end or to the next step of a smaller budget. -/
theorem turnsBound_stepEnd {s t : State} (hinv : Inv s) (hmode : s.prod.mode ≠ .frame) (hphase : s.prod.phase = .stepEnd)
    (hbusy : busy s = true) (h : prodTurn s = .next t) :
    turnsBound t.prod < turnsBound s.prod ∧ t.prod.mode = s.prod.mode := by
  have hstream := stream_eq_none_of_busy hinv hbusy
  obtain ⟨-, ⟨hticks, hlow, -, hrun, -⟩, -⟩ := hinv
  have hc : 1 ≤ s.prod.curC.toNat := (ticksOk_stepEnd hphase).1 hticks
  have hpos := (turnsBound_pos_iff s).2 hbusy
  cases hm : s.prod.mode with
  | frame => exact absurd hm hmode
  | single =>
    cases ((endPhaseRule.1 s hstream hphase).1 hm).symm.trans h
    rw [turnsBound_of_not_busy rfl]
    exact ⟨hpos, hm⟩
  | seconds =>
    obtain ⟨hmodet, -, -, hbudget, hphaset⟩ := seconds_stepEnd hstream hphase hm (by omega) h
    refine ⟨?_, hmodet⟩
    split at hphaset
    next hgo =>
      have hle := turnsBound_le t.prod
      rw [turnsToEnd_cpu 255 hphaset, laterTurns, if_pos hmodet] at hle
      rw [turnsBound_of_busy hbusy, turnsToEnd_stepEnd 255 hphase, laterTurns, if_pos hm]
      omega
    next =>
      rw [turnsBound_of_not_busy (s := t) (by simp [busy, hphaset])]
      exact hpos

/-- A run of STEP or STEPSEC with as many turns of PROD as it may need ends. -/
theorem runCommand_ends {turns : List Agent} {s : State} (hinv : Inv s) (hmode : s.prod.mode ≠ .frame)
    (hturns : turnsBound s.prod ≤ turns.count .prod) : ∃ t, runCommand turns s = .next t ∧ busy t = false := by
  induction turns generalizing s with
  | nil =>
    refine ⟨s, rfl, Bool.eq_false_iff.2 fun hbusy => ?_⟩
    have := (turnsBound_pos_iff s).2 hbusy
    rw [List.count_nil] at hturns
    omega
  | cons a rest ih =>
    cases hbusy : busy s with
    | false => exact ⟨s, runCommand_of_idle _ hbusy, hbusy⟩
    | true =>
      obtain ⟨t, ht, hinvt⟩ := agentTurn_keeps_inv a hinv
      rw [runCommand_cons rest hbusy ht]
      by_cases ha : a = .prod
      · subst ha
        have hless : turnsBound t.prod < turnsBound s.prod ∧ t.prod.mode = s.prod.mode := by
          obtain hticking | hend := ticking_or_stepEnd hbusy
          · exact turnsBound_ticking (stream_eq_none_of_busy hinv hbusy) hticking hbusy ht
          · exact turnsBound_stepEnd hinv hmode hend hbusy ht
        rw [List.count_cons_self] at hturns
        exact ih hinvt (hless.2 ▸ hmode) (by omega)
      · obtain ⟨hleft, hmodet, hbudget⟩ := same_step_of_ne_prod ha ht 255
        have hsame : turnsBound t.prod = turnsBound s.prod := by
          rw [turnsBound, turnsBound, hleft, laterTurns, laterTurns, hmodet, hbudget]
        rw [List.count_cons_of_ne ha] at hturns
        exact ih hinvt (hmodet ▸ hmode) (hsame ▸ hturns)

/-- Settles O29: the bound falls with every turn of PROD; at acceptance it is 1022 for STEP and `1022 * B0` at most for
STEPSEC. -/
theorem steppingCommandsEnd : Obligations.SteppingCommandsEnd := by
  constructor
  · intro s s0 turns hinv ha h hturns
    cases (exec_of_accepting (i := .step) rfl ha).symm.trans h
    exact runCommand_ends (inv_effect rfl hinv ha) (by simp [effect]) hturns
  · intro s s0 us turns hinv ha h hturns
    cases (exec_of_accepting (i := .stepsec us) rfl ha).symm.trans h
    refine runCommand_ends (inv_effect rfl hinv ha) (by simp [effect]) (le_trans ?_ hturns)
    have hbudget := toInt_ofNat_of_lt (tickBudget_lt (bounds_of_paramsValid hinv.1).1 us)
    by_cases hpos : 0 < tickBudget s.params.fcpu us
    · have hle := turnsBound_le (effect (.stepsec us) s).prod
      rw [turnsToEnd_cpu 255 (if_pos hpos)] at hle
      simp only [laterTurns, effect, State.setProd_prod, hbudget, if_true] at hle ⊢
      omega
    · rw [turnsBound_of_not_busy (by simp [effect, busy, hpos])]
      exact Nat.zero_le _

/-! ### STEPSEC's overshoot (R124) -/

theorem procTicks_append (xs ys : List ExtCall) : procTicks (xs ++ ys) = procTicks xs + procTicks ys := by
  induction xs with
  | nil => exact (Nat.zero_add _).symm
  | cons x xs ih =>
    cases x <;> simp only [List.cons_append, procTicks, ih]
    omega

theorem procTicks_filter_isTick (xs : List ExtCall) : procTicks (xs.filter isTick) = procTicks xs := by
  induction xs with
  | nil => rfl
  | cons x xs ih => cases x <;> simp [List.filter_cons, isTick, procTicks, ih]

theorem procTicks_ticks (s : State) : procTicks s.ticks = procTicks s.out.calls := procTicks_filter_isTick _

theorem procTicks_eq_zero {xs : List ExtCall} (h : ∀ c ∈ xs, ∀ r, c ≠ .procStep r) : procTicks xs = 0 := by
  induction xs with
  | nil => rfl
  | cons x xs ih =>
    obtain ⟨hx, hxs⟩ := List.forall_mem_cons.1 h
    cases x with
    | procStep r => exact absurd rfl (hx r)
    | _ => exact ih hxs

/-- A fault-free step of `c` ticks counts `c`. -/
theorem procTicks_stepCalls (r : ProcReply) : procTicks (stepCalls r) = r.c.toNat := by
  rw [stepCalls, procTicks, procTicks_eq_zero, Nat.add_zero]
  intro c hc p
  obtain hc | hc := List.mem_append.1 hc
  · obtain rfl | rfl := eq_of_mem_pairCalls hc <;> simp
  · rw [List.eq_of_mem_replicate hc]
    simp

/-- A run of STEPSEC with initial budget `b0`, begun after `p0` ticks of the processor, has come to `s`: in a step, the
steps before it used up what BUDGET lacks of `b0`; in IDLE, all its steps did. -/
def SecondsSoFar (b0 p0 : Nat) (s : State) : Prop :=
  s.prod.mode = .seconds ∧
  match s.prod.phase with
  | .cpu | .vid | .aud | .stepEnd =>
    ∃ before, StepSoFar before s ∧ 0 < s.prod.budget.toInt ∧
      s.prod.budget.toInt = (b0 : Int) + (p0 : Int) - (procTicks before : Int)
  | .idle =>
    s.prod.budget.toInt = (b0 : Int) + (p0 : Int) - (procTicks s.out.calls : Int) ∧
      -254 ≤ s.prod.budget.toInt ∧ s.prod.budget.toInt ≤ 0
  | .halt => True

section SecondsSoFar

variable {b0 p0 : Nat} {s t : State}

theorem secondsSoFar_of_busy (hmode : s.prod.mode = .seconds) (hbusy : busy s = true) {before : List ExtCall}
    (hstep : StepSoFar before s) (hpos : 0 < s.prod.budget.toInt)
    (hbudget : s.prod.budget.toInt = (b0 : Int) + (p0 : Int) - (procTicks before : Int)) : SecondsSoFar b0 p0 s := by
  refine ⟨hmode, ?_⟩
  obtain hphase | hphase | hphase | hphase := (busy_iff s).1 hbusy <;> rw [hphase] <;>
    exact ⟨before, hstep, hpos, hbudget⟩

theorem SecondsSoFar.of_busy (h : SecondsSoFar b0 p0 s) (hbusy : busy s = true) :
    ∃ before, StepSoFar before s ∧ 0 < s.prod.budget.toInt ∧
      s.prod.budget.toInt = (b0 : Int) + (p0 : Int) - (procTicks before : Int) := by
  obtain ⟨-, h⟩ := h
  obtain hphase | hphase | hphase | hphase := (busy_iff s).1 hbusy <;> rw [hphase] at h <;> exact h

theorem secondsSoFar_of_halt (hmode : s.prod.mode = .seconds) (hphase : s.prod.phase = .halt) :
    SecondsSoFar b0 p0 s := by
  simp only [SecondsSoFar, hphase]
  exact ⟨hmode, trivial⟩

/-- A turn before END uses up no budget. -/
theorem secondsSoFar_ticking (hs : SecondsSoFar b0 p0 s) (hticking : ticking s = true) (hbusy : busy s = true)
    (h : prodTurn s = .next t) : SecondsSoFar b0 p0 t := by
  obtain ⟨before, hstep, hpos, hbudget⟩ := hs.of_busy hbusy
  obtain ⟨hmode, hsame, hhalt | ⟨hphase, -⟩⟩ := goesOn_or_halts hstep.1 hticking h
  · exact secondsSoFar_of_halt (hmode.trans hs.1) hhalt
  · refine secondsSoFar_of_busy (hmode.trans hs.1) ((busy_iff t).2 (.inr hphase))
      (stepSoFar_agentTurn (a := .prod) hstep hticking h) ?_ ?_ <;> rw [hsame]
    · exact hpos
    · exact hbudget

/-- A step at its END has counted its own ticks. -/
theorem procTicks_of_stepEnd {before : List ExtCall} (h : StepSoFar before s) (hphase : s.prod.phase = .stepEnd) :
    procTicks s.out.calls = procTicks before + s.prod.curC.toNat := by
  obtain ⟨-, h⟩ := h
  simp only [hphase] at h
  obtain ⟨r, done, -, -, hcur, hticks, hall⟩ := h
  rw [callsLeft_stepEnd hphase, List.append_nil] at hall
  rw [← procTicks_ticks, hticks, procTicks_append, hall, procTicks_stepCalls, hcur]

/-- A turn in END uses up the ticks of the step. -/
theorem secondsSoFar_stepEnd (hs : SecondsSoFar b0 p0 s) (hphase : s.prod.phase = .stepEnd)
    (h : prodTurn s = .next t) : SecondsSoFar b0 p0 t := by
  obtain ⟨before, hstep, hpos, hbudget⟩ := hs.of_busy ((busy_iff s).2 (.inr (.inr (.inr hphase))))
  obtain ⟨hmodet, hstreamt, hout, hleft, hphaset⟩ := seconds_stepEnd hstep.1 hphase hs.1 (by omega) h
  have hcount := procTicks_of_stepEnd hstep hphase
  have hc := s.prod.curC.isLt
  rw [← hout] at hcount
  split at hphaset
  next hgo =>
    refine secondsSoFar_of_busy hmodet (by simp [busy, hphaset]) (before := t.ticks)
      (stepSoFar_of_cpu hstreamt hphaset rfl) hgo ?_
    rw [procTicks_ticks]
    omega
  next =>
    refine ⟨hmodet, ?_⟩
    simp only [hphaset]
    exact ⟨by omega, by omega, by omega⟩

/-- Every turn of a run of STEPSEC keeps the account of its budget. -/
theorem secondsSoFar_agentTurn {a : Agent} (hs : SecondsSoFar b0 p0 s) (hbusy : busy s = true)
    (h : agentTurn a s = .next t) : SecondsSoFar b0 p0 t := by
  by_cases ha : a = .prod
  · subst ha
    obtain hticking | hphase := ticking_or_stepEnd hbusy
    · exact secondsSoFar_ticking hs hticking hbusy h
    · exact secondsSoFar_stepEnd hs hphase h
  · obtain ⟨before, hstep, hpos, hbudget⟩ := hs.of_busy hbusy
    obtain ⟨hprod, hcalls⟩ := agentTurn_frame_of_ne_prod ha h
    have hbusyt : busy t = true := by rw [busy, hprod]; exact hbusy
    obtain ⟨-, hmode, hsame⟩ := same_step_of_ne_prod ha h 0
    exact secondsSoFar_of_busy (hmode.trans hs.1) hbusyt (hstep.of_same hprod hcalls) (hsame ▸ hpos) (hsame ▸ hbudget)

end SecondsSoFar

/-- Settles O28: the run keeps the account of its budget, from the budget loaded at acceptance to the one left in IDLE. -/
theorem stepsecOvershoot : Obligations.StepsecOvershoot := by
  intro s s0 t us turns hinv ha h hrun hidle
  cases (exec_of_accepting (i := .stepsec us) rfl ha).symm.trans h
  obtain ⟨-, hstream⟩ := (accepting_iff s).1 ha
  have hbudget := toInt_ofNat_of_lt (tickBudget_lt (bounds_of_paramsValid hinv.1).1 us)
  by_cases hpos : 0 < tickBudget s.params.fcpu us
  · have hstart : SecondsSoFar (tickBudget s.params.fcpu us) (procTicks s.out.calls) (effect (.stepsec us) s) := by
      refine secondsSoFar_of_busy rfl (by simp [effect, busy, hpos]) (before := s.ticks)
        (stepSoFar_of_cpu hstream (if_pos hpos) rfl) ?_ ?_
      all_goals
        simp only [effect, State.setProd_prod, hbudget, procTicks_ticks]
        omega
    obtain ⟨-, hend⟩ := runCommand_keeps (fun a s t => secondsSoFar_agentTurn) hstart hrun
    simp only [hidle] at hend
    obtain ⟨hexact, hlow, hhigh⟩ := hend
    refine ⟨procTicks t.out.calls - procTicks s.out.calls, ?_, ?_, fun _ => ⟨?_, ?_⟩, ?_⟩ <;> omega
  · have hnot : busy (effect (.stepsec us) s) = false := by simp [effect, busy, hpos]
    rw [runCommand_of_idle _ hnot] at hrun
    cases hrun
    refine ⟨0, rfl, fun _ => rfl, fun h => absurd h hpos, ?_⟩
    simpa only [effect, State.setProd_prod, Int.natCast_zero, Int.sub_zero] using hbudget

/-! ### STEP takes exactly its turns (R253) -/

/-- The next `n` answers of a port are that there is no fault. -/
def StartsFalse (n : Nat) (answers : List Bool) : Prop := ∃ rest, answers = List.replicate n false ++ rest

/-- The next answer is that there is no fault, and it leaves the ones after it. -/
theorem StartsFalse.next {n : Nat} {answers : List Bool} (h : StartsFalse n answers) (hn : 1 ≤ n) :
    ∃ rest, answers = false :: rest ∧ StartsFalse (n - 1) rest := by
  obtain ⟨m, rfl⟩ := Nat.exists_eq_add_of_le' hn
  obtain ⟨rest, rfl⟩ := h
  exact ⟨List.replicate m false ++ rest, rfl, rest, rfl⟩

theorem procStep_of_head {s : State} {r : ProcReply} (h : s.world.proc.head? = some r) : (procStep s).1 = r := by
  obtain ⟨ps, hps⟩ := List.head?_eq_some_iff.1 h
  simp [procStep, hps, nextReply]

theorem ppuTick_of_cons {s : State} {b : Bool} {rest : List Bool} (h : s.world.ppuFaults = b :: rest) :
    (ppuTick s).1 = b ∧ (ppuTick s).2.world = { s.world with ppuFaults := rest } := by
  simp [ppuTick, h, nextReply]

theorem mapperTick_of_cons {s : State} {b : Bool} {rest : List Bool} (h : s.world.mapperFaults = b :: rest) :
    (mapperTick s).1 = b ∧ (mapperTick s).2.world = { s.world with mapperFaults := rest } := by
  simp [mapperTick, h, nextReply]

theorem apuTick_of_cons {s : State} {b : Bool} {rest : List Bool} (h : s.world.apuFaults = b :: rest) :
    (apuTick s).1 = b ∧ (apuTick s).2.world = { s.world with apuFaults := rest } := by
  simp [apuTick, h, nextReply]

/-- The step in progress has the processor's reply `r`, and its units have no fault ahead of them. -/
def FaultFree (r : ProcReply) (s : State) : Prop :=
  match s.prod.phase with
  | .cpu =>
    s.world.proc.head? = some r ∧ StartsFalse (3 * r.c.toNat) s.world.ppuFaults ∧
      StartsFalse (3 * r.c.toNat) s.world.mapperFaults ∧ StartsFalse r.c.toNat s.world.apuFaults
  | .vid =>
    s.prod.curC = r.c ∧ StartsFalse s.prod.k.toNat s.world.ppuFaults ∧
      StartsFalse s.prod.k.toNat s.world.mapperFaults ∧ StartsFalse r.c.toNat s.world.apuFaults
  | .aud => s.prod.curC = r.c ∧ StartsFalse s.prod.k.toNat s.world.apuFaults
  | .stepEnd => s.prod.curC = r.c
  | .idle | .halt => False

section FaultFree

variable {r : ProcReply} {s t : State}

theorem faultFree_cpuTurn (hf : r.fault = false) (hc : 0 < r.c.toNat) (hstream : s.prod.stream = .none)
    (hphase : s.prod.phase = .cpu) (hs : FaultFree r s) (h : prodTurn s = .next t) : FaultFree r t := by
  simp only [FaultFree, hphase] at hs
  obtain ⟨hproc, hppu, hmapper, hapu⟩ := hs
  have hreply := procStep_of_head hproc
  have hne : (procStep s).1.c ≠ 0#8 := by
    rw [hreply]
    rintro h0
    simp [h0] at hc
  rw [prodTurn_of_cpu hstream hphase, cpuPhase_of_ticks (by rw [hreply, hf]) hne, hreply] at h
  cases h
  have hk : (BitVec.ofNat 10 (3 * r.c.toNat)).toNat = 3 * r.c.toNat := by
    rw [BitVec.toNat_ofNat]
    omega
  refine ⟨rfl, ?_, ?_, hapu⟩ <;> simp only [State.setProd_prod, hk]
  · exact hppu
  · exact hmapper

theorem faultFree_vidTurn (hstream : s.prod.stream = .none) (hphase : s.prod.phase = .vid) (hs : FaultFree r s)
    (h : prodTurn s = .next t) : FaultFree r t := by
  rw [prodTurn_of_vid hstream hphase] at h
  have hk := one_le_k_of_vidPhase h
  simp only [FaultFree, hphase] at hs
  obtain ⟨hcur, hppu, hmapper, hapu⟩ := hs
  obtain ⟨ps, hps, hps'⟩ := hppu.next hk
  obtain ⟨ms, hms, hms'⟩ := hmapper.next hk
  obtain ⟨hf, hw⟩ := ppuTick_of_cons hps
  obtain ⟨hg, hw'⟩ := mapperTick_of_cons (s := (ppuTick s).2) (rest := ms) (by rw [hw]; exact hms)
  rw [vidPhase_of_pair hk hf hg] at h
  split at h <;> cases h
  · refine ⟨hcur, ?_⟩
    simp only [State.setProd_prod, State.setProd_world, hcur, BitVec.toNat_setWidth_of_le (show 8 ≤ 10 by decide)]
    rw [hw', hw]
    exact hapu
  · simp only [FaultFree, State.setProd_prod, State.setProd_world, hphase, toNat_ticks_sub_one hk]
    rw [hw', hw]
    exact ⟨hcur, hps', hms', hapu⟩

/-- The sample path asks the audio unit for no tick. -/
theorem samplePath_apuFaults (h : samplePath s = .next t) : t.world.apuFaults = s.world.apuFaults := by
  have hstage : ∀ i x u, (stageStep i x u).2.world.apuFaults = u.world.apuFaults := by
    intro i x u
    simp only [stageStep, State.setPath_world, stageArith]
    split <;> rfl
  obtain ⟨-, rfl⟩ | ⟨-, -, rfl⟩ | ⟨-, -, -, rfl⟩ := samplePath_cases h
  · rfl
  · rfl
  · rw [emitSample_eq]
    split
    · rw [push_world, chain, hstage, hstage, hstage]; rfl
    · rw [chain, hstage, hstage, hstage]; rfl

theorem faultFree_audTurn (hstream : s.prod.stream = .none) (hphase : s.prod.phase = .aud) (hs : FaultFree r s)
    (h : prodTurn s = .next t) : FaultFree r t := by
  have haud := (prodTurn_of_aud hstream hphase).symm.trans h
  have hk : 1 ≤ s.prod.k.toNat := one_le_k_of_audPhase haud
  simp only [FaultFree, hphase] at hs
  obtain ⟨hcur, hapu⟩ := hs
  obtain ⟨as, has, has'⟩ := hapu.next hk
  obtain ⟨hf, hw⟩ := apuTick_of_cons has
  rw [audPhase_of_tick hk hf] at haud
  obtain ⟨u, hu, -⟩ := andThen_eq_next haud
  obtain ⟨t', ht', -, -, -, -, hworld, hprod, hkt, hphaset⟩ := (audPhaseRule s hstream hphase hk).2 hf u hu
  cases ht'.symm.trans h
  have hcurt : t.prod.curC = r.c := by
    rw [hprod]
    exact (samplePath_seq hu).2.2.1.trans hcur
  unfold FaultFree
  split at hphaset <;> simp only [hphaset]
  · exact hcurt
  · refine ⟨hcurt, ?_⟩
    rw [hkt, hworld, samplePath_apuFaults hu, hw]
    exact has'

/-- A turn of CONS takes none of the answers of PROD's units. -/
theorem consTurn_world (h : consTurn s = .next t) :
    t.world.proc = s.world.proc ∧ t.world.ppuFaults = s.world.ppuFaults ∧
      t.world.mapperFaults = s.world.mapperFaults ∧ t.world.apuFaults = s.world.apuFaults := by
  have hexec : ∀ (i : Instr) (u v : State), i.mnemonic.port = .consumer → exec i u = .next v → v.world = u.world := by
    intro i u v hi hv
    cases i with
    | frame =>
      simp only [exec, execFrame] at hv
      split at hv <;> cases hv
      · rfl
      · exact playFrame_world u
    | flush => cases hv; rfl
    | setch n =>
      simp only [exec, execSetch] at hv
      split at hv <;> cases hv <;> rfl
    | step | stepframe | stepsec _ | reset | setbtn _ _ | config _ | disable | attach | detach | snapshot | restore =>
      cases hi
  simp only [consTurn, runConsumerWord] at h
  split at h
  · cases h; exact ⟨rfl, rfl, rfl, rfl⟩
  · split at h
    next => cases h; exact ⟨rfl, rfl, rfl, rfl⟩
    next hd =>
      rw [hexec _ _ _ (port_of_decode hd) h]
      exact ⟨rfl, rfl, rfl, rfl⟩

/-- A turn of another agent adds no fault. -/
theorem faultFree_of_ne_prod {a : Agent} (ha : a ≠ .prod) (hs : FaultFree r s) (h : agentTurn a s = .next t) :
    FaultFree r t := by
  obtain ⟨hprod, -⟩ := agentTurn_frame_of_ne_prod ha h
  have hworld : t.world.proc = s.world.proc ∧ t.world.ppuFaults = s.world.ppuFaults ∧
      t.world.mapperFaults = s.world.mapperFaults ∧ t.world.apuFaults = s.world.apuFaults := by
    cases a with
    | prod => exact absurd rfl ha
    | cons => exact consTurn_world h
    | syncW | syncR => cases h; exact ⟨rfl, rfl, rfl, rfl⟩
  obtain ⟨hproc, hppu, hmapper, hapu⟩ := hworld
  unfold FaultFree at *
  rw [hprod, hproc, hppu, hmapper, hapu]
  exact hs

end FaultFree

/-- A fault-free STEP, begun after the tick requests `before`, has `n` turns of PROD to come: it is in its step, or it is
done and has issued the ticks of one step. -/
def OnCourse (r : ProcReply) (before : List ExtCall) (n : Nat) (s : State) : Prop :=
  (busy s = true ∧ s.prod.mode = .single ∧ n = turnsToEnd r.c.toNat s.prod ∧ StepSoFar before s ∧ FaultFree r s) ∨
    (n = 0 ∧ accepting s = true ∧ s.prod.lastC = r.c ∧ s.ticks = before ++ stepCalls r)

section OnCourse

variable {r : ProcReply} {before : List ExtCall} {n : Nat} {s t : State}

/-- A fault-free step is over in its END, with the processor's `c` and the ticks of one step. -/
theorem ticks_of_stepEnd (hf : r.fault = false) (hphase : s.prod.phase = .stepEnd) (hstep : StepSoFar before s)
    (hfree : FaultFree r s) : s.ticks = before ++ stepCalls r := by
  obtain ⟨-, hstep⟩ := hstep
  simp only [hphase] at hstep
  simp only [FaultFree, hphase] at hfree
  obtain ⟨⟨c, fault⟩, done, hfault, -, hcur, hticks, hall⟩ := hstep
  rw [callsLeft_stepEnd hphase, List.append_nil] at hall
  obtain rfl : (⟨c, fault⟩ : ProcReply) = r := by
    obtain ⟨_, _⟩ := r
    simp_all
  rw [hticks, hall]

/-- A turn of PROD takes one off the turns that a fault-free STEP has to come. -/
theorem onCourse_prodTurn (hf : r.fault = false) (hc : 0 < r.c.toNat) (hs : OnCourse r before n s)
    (hbusy : busy s = true) (h : prodTurn s = .next t) : OnCourse r before (n - 1) t := by
  obtain ⟨-, hmode, rfl, hstep, hfree⟩ | ⟨-, ha, -⟩ := hs
  · obtain hticking | hphase := ticking_or_stepEnd hbusy
    · have hfreet : FaultFree r t := by
        obtain hphase | hphase | hphase := (ticking_iff s).1 hticking
        · exact faultFree_cpuTurn hf hc hstep.1 hphase hfree h
        · exact faultFree_vidTurn hstep.1 hphase hfree h
        · exact faultFree_audTurn hstep.1 hphase hfree h
      obtain ⟨hmodet, -, hhalt | ⟨hphaset, hturns⟩⟩ := goesOn_or_halts hstep.1 hticking h
      · simp [FaultFree, hhalt] at hfreet
      · have hleft := hturns r.c.toNat fun hcpu => by
          simp only [FaultFree, hcpu] at hfree
          rw [procStep_of_head hfree.1]
        exact .inl ⟨(busy_iff t).2 (.inr hphaset), hmodet.trans hmode, by omega,
          stepSoFar_agentTurn (a := .prod) hstep hticking h, hfreet⟩
    · have hticks := ticks_of_stepEnd hf hphase hstep hfree
      cases ((endPhaseRule.1 s hstep.1 hphase).1 hmode).symm.trans h
      simp only [FaultFree, hphase] at hfree
      exact .inr ⟨by rw [turnsToEnd_stepEnd _ hphase], (accepting_iff _).2 ⟨rfl, hstep.1⟩, hfree, hticks⟩
  · simp [busy, ((accepting_iff s).1 ha).1] at hbusy

/-- A turn of another agent leaves a STEP in progress on its course. -/
theorem onCourse_of_ne_prod {a : Agent} (ha : a ≠ .prod) (hs : OnCourse r before n s) (hbusy : busy s = true)
    (h : agentTurn a s = .next t) : OnCourse r before n t := by
  obtain ⟨-, hmode, hn, hstep, hfree⟩ | ⟨-, hacc, -⟩ := hs
  · obtain ⟨hprod, hcalls⟩ := agentTurn_frame_of_ne_prod ha h
    obtain ⟨hleft, hmodet, -⟩ := same_step_of_ne_prod ha h r.c.toNat
    have hbusyt : busy t = true := by rw [busy, hprod]; exact hbusy
    exact .inl ⟨hbusyt, hmodet.trans hmode, hn.trans hleft.symm, hstep.of_same hprod hcalls,
      faultFree_of_ne_prod ha hfree h⟩
  · simp [busy, ((accepting_iff s).1 hacc).1] at hbusy

/-- A run of a fault-free STEP takes off as many turns as its schedule gives PROD, and stops when none is left. -/
theorem onCourse_runCommand {turns : List Agent} (hf : r.fault = false) (hc : 0 < r.c.toNat) (hinv : Inv s)
    (hs : OnCourse r before n s) :
    ∃ t, runCommand turns s = .next t ∧ OnCourse r before (n - turns.count .prod) t := by
  induction turns generalizing s n with
  | nil => exact ⟨s, rfl, hs⟩
  | cons a rest ih =>
    cases hbusy : busy s with
    | false =>
      obtain ⟨hb, -⟩ | ⟨rfl, hdone⟩ := hs
      · simp [hbusy] at hb
      · rw [runCommand_of_idle _ hbusy, Nat.zero_sub]
        exact ⟨s, rfl, .inr ⟨rfl, hdone⟩⟩
    | true =>
      obtain ⟨t, ht, hinvt⟩ := agentTurn_keeps_inv a hinv
      rw [runCommand_cons rest hbusy ht]
      by_cases ha : a = .prod
      · subst ha
        rw [List.count_cons_self, Nat.add_comm, ← Nat.sub_sub]
        exact ih hinvt (onCourse_prodTurn hf hc hs hbusy ht)
      · rw [List.count_cons_of_ne ha]
        exact ih hinvt (onCourse_of_ne_prod ha hs hbusy ht)

end OnCourse

/-- Settles O27: at acceptance `2 + 4 * c` turns are to come, and each turn of PROD takes one off, so that the step is
done when none is left and busy while some are. -/
theorem stepTakesItsTurns : Obligations.StepTakesItsTurns := by
  intro s s0 r ps fs gs as turns hinv ha hf hc hproc hppu hmapper hapu h
  cases (exec_of_accepting (i := .step) rfl ha).symm.trans h
  obtain ⟨-, hstream⟩ := (accepting_iff s).1 ha
  have hfree : FaultFree r (effect .step s) := ⟨congrArg List.head? hproc, ⟨fs, hppu⟩, ⟨gs, hmapper⟩, ⟨as, hapu⟩⟩
  have hstart : OnCourse r s.ticks (2 + 4 * r.c.toNat) (effect .step s) :=
    .inl ⟨rfl, rfl, rfl, stepSoFar_of_cpu hstream rfl rfl, hfree⟩
  obtain ⟨t, ht, hcourse⟩ := onCourse_runCommand (turns := turns) hf hc (inv_effect rfl hinv ha) hstart
  refine ⟨fun henough => ⟨t, ht, ?_⟩, fun hfewer => ⟨t, ht, ?_⟩⟩
  · obtain ⟨hbusy, -, hn, -⟩ | ⟨-, hdone⟩ := hcourse
    · have := (turnsToEnd_pos_iff r.c.toNat t).2 hbusy
      omega
    · exact hdone
  · obtain ⟨hbusy, -⟩ | ⟨hn, -⟩ := hcourse
    · exact hbusy
    · omega

end Sys2Proof.Machine

namespace Sys2Proof.Machine

/-! ## Binary32 patterns and their values

A finite pattern stands for an integer times a power of two; negation flips its sign and nothing else. -/

/-! ### Negation and packing -/

/-- The view of the negated pattern (R172). -/
def F32View.negate : F32View → F32View
  | .nan => .nan
  | .inf neg => .inf !neg
  | .fin neg m e => .fin (!neg) m e

theorem viewF32_negF32 (w : F32) : viewF32 (negF32 w) = (viewF32 w).negate := by
  have hexp : (negF32 w).extractLsb' 23 8 = w.extractLsb' 23 8 := by simp [negF32, BitVec.extractLsb'_xor]
  have hfrac : (negF32 w).extractLsb' 0 23 = w.extractLsb' 0 23 := by simp [negF32, BitVec.extractLsb'_xor]
  have hsign : (negF32 w).getLsbD 31 = !w.getLsbD 31 := by simp [negF32]
  simp only [viewF32, hexp, hfrac, hsign]
  split_ifs <;> rfl

theorem isNaN_negF32 (w : F32) : isNaN (negF32 w) = isNaN w := by
  simp only [isNaN, viewF32_negF32]
  cases viewF32 w <;> simp [F32View.negate]

theorem viewF32_eq_nan {w : F32} (h : isNaN w = true) : viewF32 w = .nan := of_decide_eq_true h

theorem packF32_toNat (neg : Bool) {low : Nat} (h : low < 2 ^ 31) :
    (packF32 neg low).toNat = (if neg = true then 2 ^ 31 else 0) + low := by
  rw [packF32, BitVec.toNat_ofNat, Nat.mod_eq_of_lt]
  split_ifs <;> omega

theorem packF32_sign (neg : Bool) {low : Nat} (h : low < 2 ^ 31) : (packF32 neg low).getLsbD 31 = neg := by
  have hlow : low.testBit 31 = false := Nat.testBit_lt_two_pow h
  cases neg <;> simp [packF32, BitVec.getLsbD_ofNat, Nat.testBit_two_pow_add_eq, hlow, -Nat.reducePow,
    -BitVec.getLsbD_eq_getElem]

theorem packF32_low (neg : Bool) (low : Nat) {i : Nat} (hi : i < 31) :
    (packF32 neg low).getLsbD i = low.testBit i := by
  have hwidth : i < 32 := by omega
  cases neg <;> simp [packF32, BitVec.getLsbD_ofNat, hwidth, Nat.testBit_two_pow_add_gt hi, -Nat.reducePow,
    -BitVec.getLsbD_eq_getElem]

/-- Flipping the sign bit of a packed pattern. -/
theorem packF32_not (neg : Bool) {low : Nat} (h : low < 2 ^ 31) : packF32 (!neg) low = negF32 (packF32 neg low) := by
  have hmask : 0x80000000#32 = BitVec.twoPow 32 31 := by decide
  refine BitVec.eq_of_getLsbD_eq fun i hi => ?_
  rw [negF32, hmask, BitVec.getLsbD_xor, BitVec.getLsbD_twoPow]
  obtain hlt | rfl : i < 31 ∨ i = 31 := by omega
  · simp [packF32_low, hlt, show 31 ≠ i by omega]
  · rw [packF32_sign _ h, packF32_sign _ h]
    simp

/-! ### The parts of the rounding -/

/-- The exponent of the last place of `m * 2^e`. -/
def lastPlace (m : Nat) (e : Int) : Int := max (e + (Nat.log2 m : Int) - 23) (-149)

/-- `m * 2^e` in units of `2^ulp`, to the nearest integer, ties to even. -/
def nearestMultiple (m : Nat) (e ulp : Int) : Nat :=
  if ulp ≤ e then m * 2 ^ (e - ulp).toNat
  else if 2 ^ (ulp - e).toNat < 2 * (m % 2 ^ (ulp - e).toNat) ∨
      2 ^ (ulp - e).toNat = 2 * (m % 2 ^ (ulp - e).toNat) ∧ m / 2 ^ (ulp - e).toNat % 2 = 1 then
    m / 2 ^ (ulp - e).toNat + 1
  else m / 2 ^ (ulp - e).toNat

/-- The low 31 bits of the rounded value, before it is compared with infinity. -/
def roundedLow (m : Nat) (e : Int) : Nat :=
  (lastPlace m e + 149).toNat * 2 ^ 23 + nearestMultiple m e (lastPlace m e)

theorem roundF32_zero (neg : Bool) (e : Int) : roundF32 neg 0 e = packF32 neg 0 := rfl

theorem roundF32_of_ne_zero (neg : Bool) {m : Nat} (e : Int) (h : m ≠ 0) :
    roundF32 neg m e =
      if 0x7F800000 ≤ roundedLow m e then infF32 neg else packF32 neg (roundedLow m e) := if_neg h

/-- Rounding treats both signs alike. -/
theorem roundF32_not (neg : Bool) (m : Nat) (e : Int) : roundF32 (!neg) m e = negF32 (roundF32 neg m e) := by
  obtain rfl | hm := eq_or_ne m 0
  · exact packF32_not neg (by omega)
  · rw [roundF32_of_ne_zero _ _ hm, roundF32_of_ne_zero _ _ hm]
    split_ifs
    · exact packF32_not neg (by omega)
    · exact packF32_not neg (by omega)

/-! ### The value of a finite pattern -/

theorem viewF32_of_finite {w : F32} (h : isFinite w = true) : ∃ neg m e, viewF32 w = .fin neg m e := by
  unfold isFinite at h
  split at h
  · exact ⟨_, _, _, ‹_›⟩
  · cases h

theorem isFinite_of_view {w : F32} {neg : Bool} {m : Nat} {e : Int} (h : viewF32 w = .fin neg m e) :
    isFinite w = true := by simp [isFinite, h]

@[simp] theorem isFinite_markNaN : isFinite markNaN = false := by decide

@[simp] theorem isFinite_infF32 (neg : Bool) : isFinite (infF32 neg) = false := by cases neg <;> decide

theorem f32Value_of_view {w : F32} {neg : Bool} {m : Nat} {e : Int} (h : viewF32 w = .fin neg m e) :
    f32Value w = exactValue neg m e := by simp [f32Value, h]

theorem signedNat_not (neg : Bool) (m : Nat) : signedNat (!neg) m = -signedNat neg m := by
  cases neg <;> simp [signedNat]

theorem isFinite_negF32 {w : F32} (h : isFinite w = true) : isFinite (negF32 w) = true := by
  obtain ⟨neg, m, e, hw⟩ := viewF32_of_finite h
  exact isFinite_of_view (by rw [viewF32_negF32, hw]; rfl)

theorem f32Value_negF32 {w : F32} (h : isFinite w = true) : f32Value (negF32 w) = -f32Value w := by
  obtain ⟨neg, m, e, hw⟩ := viewF32_of_finite h
  have hneg : viewF32 (negF32 w) = .fin (!neg) m e := by rw [viewF32_negF32, hw]; rfl
  rw [f32Value_of_view hneg, f32Value_of_view hw, exactValue, exactValue, signedNat_not]
  push_cast
  ring

/-! ### The operations by what their operands stand for -/

theorem mulF32_nan_left {a : F32} (b : F32) (h : isNaN a = true) : mulF32 a b = markNaN := by
  rw [mulF32, viewF32_eq_nan h]

theorem mulF32_nan_right (a : F32) {b : F32} (h : isNaN b = true) : mulF32 a b = markNaN := by
  rw [mulF32, viewF32_eq_nan h]
  cases viewF32 a <;> rfl

theorem addF32_nan_left {a : F32} (b : F32) (h : isNaN a = true) : addF32 a b = markNaN := by
  rw [addF32, viewF32_eq_nan h]

theorem addF32_nan_right (a : F32) {b : F32} (h : isNaN b = true) : addF32 a b = markNaN := by
  rw [addF32, viewF32_eq_nan h]
  cases viewF32 a <;> rfl

theorem subF32_nan_left {a : F32} (b : F32) (h : isNaN a = true) : subF32 a b = markNaN := addF32_nan_left _ h

theorem subF32_nan_right (a : F32) {b : F32} (h : isNaN b = true) : subF32 a b = markNaN :=
  addF32_nan_right _ (by rw [isNaN_negF32, h])

theorem isNaN_markNaN : isNaN markNaN = true := by decide

theorem addF32_fin {a b : F32} {x y : Bool} {m n : Nat} {e f : Int} (ha : viewF32 a = .fin x m e)
    (hb : viewF32 b = .fin y n f) :
    addF32 a b =
      if signedNat x (m * 2 ^ (e - min e f).toNat) + signedNat y (n * 2 ^ (f - min e f).toNat) = 0 then
        zeroF32 (x && y)
      else
        roundF32
          (decide (signedNat x (m * 2 ^ (e - min e f).toNat) + signedNat y (n * 2 ^ (f - min e f).toNat) < 0))
          (signedNat x (m * 2 ^ (e - min e f).toNat) + signedNat y (n * 2 ^ (f - min e f).toNat)).natAbs (min e f) := by
  rw [addF32, ha, hb]

theorem mulF32_fin {a b : F32} {x y : Bool} {m n : Nat} {e f : Int} (ha : viewF32 a = .fin x m e)
    (hb : viewF32 b = .fin y n f) : mulF32 a b = roundF32 (x != y) (m * n) (e + f) := by
  rw [mulF32, ha, hb]

/-- Only finite operands have a finite product. -/
theorem finite_of_mulF32_finite {a b : F32} (h : isFinite (mulF32 a b) = true) :
    isFinite a = true ∧ isFinite b = true := by
  unfold mulF32 at h
  split at h
  case h_6 ha hb => exact ⟨isFinite_of_view ha, isFinite_of_view hb⟩
  all_goals simp [apply_ite isFinite] at h

/-! ### Sums, differences and products are rounded once -/

/-- A signed integer is its sign and its size. -/
theorem exactValue_natAbs (n : Int) (e : Int) : exactValue (decide (n < 0)) n.natAbs e = n * (2 : Rat) ^ e := by
  have hsigned : signedNat (decide (n < 0)) n.natAbs = n := by
    simp only [signedNat, decide_eq_true_eq]
    split_ifs <;> omega
  rw [exactValue, hsigned]

/-- The exact value on a finer scale. -/
theorem signedNat_scaled (neg : Bool) (m : Nat) {e g : Int} (h : g ≤ e) :
    (signedNat neg (m * 2 ^ (e - g).toNat) : Rat) * (2 : Rat) ^ g = exactValue neg m e := by
  have hpow : (2 : Rat) ^ (e - g).toNat * (2 : Rat) ^ g = (2 : Rat) ^ e := by
    rw [← zpow_natCast, ← zpow_add₀ two_ne_zero]
    congr 1
    omega
  rw [exactValue, ← hpow]
  cases neg <;> simp [signedNat] <;> ring

theorem addF32_rounds {a b : F32} (ha : isFinite a = true) (hb : isFinite b = true)
    (hsum : f32Value a + f32Value b ≠ 0) :
    ∃ neg m e, exactValue neg m e = f32Value a + f32Value b ∧ addF32 a b = roundF32 neg m e := by
  obtain ⟨x, m, e, hva⟩ := viewF32_of_finite ha
  obtain ⟨y, n, f, hvb⟩ := viewF32_of_finite hb
  generalize hg : signedNat x (m * 2 ^ (e - min e f).toNat) + signedNat y (n * 2 ^ (f - min e f).toNat) = sum
  have hexact : (sum : Rat) * (2 : Rat) ^ min e f = f32Value a + f32Value b := by
    rw [f32Value_of_view hva, f32Value_of_view hvb, ← signedNat_scaled x m (min_le_left e f),
      ← signedNat_scaled y n (min_le_right e f), ← hg]
    push_cast
    ring
  have hne : sum ≠ 0 := by
    rintro rfl
    exact hsum (by rw [← hexact]; simp)
  refine ⟨decide (sum < 0), sum.natAbs, min e f, by rw [exactValue_natAbs, hexact], ?_⟩
  rw [addF32_fin hva hvb, hg, if_neg hne]

theorem mulF32_rounds {a b : F32} (ha : isFinite a = true) (hb : isFinite b = true) :
    ∃ neg m e, exactValue neg m e = f32Value a * f32Value b ∧ mulF32 a b = roundF32 neg m e := by
  obtain ⟨x, m, e, hva⟩ := viewF32_of_finite ha
  obtain ⟨y, n, f, hvb⟩ := viewF32_of_finite hb
  have hsign : signedNat (x != y) (m * n) = signedNat x m * signedNat y n := by
    cases x <;> cases y <;> simp [signedNat]
  refine ⟨x != y, m * n, e + f, ?_, mulF32_fin hva hvb⟩
  rw [f32Value_of_view hva, f32Value_of_view hvb, exactValue, exactValue, exactValue, hsign,
    zpow_add₀ two_ne_zero]
  push_cast
  ring

/-- Settles O36: a difference is the sum with the negated operand. -/
theorem arithmeticRoundsExact : Obligations.ArithmeticRoundsExact := by
  intro a b ha hb
  refine ⟨addF32_rounds ha hb, fun hdiff => ?_, mulF32_rounds ha hb⟩
  rw [sub_eq_add_neg, ← f32Value_negF32 hb] at hdiff ⊢
  exact addF32_rounds ha (isFinite_negF32 hb) hdiff

end Sys2Proof.Machine

namespace Sys2Proof.Machine

/-! ## Rounding to the nearest value, ties to even

Measured in units of the result's last place, the exact value is some `t` and the result an integer within one half of
it. Another binary32 value is either an integer in these units as well, or it lies below the least value that has this
last place, and then `t` does not. -/

/-! ### The nearest integer -/

/-- `n` is the integer nearest to `t`, the even one of two. -/
def NearestInt (n : Nat) (t : Rat) : Prop := |(n : Rat) - t| ≤ 1 / 2 ∧ (|(n : Rat) - t| = 1 / 2 → n % 2 = 0)

theorem NearestInt.le_abs_sub {n : Nat} {t : Rat} (h : NearestInt n t) {j : Int} (hj : j ≠ n) :
    1 / 2 ≤ |(j : Rat) - t| := by
  have hapart : (1 : Rat) ≤ |(j : Rat) - n| := by
    have : (1 : Int) ≤ |j - n| := Int.one_le_abs (sub_ne_zero.mpr hj)
    exact_mod_cast this
  have htriangle : |(j : Rat) - n| ≤ |(j : Rat) - t| + |(n : Rat) - t| := by
    rw [abs_sub_comm (n : Rat) t]
    exact abs_sub_le _ _ _
  linarith [h.1]

theorem NearestInt.le {n : Nat} {t : Rat} (h : NearestInt n t) (j : Int) : |(n : Rat) - t| ≤ |(j : Rat) - t| := by
  obtain rfl | hj := eq_or_ne j n
  · simp
  · exact h.1.trans (h.le_abs_sub hj)

theorem NearestInt.even_of_tie {n : Nat} {t : Rat} (h : NearestInt n t) {j : Int} (hj : j ≠ n)
    (htie : |(j : Rat) - t| = |(n : Rat) - t|) : n % 2 = 0 :=
  h.2 (le_antisymm h.1 (htie ▸ h.le_abs_sub hj))

theorem NearestInt.le_of_lt {n : Nat} {t : Rat} (h : NearestInt n t) {bound : Nat} (ht : t < bound) : n ≤ bound := by
  have hclose := (abs_le.mp h.1).2
  have : (n : Rat) < (bound + 1 : Nat) := by
    push_cast
    linarith
  exact Nat.lt_succ_iff.mp (by exact_mod_cast this)

theorem NearestInt.ge_of_ge {n : Nat} {t : Rat} (h : NearestInt n t) {bound : Nat} (ht : bound ≤ t) : bound ≤ n := by
  have hclose := (abs_le.mp h.1).1
  have : (bound : Rat) < (n + 1 : Nat) := by
    push_cast
    linarith
  exact Nat.lt_succ_iff.mp (by exact_mod_cast this)

theorem nearestInt_natCast (n : Nat) : NearestInt n n := by simp [NearestInt]

theorem nearestInt_of_scaled {n m cut : Nat} (hcut : 0 < cut) {d : Int} (hd : (n : Int) * cut - m = d)
    (hle : |2 * d| ≤ cut) (heven : |2 * d| = cut → n % 2 = 0) : NearestInt n (m / cut) := by
  have hpos : (0 : Rat) < cut := by exact_mod_cast hcut
  have hdist : |(n : Rat) - m / cut| = (|2 * d| : Int) / (2 * cut) := by
    have hdiff : (n : Rat) - m / cut = (2 * d) / (2 * cut) := by
      rw [← hd]
      push_cast
      field_simp
    rw [hdiff, abs_div, abs_of_pos (by positivity : (0 : Rat) < 2 * cut)]
    push_cast
    rfl
  have hle' : ((|2 * d| : Int) : Rat) ≤ cut := by exact_mod_cast hle
  refine ⟨?_, fun htie => heven ?_⟩
  · rw [hdist, div_le_div_iff₀ (by positivity) two_pos]
    linarith
  · rw [hdist, div_eq_div_iff (by positivity) two_ne_zero] at htie
    have : ((|2 * d| : Int) : Rat) = cut := by linarith
    exact_mod_cast this

/-- Rounding a quotient by its remainder. -/
theorem nearestInt_div (m : Nat) {cut : Nat} (hcut : 0 < cut) :
    NearestInt (if cut < 2 * (m % cut) ∨ cut = 2 * (m % cut) ∧ m / cut % 2 = 1 then m / cut + 1 else m / cut)
      (m / cut) := by
  have hrem := Nat.mod_lt m hcut
  have hdiv : (m : Int) = cut * (m / cut : Nat) + (m % cut : Nat) := by exact_mod_cast (Nat.div_add_mod m cut).symm
  split_ifs with hup
  · have habs : |2 * ((cut : Int) - (m % cut : Nat))| = 2 * (cut - (m % cut : Nat)) := abs_of_nonneg (by omega)
    refine nearestInt_of_scaled hcut (d := cut - (m % cut : Nat)) ?_ ?_ ?_
    · rw [hdiv]
      push_cast
      ring
    · omega
    · omega
  · have habs : |2 * -((m % cut : Nat) : Int)| = 2 * (m % cut : Nat) := by
      rw [mul_neg, abs_neg, abs_of_nonneg (by omega)]
    refine nearestInt_of_scaled hcut (d := -(m % cut : Nat)) ?_ ?_ ?_
    · rw [hdiv]
      ring
    · omega
    · omega

/-- The exact value in units of `2^ulp`. -/
def inUnits (m : Nat) (e ulp : Int) : Rat := m * (2 : Rat) ^ (e - ulp)

theorem inUnits_mul (m : Nat) (e ulp : Int) : inUnits m e ulp * (2 : Rat) ^ ulp = m * (2 : Rat) ^ e := by
  rw [inUnits, mul_assoc, ← zpow_add₀ two_ne_zero, sub_add_cancel]

theorem nearestMultiple_nearest (m : Nat) (e ulp : Int) : NearestInt (nearestMultiple m e ulp) (inUnits m e ulp) := by
  unfold nearestMultiple
  split
  · have hpow : (2 : Rat) ^ (e - ulp) = (2 ^ (e - ulp).toNat : Nat) := by
      rw [Nat.cast_pow, ← zpow_natCast, Int.toNat_of_nonneg (by omega)]
      rfl
    rw [inUnits, hpow, ← Nat.cast_mul]
    exact nearestInt_natCast _
  · have hpow : inUnits m e ulp = m / (2 ^ (ulp - e).toNat : Nat) := by
      rw [inUnits, Nat.cast_pow, ← zpow_natCast, Int.toNat_of_nonneg (by omega), div_eq_mul_inv, ← zpow_neg, neg_sub]
      rfl
    rw [hpow]
    exact nearestInt_div m (Nat.two_pow_pos _)

/-! ### The last place -/

theorem lastPlace_ge (m : Nat) (e : Int) : -149 ≤ lastPlace m e := le_max_right _ _

/-- At most 24 bits are kept. -/
theorem inUnits_lastPlace_lt {m : Nat} (e : Int) : inUnits m e (lastPlace m e) < 2 ^ 24 := by
  have hulp : e + (Nat.log2 m : Int) - 23 ≤ lastPlace m e := le_max_left _ _
  have hbits : (m : Rat) < (2 : Rat) ^ ((Nat.log2 m : Int) + 1) := by exact_mod_cast Nat.lt_log2_self
  calc inUnits m e (lastPlace m e)
      < (2 : Rat) ^ ((Nat.log2 m : Int) + 1) * (2 : Rat) ^ (e - lastPlace m e) :=
        mul_lt_mul_of_pos_right hbits (by positivity)
    _ = (2 : Rat) ^ ((Nat.log2 m : Int) + 1 + (e - lastPlace m e)) := (zpow_add₀ two_ne_zero _ _).symm
    _ ≤ (2 : Rat) ^ (24 : Int) := zpow_le_zpow_right₀ one_le_two (by omega)
    _ = 2 ^ 24 := by norm_num

/-- Unless the last place is the least there is, all of 24 bits are kept. -/
theorem inUnits_lastPlace_ge {m : Nat} {e : Int} (hm : m ≠ 0) (h : lastPlace m e ≠ -149) :
    2 ^ 23 ≤ inUnits m e (lastPlace m e) := by
  have hulp : lastPlace m e = e + (Nat.log2 m : Int) - 23 := by
    unfold lastPlace at h ⊢
    omega
  have hbits : (2 : Rat) ^ (Nat.log2 m : Int) ≤ m := by exact_mod_cast Nat.log2_self_le hm
  calc (2 : Rat) ^ 23 = (2 : Rat) ^ ((Nat.log2 m : Int) + (e - lastPlace m e)) := by
        rw [hulp, show (Nat.log2 m : Int) + (e - (e + (Nat.log2 m : Int) - 23)) = 23 by ring]
        norm_num
    _ = (2 : Rat) ^ (Nat.log2 m : Int) * (2 : Rat) ^ (e - lastPlace m e) := zpow_add₀ two_ne_zero _ _
    _ ≤ inUnits m e (lastPlace m e) := mul_le_mul_of_nonneg_right hbits (by positivity)

/-! ### The value of the rounded pattern -/

/-- A finite pattern read from its low 31 bits. -/
theorem viewF32_packF32 (neg : Bool) {low : Nat} (h : low < 0x7F800000) :
    viewF32 (packF32 neg low) =
      if low < 2 ^ 23 then .fin neg low (-149) else .fin neg (2 ^ 23 + low % 2 ^ 23) ((low / 2 ^ 23 : Nat) - 150) := by
  have hsign := packF32_sign neg (low := low) (by omega)
  have hnat := packF32_toNat neg (low := low) (by omega)
  have hexp : ((packF32 neg low).extractLsb' 23 8).toNat = low / 2 ^ 23 := by
    rw [BitVec.extractLsb'_toNat, Nat.shiftRight_eq_div_pow, hnat]
    split_ifs <;> omega
  have hfrac : ((packF32 neg low).extractLsb' 0 23).toNat = low % 2 ^ 23 := by
    rw [BitVec.extractLsb'_toNat, Nat.shiftRight_zero, hnat]
    split_ifs <;> omega
  simp only [viewF32, hsign, hexp, hfrac]
  rw [if_neg (by omega)]
  by_cases hsub : low < 2 ^ 23
  · rw [if_pos (by omega), if_pos hsub, Nat.mod_eq_of_lt hsub]
  · rw [if_neg (by omega), if_neg hsub]

theorem exactValue_succ (neg : Bool) (m : Nat) (e : Int) : exactValue neg m (e + 1) = exactValue neg (m * 2) e := by
  rw [← signedNat_scaled neg m (g := e) (by omega), exactValue]
  simp

/-- The value of a pattern with the last place `2^(k - 149)`: its integer may also be the `2^24` that a carry gives. -/
theorem f32Value_packF32 (neg : Bool) {k n : Nat} (hn : n ≤ 2 ^ 24) (hk : k ≠ 0 → 2 ^ 23 ≤ n)
    (hfin : k * 2 ^ 23 + n < 0x7F800000) :
    f32Value (packF32 neg (k * 2 ^ 23 + n)) = exactValue neg n ((k : Int) - 149) := by
  have hview := viewF32_packF32 neg hfin
  obtain hsub | ⟨hlo, hhi⟩ | rfl : n < 2 ^ 23 ∨ (2 ^ 23 ≤ n ∧ n < 2 ^ 24) ∨ n = 2 ^ 24 := by omega
  · obtain rfl : k = 0 := by omega
    rw [if_pos (by omega)] at hview
    rw [f32Value_of_view hview]
    simp
  · rw [if_neg (by omega)] at hview
    have hfrac : 2 ^ 23 + (k * 2 ^ 23 + n) % 2 ^ 23 = n := by omega
    have hexp : (k * 2 ^ 23 + n) / 2 ^ 23 = k + 1 := by omega
    rw [f32Value_of_view hview, hfrac, hexp]
    congr 1
    omega
  · rw [if_neg (by omega)] at hview
    have hfrac : 2 ^ 23 + (k * 2 ^ 23 + 2 ^ 24) % 2 ^ 23 = 2 ^ 23 := by omega
    have hexp : (k * 2 ^ 23 + 2 ^ 24) / 2 ^ 23 = k + 2 := by omega
    rw [f32Value_of_view hview, hfrac, hexp, show ((k + 2 : Nat) : Int) - 150 = (k - 149 : Int) + 1 by omega,
      exactValue_succ, ← pow_succ]

/-- A finite value is an integer of 24 bits in units of its own last place. -/
theorem f32Value_scale {w : F32} (h : isFinite w = true) :
    ∃ (j e : Int), f32Value w = j * (2 : Rat) ^ e ∧ |j| < 2 ^ 24 ∧ -149 ≤ e := by
  have habs (neg : Bool) (m : Nat) : |signedNat neg m| = m := by cases neg <;> simp [signedNat]
  have hfrac : (w.extractLsb' 0 23).toNat < 2 ^ 23 := (w.extractLsb' 0 23).isLt
  obtain ⟨neg, m, e, hw⟩ := viewF32_of_finite h
  refine ⟨signedNat neg m, e, f32Value_of_view hw, ?_⟩
  rw [habs]
  simp only [viewF32] at hw
  split_ifs at hw
  · obtain ⟨-, rfl, rfl⟩ := F32View.fin.inj hw
    omega
  · obtain ⟨-, rfl, rfl⟩ := F32View.fin.inj hw
    omega

/-! ### No value is nearer -/

/-- `r` is a binary32 value nearest to `x`, and its last bit is 0 where another one is as near. -/
def NearestEven (r : F32) (x : Rat) : Prop :=
  ∀ w : F32, isFinite w = true → |f32Value r - x| ≤ |f32Value w - x| ∧
    (|f32Value w - x| = |f32Value r - x| → f32Value w ≠ f32Value r → r.getLsbD 0 = false)

/-- In units of the last place: any value that lies on this scale, or below the 24 bits that `t` has. -/
theorem nearest_of_scale {n : Nat} {t : Rat} (h : NearestInt n t) {ulp : Int} {y : Rat}
    (hy : (∃ j : Int, y = j * (2 : Rat) ^ ulp) ∨ (|y| < 2 ^ 23 * (2 : Rat) ^ ulp ∧ 2 ^ 23 ≤ t)) :
    |n * (2 : Rat) ^ ulp - t * (2 : Rat) ^ ulp| ≤ |y - t * (2 : Rat) ^ ulp| ∧
      (|y - t * (2 : Rat) ^ ulp| = |n * (2 : Rat) ^ ulp - t * (2 : Rat) ^ ulp| → y ≠ n * (2 : Rat) ^ ulp →
        n % 2 = 0) := by
  have hulp : (0 : Rat) < (2 : Rat) ^ ulp := by positivity
  have hscale (a : Rat) : |a * (2 : Rat) ^ ulp - t * (2 : Rat) ^ ulp| = |a - t| * (2 : Rat) ^ ulp := by
    rw [← sub_mul, abs_mul, abs_of_pos hulp]
  rw [hscale]
  obtain ⟨j, rfl⟩ | ⟨hy, ht⟩ := hy
  · rw [hscale]
    refine ⟨mul_le_mul_of_nonneg_right (h.le j) hulp.le, fun htie hne => ?_⟩
    refine h.even_of_tie (j := j) ?_ (mul_right_cancel₀ hulp.ne' htie)
    rintro rfl
    simp at hne
  · have hfar : |(n : Rat) - t| * (2 : Rat) ^ ulp < |y - t * (2 : Rat) ^ ulp| := by
      have hcorner : |((2 ^ 23 : Int) : Rat) - t| = t - 2 ^ 23 := by
        rw [abs_sub_comm]
        push_cast
        exact abs_of_nonneg (by linarith)
      calc |(n : Rat) - t| * (2 : Rat) ^ ulp
          ≤ (t - 2 ^ 23) * (2 : Rat) ^ ulp := mul_le_mul_of_nonneg_right (hcorner ▸ h.le (2 ^ 23)) hulp.le
        _ < t * (2 : Rat) ^ ulp - y := by linarith [le_abs_self y]
        _ ≤ |y - t * (2 : Rat) ^ ulp| := by
            rw [abs_sub_comm]
            exact le_abs_self _
    exact ⟨hfar.le, fun htie => absurd htie hfar.ne'⟩

/-- A finite value lies on a given scale, unless it lies below the values of that scale. -/
theorem f32Value_on_scale {w : F32} (h : isFinite w = true) (ulp : Int) :
    (∃ j : Int, f32Value w = j * (2 : Rat) ^ ulp) ∨
      (|f32Value w| < 2 ^ 23 * (2 : Rat) ^ ulp ∧ ulp ≠ -149) := by
  obtain ⟨j, e, hvalue, hj, he⟩ := f32Value_scale h
  obtain hcoarse | hfine := le_or_gt ulp e
  · refine .inl ⟨j * 2 ^ (e - ulp).toNat, ?_⟩
    have hpow : (2 : Rat) ^ e = (2 : Rat) ^ (e - ulp).toNat * (2 : Rat) ^ ulp := by
      rw [← zpow_natCast, Int.toNat_of_nonneg (by omega), ← zpow_add₀ two_ne_zero, sub_add_cancel]
    rw [hvalue, hpow]
    push_cast
    ring
  · refine .inr ⟨?_, by omega⟩
    have hj' : |(j : Rat)| < 2 ^ 24 := by exact_mod_cast hj
    calc |f32Value w| = |(j : Rat)| * (2 : Rat) ^ e := by
          rw [hvalue, abs_mul, abs_of_pos (by positivity : (0 : Rat) < 2 ^ e)]
      _ < 2 ^ 24 * (2 : Rat) ^ e := mul_lt_mul_of_pos_right hj' (by positivity)
      _ = 2 ^ 23 * (2 : Rat) ^ (e + 1) := by
          rw [zpow_add_one₀ two_ne_zero]
          ring
      _ ≤ 2 ^ 23 * (2 : Rat) ^ ulp := by
          have := zpow_le_zpow_right₀ (one_le_two (α := Rat)) (show e + 1 ≤ ulp by omega)
          linarith

/-- What a rounding that is not an infinity packs. -/
theorem roundF32_of_finite {neg : Bool} {m : Nat} {e : Int} (hm : m ≠ 0) (h : isFinite (roundF32 neg m e) = true) :
    roundF32 neg m e = packF32 neg (roundedLow m e) ∧ roundedLow m e < 0x7F800000 := by
  rw [roundF32_of_ne_zero neg e hm] at h ⊢
  split_ifs at h ⊢ with hlarge
  · simp at h
  · exact ⟨rfl, by omega⟩

/-- The rounded value is the nearest integer in units of the last place. -/
theorem f32Value_roundF32 {neg : Bool} {m : Nat} {e : Int} (hm : m ≠ 0) (h : isFinite (roundF32 neg m e) = true) :
    f32Value (roundF32 neg m e) = exactValue neg (nearestMultiple m e (lastPlace m e)) (lastPlace m e) := by
  obtain ⟨hpack, hlow⟩ := roundF32_of_finite hm h
  have hnear := nearestMultiple_nearest m e (lastPlace m e)
  have hge := lastPlace_ge m e
  have hbits : nearestMultiple m e (lastPlace m e) ≤ 2 ^ 24 :=
    hnear.le_of_lt (by exact_mod_cast inUnits_lastPlace_lt e)
  have hnormal (hne : (lastPlace m e + 149).toNat ≠ 0) : 2 ^ 23 ≤ nearestMultiple m e (lastPlace m e) :=
    hnear.ge_of_ge (by exact_mod_cast inUnits_lastPlace_ge hm (by omega))
  rw [hpack, roundedLow, f32Value_packF32 neg hbits hnormal hlow]
  congr 1
  omega

/-- The last bit of the result is that of the nearest integer. -/
theorem roundF32_lastBit {neg : Bool} {m : Nat} {e : Int} (hm : m ≠ 0) (h : isFinite (roundF32 neg m e) = true)
    (heven : nearestMultiple m e (lastPlace m e) % 2 = 0) : (roundF32 neg m e).getLsbD 0 = false := by
  rw [(roundF32_of_finite hm h).1, packF32_low neg _ (by omega), Nat.testBit_zero, roundedLow]
  simp only [decide_eq_false_iff_not]
  omega

theorem exactValue_false (m : Nat) (e : Int) : exactValue false m e = m * (2 : Rat) ^ e := by
  simp [exactValue, signedNat]

theorem roundF32_nearestEven_of_pos {m : Nat} {e : Int} (h : isFinite (roundF32 false m e) = true) :
    NearestEven (roundF32 false m e) (exactValue false m e) := by
  intro w hw
  obtain rfl | hm := eq_or_ne m 0
  · have hview : viewF32 (packF32 false 0) = .fin false 0 (-149) := by decide
    have hzero : f32Value (roundF32 false 0 e) = 0 := by
      rw [roundF32_zero, f32Value_of_view hview, exactValue_false, Nat.cast_zero, zero_mul]
    rw [exactValue_false, hzero, Nat.cast_zero, zero_mul, sub_zero, sub_zero, abs_zero]
    exact ⟨abs_nonneg _, fun htie hne => absurd (abs_eq_zero.mp htie) hne⟩
  · have hscale := (f32Value_on_scale hw (lastPlace m e)).imp_right fun ⟨hbelow, hne⟩ =>
      And.intro hbelow (inUnits_lastPlace_ge hm hne)
    obtain ⟨hle, htie⟩ := nearest_of_scale (nearestMultiple_nearest m e (lastPlace m e)) hscale
    rw [f32Value_roundF32 hm h, exactValue_false, exactValue_false, ← inUnits_mul m e (lastPlace m e)]
    exact ⟨hle, fun hequal hne => roundF32_lastBit hm h (htie hequal hne)⟩

/-! ### Negative numbers -/

theorem negF32_negF32 (w : F32) : negF32 (negF32 w) = w := by rw [negF32, negF32, BitVec.xor_assoc]; simp

theorem NearestEven.neg {r : F32} {x : Rat} (hr : isFinite r = true) (h : NearestEven r x) :
    NearestEven (negF32 r) (-x) := by
  intro w hw
  obtain ⟨hle, htie⟩ := h (negF32 w) (isFinite_negF32 hw)
  have hmirror (a : Rat) : |-a - -x| = |a - x| := by rw [neg_sub_neg, abs_sub_comm]
  have hbit : (negF32 r).getLsbD 0 = r.getLsbD 0 := by simp [negF32]
  have hw' : f32Value w = -f32Value (negF32 w) := by rw [f32Value_negF32 hw, neg_neg]
  rw [hw', f32Value_negF32 hr, hmirror, hmirror, hbit, ne_eq, neg_inj]
  exact ⟨hle, htie⟩

/-- Settles O35: a nonnegative number by its last place, a negative one by its mirror image. -/
theorem roundNearestEven : Obligations.RoundNearestEven := by
  intro neg m e w hr
  revert w
  cases neg with
  | false => exact roundF32_nearestEven_of_pos hr
  | true =>
    have hmirror : roundF32 true m e = negF32 (roundF32 false m e) := roundF32_not false m e
    have hfin : isFinite (roundF32 false m e) = true := by
      rw [← negF32_negF32 (roundF32 false m e), ← hmirror]
      exact isFinite_negF32 hr
    have hexact : exactValue true m e = -exactValue false m e := by
      rw [exactValue, exactValue, ← Bool.not_false, signedNat_not, Int.cast_neg, neg_mul]
    rw [hmirror, hexact]
    exact (roundF32_nearestEven_of_pos hfin).neg hfin

end Sys2Proof.Machine

namespace Sys2Proof.Machine

/-! ## The arithmetic of a filter stage (spec/42_sample_path.md R174 to R176) -/

/-! ### A NaN operand -/

/-- A NaN among a stage's operands reaches its last subtraction by every way there is (R174). -/
theorem unfusedArith_nan {b0 b1 a1 x x1 y1 : F32} (h : isNaN x = true ∨ isNaN x1 = true ∨ isNaN y1 = true) :
    isNaN (unfusedArith b0 b1 a1 x x1 y1) = true := by
  rw [unfusedArith]
  obtain hx | hx1 | hy1 := h
  · rw [mulF32_nan_right b0 hx, addF32_nan_left _ isNaN_markNaN, subF32_nan_left _ isNaN_markNaN, isNaN_markNaN]
  · rw [mulF32_nan_right b1 hx1, addF32_nan_right _ isNaN_markNaN, subF32_nan_left _ isNaN_markNaN, isNaN_markNaN]
  · rw [mulF32_nan_right a1 hy1, subF32_nan_right _ isNaN_markNaN, isNaN_markNaN]

theorem stageStep_nan {i : Stage} {x : F32} {s : State} (ha : s.params.arith = .unfused)
    (h : isNaN x = true ∨ isNaN (s.prod.path.fstate.get i).x1 = true ∨ isNaN (s.prod.path.fstate.get i).y1 = true) :
    isNaN (stageStep i x s).1 = true := by
  rw [stageStep_value, stageArith_nan ha (by rw [ha]; exact unfusedArith_nan h)]
  exact quietNaN_isNaN _

/-- The last stage finds its own Y1 as it was before the chain ran. -/
theorem chain_nan {x : F32} {s : State} (ha : s.params.arith = .unfused) (h : isNaN s.prod.path.fstate.s2.y1 = true) :
    isNaN (chain x s).1 = true := by
  have hown : isNaN (s.prod.path.fstate.get .s2).y1 = true := h
  refine stageStep_nan (by simpa using ha) (.inr (.inr ?_))
  simpa [Bank.get_set_other] using hown

/-- The chain's output is the last stage's new Y1. -/
theorem chain_lastY1 (x : F32) (s : State) : (chain x s).2.prod.path.fstate.s2.y1 = (chain x s).1 := by
  rw [chain, stageStep_prod]
  rfl

/-- Settles O33: what the chain answers is a NaN, and what it answers becomes the last stage's Y1. -/
theorem nanStays : Obligations.NaNStays :=
  ⟨fun _ _ _ ha h => stageStep_nan ha h, fun x s ha h => ⟨chain_nan ha h, by rw [chain_lastY1, chain_nan ha h]⟩⟩

/-! ### A constant input to a high-pass stage -/

/-- A finite value and its negation add to +0. -/
theorem addF32_negF32 {t : F32} (h : isFinite t = true) : addF32 t (negF32 t) = 0x00000000#32 := by
  obtain ⟨neg, m, e, ht⟩ := viewF32_of_finite h
  have hneg : viewF32 (negF32 t) = .fin (!neg) m e := by rw [viewF32_negF32, ht]; rfl
  rw [addF32_fin ht hneg, signedNat_not, if_pos (by simp), Bool.and_not_self]
  rfl

theorem mulF32_negF32_left {a b : F32} (h : isFinite (mulF32 a b) = true) :
    mulF32 (negF32 a) b = negF32 (mulF32 a b) := by
  obtain ⟨ha, hb⟩ := finite_of_mulF32_finite h
  obtain ⟨x, m, e, ha⟩ := viewF32_of_finite ha
  obtain ⟨y, n, f, hb⟩ := viewF32_of_finite hb
  have hneg : viewF32 (negF32 a) = .fin (!x) m e := by rw [viewF32_negF32, ha]; rfl
  rw [mulF32_fin hneg hb, mulF32_fin ha hb, ← roundF32_not, Bool.not_bne]

theorem orQuietNaN_of_number {v : F32} (bits : BitVec 23) (h : isNaN v = false) : orQuietNaN v bits = v := by
  simp [orQuietNaN, h]

/-- A number is answered only for a number. -/
theorem number_of_orQuietNaN {v : F32} {bits : BitVec 23} (h : isNaN (orQuietNaN v bits) = false) :
    isNaN v = false := by
  by_contra hnan
  rw [orQuietNaN, if_pos (by simpa using hnan), quietNaN_isNaN] at h
  cases h

/-- Settles O34: the two products with B0 and B1 cancel. -/
theorem constantInputDecays : Obligations.ConstantInputDecays := by
  refine ⟨fun rate fc hb0 => ?design, fun b0 a1 x y1 hprod => ?stage⟩
  case design =>
    simp only [bilinearDesign] at hb0 ⊢
    have hca := number_of_orQuietNaN hb0
    rw [orQuietNaN_of_number _ hca, orQuietNaN_of_number _ (by rw [isNaN_negF32, hca])]
  case stage => simp only [unfusedArith, mulF32_negF32_left hprod, addF32_negF32 hprod]

end Sys2Proof.Machine
